-- ==== Sys2Proof/Word.lean ====
section
/-! DEFINITION. Word.lean: the bit-level types of the block (00_scope.md R8) and nothing a test could show wrong. -/

namespace Sys2Proof

/-- A byte: 8 bits, numbered 7 (most significant) down to 0 (R8). -/
abbrev Byte := BitVec 8

/-- A flash address: bits24, ADDR_BITS = 24 (R7, R50). -/
abbrev Addr := BitVec 24

/-- bits16: the identifier word of readDeviceId and of `expected_id` (R8, R22, R130). -/
abbrev Word16 := BitVec 16

end Sys2Proof
end

