-- ==== Sys2Proof/Config.lean ====
section
/-! DEFINITION. Config.lean: what is fixed for one machine (00_scope.md R7), the events of the bus (10_state.md R33)
and the free values (decisions D15, D18, D19): constants with no body, so nothing can be proved of what they are. -/

namespace Sys2Proof

/-- The bus peripheral's saved "mode + status" (R7 `Cfg`): an opaque type whose layout the source does not give
(N8, D28). A value is an uninterpreted token; the model only moves and compares it. -/
structure Cfg where
  token : Nat
deriving DecidableEq, Repr

/-- The chip-select line identifier (R7 `CS_ID`, R21): an opaque pin id. -/
structure PinId where
  id : Nat
deriving DecidableEq, Repr

/-- The events of `S.trace` (R33): each bus primitive appends exactly one. -/
inductive Event where
  | sel
  | unsel
  | xfer (mosi miso : Byte)
  | pinOutput (pin : PinId)
  | pinWrite (pin : PinId) (level : Bool)
  | cfgSave
  | busEnd
deriving DecidableEq, Repr

/-- The implementation parameters of R7 that the source leaves open or a decision sets. They are held in State and no
step writes them, so that a statement about every state is one about every parameter value (D4). -/
structure Params where
  /-- `CHIP_BYTES` is 2 to this power: a power of two, 2^19 to 2^24 (R7, D17). -/
  chipBits  : Nat
  /-- `LEN_BITS`, at least 10 (R7, D8). -/
  lenBits   : Nat
  /-- `FILL_BYTE`, sent while receiving and as every dummy byte (R7, R103, D4). -/
  fillByte  : Byte
  /-- `WE_PREPOLL`: a ready-wait before the write-enable transaction (R7, R108, D5). -/
  wePrepoll : Bool
  /-- `FLASH_CFG`, the configuration installed at select (R7, R100). -/
  flashCfg  : Cfg
  /-- `N_HANDLES`: sequencers sharing the unique-ID buffer (R7, D27). -/
  nHandles  : Nat
deriving DecidableEq, Repr

/-- The ranges R7 gives for the open parameters. -/
abbrev Params.wf (p : Params) : Prop :=
  19 ≤ p.chipBits ∧ p.chipBits ≤ 24 ∧ 10 ≤ p.lenBits ∧ 1 ≤ p.nHandles

/-- `CHIP_BYTES` (R7, R50). -/
def Params.chipBytes (p : Params) : Nat := 2 ^ p.chipBits

/-- The defaults of R7 (FILL_BYTE 0x00, WE_PREPOLL false, N_HANDLES 1); DESIGN CHOICE (log 7) for the OPEN ones:
chipBits 24, LEN_BITS 16, FLASH_CFG the token 1. -/
def Params.default : Params :=
  { chipBits := 24, lenBits := 16, fillByte := 0x00#8, wePrepoll := false, flashCfg := ⟨1⟩, nHandles := 1 }

/-- `PAGE_BYTES` (R7). -/
def Config.pageBytes : Nat := 256

/-- `SECTOR_BYTES` (R7). -/
def Config.sectorBytes : Nat := 4096

/-- `BLOCK_BYTES` (R7). -/
def Config.blockBytes : Nat := 32768

/-- Free value (D15, D18; log 9): the MISO byte the device answers after the given trace when the given byte is sent.
R102 writes it `MISO(S.trace, b)`: an unconstrained draw. -/
opaque Config.miso : List Event → Byte → Byte

/-- Free value (D18, D19; log 10): the device's choice number `tag` after the given trace (tag 0: whether a command of
R77 takes its effect; tag 1: whether `Complete` runs at an `Unsel`; tag 2 + n: whether the device's turn number n is its
own step `Complete`). -/
opaque Config.choice : List Event → Nat → Bool

end Sys2Proof
end

