-- ==== Sys2Proof/Syntax.lean ====
section
/-! DEFINITION. Syntax.lean: the instruction set, whole (spec/opcode_table.json): thirteen wire commands (30_encoding.md
R81) and sixteen host OPSEL values (R91), and the two encoded forms an instruction arrives in. -/

namespace Sys2Proof

/-- One constructor per row of spec/opcode_table.json. -/
inductive Instr where
  /-- WRITE-ENABLE 0x06, format W-NONE. -/
  | writeEnable
  /-- STATUS-READ 0x05, format W-R1. -/
  | statusRead
  /-- STATUS-WRITE 0x01, format W-W1, with the byte sent. -/
  | statusWrite (value : Byte)
  /-- ARRAY-READ 0x0B, format W-ADRN, with the number of bytes received. -/
  | arrayRead (addr : Addr) (count : Nat)
  /-- ARRAY-READ-LOW-FREQ 0x03, format W-ARN, with the number of bytes received. -/
  | arrayReadLowFreq (addr : Addr) (count : Nat)
  /-- BYTE-OR-PAGE-PROGRAM 0x02, format W-AWM, with the 1 to 256 data bytes. -/
  | byteOrPageProgram (addr : Addr) (data : List Byte)
  /-- BLOCK-ERASE-4K 0x20, format W-A. -/
  | blockErase4K (addr : Addr)
  /-- BLOCK-ERASE-32K 0x52, format W-A. -/
  | blockErase32K (addr : Addr)
  /-- CHIP-ERASE 0x60, format W-NONE. -/
  | chipEraseCmd
  /-- JEDEC-ID 0x9F, format W-R2. -/
  | jedecId
  /-- UNIQUE-ID 0x4B, format W-D4R8. -/
  | uniqueId
  /-- DEEP-POWER-DOWN 0xB9, format W-NONE. -/
  | deepPowerDown
  /-- RELEASE-FROM-POWER-DOWN 0xAB, format W-NONE. -/
  | releaseFromPowerDown
  /-- OPSEL 0x0 readStatus. -/
  | readStatus
  /-- OPSEL 0x1 busy. -/
  | busy
  /-- OPSEL 0x2 readDeviceId. -/
  | readDeviceId
  /-- OPSEL 0x3 readUniqueId. -/
  | readUniqueId
  /-- OPSEL 0x4 readByte. -/
  | readByte (addr : Addr)
  /-- OPSEL 0x5 readBytes. -/
  | readBytes (addr : Addr) (len : Nat)
  /-- OPSEL 0x6 writeByte. -/
  | writeByte (addr : Addr) (value : Byte)
  /-- OPSEL 0x7 writeBytes. -/
  | writeBytes (addr : Addr) (len : Nat) (data : List Byte)
  /-- OPSEL 0x8 eraseBlock4K. -/
  | eraseBlock4K (addr : Addr)
  /-- OPSEL 0x9 eraseBlock32K. -/
  | eraseBlock32K (addr : Addr)
  /-- OPSEL 0xA chipErase. -/
  | chipErase
  /-- OPSEL 0xB sleep. -/
  | sleep
  /-- OPSEL 0xC wakeup. -/
  | wakeup
  /-- OPSEL 0xD end. -/
  | endOp
  /-- OPSEL 0xE initialize. -/
  | initializeOp
  /-- OPSEL 0xF: reserved, a refused request (R91, R204). -/
  | reserved
deriving DecidableEq, Repr

/-- A host request record (R90). `len` is a natural here; the decoder holds it against LEN_BITS. -/
structure Request where
  opsel : BitVec 4
  addr  : Addr
  len   : Nat
  value : Byte
  data  : List Byte
deriving DecidableEq, Repr

/-- An instruction as it arrives: a host request record (R90), or the MOSI bytes of one hand-built wire transaction
(R80; log 3). -/
inductive Encoded where
  | request (r : Request)
  | wire (mosi : List Byte)
deriving DecidableEq, Repr

end Sys2Proof
end

