-- ==== Sys2Proof/Machine/State.lean ====
section
/-! DEFINITION. Machine/State.lean: every piece of state the spec gives the block (10_state.md R20) and the reference
device (20_memory.md R68), as plain data, and the state right after construction (R38, R220). -/

namespace Sys2Proof.Machine

/-- The model faults of 60_exceptions.md R203. A primitive that raises one writes `State.fault` and nothing else (R206);
the step after it answers the fault. All safe: the model stops where a misused block would go on. -/
inductive Fault where
  /-- Raised by SELECT when `cs_dir ≠ output` (R100). Safe. -/
  | csNotConfigured
  /-- Raised by SELECT when `cs_level = 0` (R100). Safe. -/
  | nestedSelect
  /-- Raised by UNSELECT when `cs_level ≠ 0` (R101). Safe. -/
  | unselectWhileDeselected
  /-- Raised by XFER when `cs_level ≠ 0` (R102). Safe. -/
  | xferWhileDeselected
  /-- Raised by any primitive for which a ⊥ element would reach a wire byte, a response or the bus configuration
  (R11, R203, I20). Safe. -/
  | undefinedValue
deriving DecidableEq, Repr

/-- What has no move in the model, by name. -/
inductive Refusal where
  /-- Raised by exec's arm of an instruction that has no meaning yet. Safe. -/
  | notModelled (mnemonic : String)
  /-- Raised by every meaning when another request is active: R204 (a) "has no move", R209. Safe. -/
  | requestWhileActive
  /-- Raised by BYTE-OR-PAGE-PROGRAM with 0 or more than 256 data bytes: the spec gives such a burst no meaning
  (R72, D33). Safe. -/
  | burstSizeUndefined
  /-- Raised by the fetch of a request record whose fields are wider than the record's (R90). Safe. -/
  | noSuchRequest
  /-- Raised by the fetch of wire bytes that are no transaction of R81 and R82 (R86). Safe. -/
  | noSuchTransaction
  /-- Raised by a host move of another handle when N_HANDLES is 1 (R133, R213, D27). Safe. -/
  | noOtherHandle
deriving DecidableEq, Repr

/-- `S.cs_dir` (R20, R27). -/
inductive PinDir where
  | unconfigured
  | input
  | output
deriving DecidableEq, Repr

/-- `S.phase` (R29). -/
inductive Phase where
  | constructed
  | initialized
  | ended
deriving DecidableEq, Repr

/-- A response record (30_encoding.md R92). -/
inductive Response where
  | none
  | byte (b : Byte)
  | bool (t : Bool)
  | word (w : Word16)
  | bytes (bs : List Byte)
  | uid (bs : List Byte)
deriving DecidableEq, Repr

/-- Which response a request's `return` builds (R92). -/
inductive Ret where
  | none
  | byte
  | busy
  | word
  | bytes
  | uid
  | bool (t : Bool)
deriving DecidableEq, Repr

/-- One position of a request's pseudocode (R31): a bus primitive (R10), or a control action between primitives. -/
inductive Micro where
  /-- SELECT (R100). -/
  | sel
  /-- UNSELECT (R101). -/
  | unsel
  /-- TX of a known byte (R103). -/
  | tx (b : Byte)
  /-- TX of `S.wb_addr[23:16]` (R152). -/
  | txWbHigh
  /-- TX of `S.wb_addr[15:8]` (R152). -/
  | txWbMid
  /-- TX of `S.wb_addr[7:0]` (R152). -/
  | txWbLow
  /-- TX of `data[S.wb_off + i]` (R152). -/
  | txBuf (i : Nat)
  /-- RX into the request's local list of received bytes (R103). -/
  | rx
  /-- RX into `S.uid_buf[i]` (R132). -/
  | rxUid (i : Fin 8)
  /-- RX of a ready-wait's status byte (R105, R107). -/
  | rxPoll
  /-- WAIT_READY (R107): expands to one STATUS-READ transaction and its test. -/
  | wait
  /-- WAIT_READY after a poll that read busy: the block's only suspension point (R112). -/
  | waitAgain
  /-- `until b = false` (R107). -/
  | pollTest
  /-- Entry of WRITE_BYTES: the splitter registers take the operands (R152). -/
  | wbInit (addr : Addr) (len : Nat)
  /-- `while S.wb_rem > 0` with the body of one burst (R152). -/
  | burst
  /-- The register updates at the end of a burst of `n` bytes (R152). -/
  | wbNext (n : Nat)
  /-- The splitter registers back to ⊥ (R152). -/
  | wbClear
  /-- The configuration snapshot of initialize (R186). -/
  | cfgSave
  /-- CS as an output (R186). -/
  | pinOutput
  /-- CS high (R186). -/
  | pinHigh
  /-- `S.phase <- Initialized` (R186). -/
  | setInitialized
  /-- `if S.expected_id ≠ 0` (R186). -/
  | probe
  /-- `if id ≠ S.expected_id` (R186). -/
  | idTest
  /-- BUS_END with END's writes (R184). -/
  | busEnd
  /-- `return` (R11, R92). -/
  | ret (k : Ret)
deriving DecidableEq, Repr

/-- `S.ctl` (R31): Idle, or the active request with the position reached in its pseudocode: what is left of it, and its
local variables (the bytes received so far, the last poll's byte). -/
inductive Ctl where
  | idle
  | active (req : Instr) (todo : List Micro) (got : List Byte) (poll : Option Byte)
deriving DecidableEq, Repr

/-- What the host may do while `ctl = Idle` (R6, R185, R20, R25, R133): the pending moves of `State.hreq`. -/
inductive HostMove where
  /-- A request on HREQ (R90), or a hand-built wire transaction (log 3). -/
  | issue (e : Encoded)
  /-- BusBegin (R185). -/
  | busBegin
  /-- The host writes its interrupt enable between requests (R20, R26). -/
  | setIe (on : Bool)
  /-- Another driver leaves the bus in a configuration of its own between requests (R25, R236). -/
  | setBusCfg (c : Cfg)
  /-- Another handle's readUniqueId overwrites the shared buffer (R133, D27). -/
  | otherUniqueId (uid : Vector Byte 8)
  /-- Another handle's end releases the one bus that all handles share (R184, R213, D27). -/
  | otherEnd
deriving DecidableEq, Repr

/-- The device's internal operation in progress, `PENDING` (R68, R69). -/
inductive DevOp where
  | program (addr : Addr) (data : List Byte)
  | eraseSector (addr : Addr)
  | eraseBlock (addr : Addr)
  | eraseChip
  | statusWrite (value : Byte)
deriving DecidableEq, Repr

/-- Which device answers: an external agent of which nothing is assumed (D15), or the reference device (R68-R77). -/
inductive DevModel where
  | external
  | reference
deriving DecidableEq, Repr

/-- The reference device's per-transaction decoder (R68, R69): the opcode, the count of bytes received with it, the
address assembled, the data bytes, the latch at the opcode, and whether the transaction is one of R77's open cases. -/
structure Txn where
  opcode : Option Byte
  count  : Nat
  addr   : Addr
  data   : List Byte
  wel    : Bool
  free   : Bool
deriving DecidableEq, Repr

/-- The flash device (R68). `mem` is `F`, as the cells that do not read 0xFF, addresses rising (log 12). -/
structure Device where
  model         : DevModel
  mem           : List Host.Cell
  wel           : Bool
  busy          : Bool
  pending       : Option DevOp
  dpd           : Bool
  mfr           : Byte
  devId         : Byte
  uid           : Vector Byte 8
  statusWritten : Byte
  txn           : Option Txn
deriving DecidableEq, Repr

/-- The block's state `S` (R20), its parameters (R7), its host ports (R6), the device (R68), and the draws a script
fixes in advance, with the count of the device's turns (log 9, 10). -/
structure State where
  par        : Params
  csId       : PinId
  expectedId : Word16
  savedCfg   : Option Cfg
  uidBuf     : Vector (Option Byte) 8
  busCfg     : Cfg
  ie         : Bool
  csDir      : PinDir
  csLevel    : Option Bool
  busUp      : Bool
  phase      : Phase
  wbAddr     : Option Addr
  wbOff      : Option Nat
  wbRem      : Option Nat
  wbLimit    : Option Nat
  ctl        : Ctl
  fault      : Option Fault
  refused    : Bool
  trace      : List Event
  hreq       : List HostMove
  hrsp       : List Response
  dev        : Device
  miso       : List Byte
  choices    : List Bool
  turns      : Nat
deriving DecidableEq, Repr

/-- The device before any example states its own start (N26): DESIGN CHOICE (log 11, 12). -/
def Device.reset : Device :=
  { model := .external, mem := [], wel := false, busy := false, pending := none, dpd := false, mfr := 0, devId := 0,
    uid := Vector.replicate 8 0, statusWritten := 0, txn := none }

/-- Construction (R38, R220): the two arguments bound, the parameters and the host's own three values given, every other
element as R38 lists it. -/
def State.construct (p : Params) (csId : PinId) (expectedId : Word16) (busCfg : Cfg) (ie busUp : Bool) (dev : Device) :
    State :=
  { par := p, csId := csId, expectedId := expectedId, savedCfg := none, uidBuf := Vector.replicate 8 none,
    busCfg := busCfg, ie := ie, csDir := .unconfigured, csLevel := none, busUp := busUp, phase := .constructed,
    wbAddr := none, wbOff := none, wbRem := none, wbLimit := none, ctl := .idle, fault := none, refused := false,
    trace := [], hreq := [], hrsp := [], dev := dev, miso := [], choices := [],
    turns := 0 }

/-- Right after construction, with the arguments and host values of log 6 and 7: DESIGN CHOICE where R38 leaves them
free. -/
def State.reset : State :=
  State.construct Params.default ⟨0⟩ 0 ⟨0⟩ true true Device.reset

end Sys2Proof.Machine
end

