-- ==== Sys2Proof/Machine/Flags.lean ====
section
/-! DEFINITION. Machine/Flags.lean: the status register and its parser (10_state.md R34, R35). The block has no other
flag or condition code (R37). -/

namespace Sys2Proof.Machine

/-- BUSY_OF (R35): true exactly when bit 0 of the status byte is 1. -/
def busyOf (status : Byte) : Bool := status.getLsbD 0

/-- The status byte a device answers (R70): bit 0 is BUSY, bits 7:1 are those of a draw. -/
def statusByte (busy : Bool) (draw : Byte) : Byte :=
  (draw &&& 0xFE#8) ||| (if busy then 0x01#8 else 0x00#8)

end Sys2Proof.Machine
end

