-- ==== Sys2Proof/WellFormed.lean ====
section
/-! DEFINITION. WellFormed.lean: the operand ranges an encoding admits. The equality `len(data) = len` of writeBytes is
no well-formedness check: it is condition (e) of admission (60_exceptions.md R204), with an effect of its own. -/

namespace Sys2Proof

/-- The length operand fits its field, bits(LEN_BITS) (30_encoding.md R90). -/
def lenFits (p : Params) (len : Nat) : Bool := decide (len < 2 ^ p.lenBits)

/-- A program burst carries 1 to 256 data bytes (R81, R82 W-AWM). -/
def burstFits (data : List Byte) : Bool := decide (1 ≤ data.length) && decide (data.length ≤ 256)

/-- The instruction's operands are ones its encoding admits. -/
def Instr.wf (p : Params) : Instr → Bool
  | .writeEnable => true
  | .statusRead => true
  | .statusWrite _ => true
  | .arrayRead _ _ => true
  | .arrayReadLowFreq _ _ => true
  | .byteOrPageProgram _ data => burstFits data
  | .blockErase4K _ => true
  | .blockErase32K _ => true
  | .chipEraseCmd => true
  | .jedecId => true
  | .uniqueId => true
  | .deepPowerDown => true
  | .releaseFromPowerDown => true
  | .readStatus => true
  | .busy => true
  | .readDeviceId => true
  | .readUniqueId => true
  | .readByte _ => true
  | .readBytes _ len => lenFits p len
  | .writeByte _ _ => true
  | .writeBytes _ len _ => lenFits p len
  | .eraseBlock4K _ => true
  | .eraseBlock32K _ => true
  | .chipErase => true
  | .sleep => true
  | .wakeup => true
  | .endOp => true
  | .initializeOp => true
  | .reserved => true

end Sys2Proof
end

