-- ==== Sys2Proof/Decode.lean ====
section
/-! DEFINITION. Decode.lean: from the encoded forms of 30_encoding.md to an instruction, total, rejecting by name; then
the encoder written from the same tables (R81, R82, R91), and the host's reading of a row of the opcode table. -/

namespace Sys2Proof

/-- Why an encoded form is no instruction. -/
inductive Reject where
  /-- A transaction with no byte has no opcode (R80: byte 0 is the command opcode). -/
  | emptyTransaction
  /-- Byte 0 is none of the thirteen opcodes (R86). -/
  | unknownOpcode
  /-- The transaction is longer or shorter than its opcode's format (R82, R85). -/
  | wrongLength
  /-- A dummy or receive position does not carry FILL_BYTE (R82). -/
  | fillExpected
  /-- A program burst of 0 or more than 256 data bytes (R82, D33). -/
  | burstSize
  /-- The length does not fit bits(LEN_BITS) (R90). -/
  | lenTooWide
deriving DecidableEq, Repr

/-! ## Address bytes (R57, R83) -/

/-- A2 = a[23:16] (R83). -/
def addrHigh (a : Addr) : Byte := a.extractLsb' 16 8

/-- A1 = a[15:8] (R83). -/
def addrMid (a : Addr) : Byte := a.extractLsb' 8 8

/-- A0 = a[7:0] (R83). -/
def addrLow (a : Addr) : Byte := a.extractLsb' 0 8

/-- The three address bytes in wire order, high byte first (R57). -/
def addrBytes (a : Addr) : List Byte := [addrHigh a, addrMid a, addrLow a]

/-- The address that three wire bytes assemble (R57, R71). -/
def addrOfBytes (hi mid lo : Byte) : Addr := (hi ++ mid ++ lo : BitVec (8 + 8 + 8))

/-! ## The wire formats (R82), read from the bytes after the opcode -/

/-- Format W-NONE. -/
def decodeNone (i : Instr) : List Byte → Except Reject Instr
  | [] => .ok i
  | _ => .error .wrongLength

/-- A run of dummy and receive positions of fixed length: W-R1, W-R2, W-D4R8. -/
def decodeFill (fill : Byte) (n : Nat) (i : Instr) (rest : List Byte) : Except Reject Instr :=
  if rest.length = n then
    if rest.all (· == fill) then .ok i else .error .fillExpected
  else .error .wrongLength

/-- Format W-W1. -/
def decodeByte (mk : Byte → Instr) : List Byte → Except Reject Instr
  | [w] => .ok (mk w)
  | _ => .error .wrongLength

/-- Format W-A. -/
def decodeAddr (mk : Addr → Instr) : List Byte → Except Reject Instr
  | [hi, mid, lo] => .ok (mk (addrOfBytes hi mid lo))
  | _ => .error .wrongLength

/-- Format W-ARN: three address bytes, then N receive positions. -/
def decodeAddrRead (fill : Byte) (mk : Addr → Nat → Instr) : List Byte → Except Reject Instr
  | hi :: mid :: lo :: rest =>
    if rest.all (· == fill) then .ok (mk (addrOfBytes hi mid lo) rest.length) else .error .fillExpected
  | _ => .error .wrongLength

/-- Format W-ADRN: three address bytes, one dummy byte, then N receive positions. -/
def decodeAddrDummyRead (fill : Byte) (mk : Addr → Nat → Instr) : List Byte → Except Reject Instr
  | hi :: mid :: lo :: dummy :: rest =>
    if (dummy :: rest).all (· == fill) then .ok (mk (addrOfBytes hi mid lo) rest.length) else .error .fillExpected
  | _ => .error .wrongLength

/-- Format W-AWM: three address bytes, then 1 to 256 data bytes. -/
def decodeAddrData (mk : Addr → List Byte → Instr) : List Byte → Except Reject Instr
  | hi :: mid :: lo :: data =>
    if burstFits data then .ok (mk (addrOfBytes hi mid lo) data) else .error .burstSize
  | _ => .error .wrongLength

/-- A wire transaction's MOSI bytes as an instruction (R80-R86). -/
def decodeWire (p : Params) : List Byte → Except Reject Instr
  | [] => .error .emptyTransaction
  | op :: rest =>
    match op.toNat with
    | 0x06 => decodeNone .writeEnable rest
    | 0x05 => decodeFill p.fillByte 1 .statusRead rest
    | 0x01 => decodeByte .statusWrite rest
    | 0x0B => decodeAddrDummyRead p.fillByte .arrayRead rest
    | 0x03 => decodeAddrRead p.fillByte .arrayReadLowFreq rest
    | 0x02 => decodeAddrData .byteOrPageProgram rest
    | 0x20 => decodeAddr .blockErase4K rest
    | 0x52 => decodeAddr .blockErase32K rest
    | 0x60 => decodeNone .chipEraseCmd rest
    | 0x9F => decodeFill p.fillByte 2 .jedecId rest
    | 0x4B => decodeFill p.fillByte 12 .uniqueId rest
    | 0xB9 => decodeNone .deepPowerDown rest
    | 0xAB => decodeNone .releaseFromPowerDown rest
    | _ => .error .unknownOpcode

/-- A host request record as an instruction (R90, R91). Fields the operation does not read are ignored. -/
def decodeRequest (p : Params) (r : Request) : Except Reject Instr :=
  match r.opsel.toNat with
  | 0x0 => .ok .readStatus
  | 0x1 => .ok .busy
  | 0x2 => .ok .readDeviceId
  | 0x3 => .ok .readUniqueId
  | 0x4 => .ok (.readByte r.addr)
  | 0x5 => if lenFits p r.len then .ok (.readBytes r.addr r.len) else .error .lenTooWide
  | 0x6 => .ok (.writeByte r.addr r.value)
  | 0x7 => if lenFits p r.len then .ok (.writeBytes r.addr r.len r.data) else .error .lenTooWide
  | 0x8 => .ok (.eraseBlock4K r.addr)
  | 0x9 => .ok (.eraseBlock32K r.addr)
  | 0xA => .ok .chipErase
  | 0xB => .ok .sleep
  | 0xC => .ok .wakeup
  | 0xD => .ok .endOp
  | 0xE => .ok .initializeOp
  | _ => .ok .reserved

/-- The decoder, over both encoded forms. -/
def decode (p : Params) : Encoded → Except Reject Instr
  | .request r => decodeRequest p r
  | .wire mosi => decodeWire p mosi

/-! ## The encoder -/

/-- A request record with the given OPSEL and every other field zero. -/
def bareRequest (opsel : BitVec 4) : Request :=
  { opsel := opsel, addr := 0, len := 0, value := 0, data := [] }

/-- `n` positions that carry FILL_BYTE (R82). -/
def fillBytes (p : Params) (n : Nat) : List Byte := List.replicate n p.fillByte

/-- The encoded form of an instruction (R81, R82, R91). -/
def encode (p : Params) : Instr → Encoded
  | .writeEnable => .wire [0x06#8]
  | .statusRead => .wire (0x05#8 :: fillBytes p 1)
  | .statusWrite v => .wire [0x01#8, v]
  | .arrayRead a n => .wire (0x0B#8 :: addrBytes a ++ fillBytes p (n + 1))
  | .arrayReadLowFreq a n => .wire (0x03#8 :: addrBytes a ++ fillBytes p n)
  | .byteOrPageProgram a data => .wire (0x02#8 :: addrBytes a ++ data)
  | .blockErase4K a => .wire (0x20#8 :: addrBytes a)
  | .blockErase32K a => .wire (0x52#8 :: addrBytes a)
  | .chipEraseCmd => .wire [0x60#8]
  | .jedecId => .wire (0x9F#8 :: fillBytes p 2)
  | .uniqueId => .wire (0x4B#8 :: fillBytes p 12)
  | .deepPowerDown => .wire [0xB9#8]
  | .releaseFromPowerDown => .wire [0xAB#8]
  | .readStatus => .request (bareRequest 0x0#4)
  | .busy => .request (bareRequest 0x1#4)
  | .readDeviceId => .request (bareRequest 0x2#4)
  | .readUniqueId => .request (bareRequest 0x3#4)
  | .readByte a => .request { bareRequest 0x4#4 with addr := a }
  | .readBytes a len => .request { bareRequest 0x5#4 with addr := a, len := len }
  | .writeByte a v => .request { bareRequest 0x6#4 with addr := a, value := v }
  | .writeBytes a len data => .request { bareRequest 0x7#4 with addr := a, len := len, data := data }
  | .eraseBlock4K a => .request { bareRequest 0x8#4 with addr := a }
  | .eraseBlock32K a => .request { bareRequest 0x9#4 with addr := a }
  | .chipErase => .request (bareRequest 0xA#4)
  | .sleep => .request (bareRequest 0xB#4)
  | .wakeup => .request (bareRequest 0xC#4)
  | .endOp => .request (bareRequest 0xD#4)
  | .initializeOp => .request (bareRequest 0xE#4)
  | .reserved => .request (bareRequest 0xF#4)

/-! ## A row of the opcode table, by its bits (log 4) -/

/-- How many zero bytes follow the opcode in the shortest transaction of its format (R82); none for a byte that is no
opcode. -/
def shortestPayload (op : Nat) : Option Nat :=
  match op with
  | 0x06 => some 0
  | 0x05 => some 1
  | 0x01 => some 1
  | 0x0B => some 4
  | 0x03 => some 3
  | 0x02 => some 4
  | 0x20 => some 3
  | 0x52 => some 3
  | 0x60 => some 0
  | 0x9F => some 2
  | 0x4B => some 12
  | 0xB9 => some 0
  | 0xAB => some 0
  | _ => none

/-- The encoded form whose table bits are `w`, every operand bit zero. The table numbers two layers: a row of 4 bits is
an OPSEL, a row of 8 bits a wire opcode; an 8-bit value that is no wire opcode is read as an OPSEL (log 4). -/
def encodedOfTableWord (nbits w : Nat) : Option Encoded :=
  if nbits ≤ 4 then
    if w < 16 then some (.request (bareRequest (BitVec.ofNat 4 w))) else none
  else
    match shortestPayload w with
    | some k => some (.wire (BitVec.ofNat 8 w :: List.replicate k 0x00#8))
    | none => if w < 16 then some (.request (bareRequest (BitVec.ofNat 4 w))) else none

/-- The instruction the decoder reads from a table row's bits, under the default parameters (FILL_BYTE 0x00). -/
def decodeTableWord (nbits w : Nat) : Option Instr :=
  match encodedOfTableWord nbits w with
  | some e => (decode Params.default e).toOption
  | none => none

end Sys2Proof
end

