-- ==== Sys2Proof/Machine/Operands.lean ====
section
/-! DEFINITION. Machine/Operands.lean: the block's arithmetic on operands: the identifier word (41 R130), the splitter's
limits (43 R151), the flash regions (20 R51), and the fields of a request. Address bytes are in Decode.lean. -/

namespace Sys2Proof.Machine

/-- `id = m ++ d`: the manufacturer in bits 15:8 (R59, R130). -/
def packId (m d : Byte) : Word16 := (m ++ d : BitVec (8 + 8))

/-- The room left in the page of `a`: 256 - (a mod 256), 1 to 256 (R151). -/
def firstLimit (a : Addr) : Nat := Config.pageBytes - a.toNat % Config.pageBytes

/-- `(a + n) mod 2^24` (R151, D7). -/
def addrPlus (a : Addr) (n : Nat) : Addr := a + BitVec.ofNat 24 n

/-- A burst descriptor of SPLIT (R151). -/
structure Burst where
  addr : Addr
  off  : Nat
  n    : Nat
deriving DecidableEq, Repr

/-- The loop of SPLIT (R151), with one unit of fuel per byte that remains. -/
def splitLoop : Nat → Addr → Nat → Nat → Nat → List Burst
  | 0, _, _, _, _ => []
  | fuel + 1, a, off, rem, limit =>
    if rem = 0 then []
    else
      let n := min rem limit
      { addr := a, off := off, n := n } :: splitLoop fuel (addrPlus a n) (off + n) (rem - n) Config.pageBytes

/-- SPLIT (R151): the pure burst-descriptor function. -/
def split (a : Addr) (len : Nat) : List Burst := splitLoop len a 0 len (firstLimit a)

/-- The source buffer of a request (R90 `data`). -/
def bufferOf : Instr → List Byte
  | .writeBytes _ _ data => data
  | _ => []

/-- How many bytes an instruction moves at most (R85), for the bound on one step (log 22). -/
def byteCount : Instr → Nat
  | .readBytes _ len => len
  | .writeBytes _ len _ => len
  | .arrayRead _ n => n
  | .arrayReadLowFreq _ n => n
  | .byteOrPageProgram _ data => data.length
  | _ => 0

/-- All entries of the unique-ID buffer, when none is ⊥ (R11, R132). -/
def definedBytes : List (Option Byte) → Option (List Byte)
  | [] => some []
  | some b :: rest => (definedBytes rest).map (b :: ·)
  | none :: _ => none

/-- The device's cell of a flash address (R50, R54, D17): modulo CHIP_BYTES. -/
def cellOf (p : Params) (a : Addr) (i : Nat) : Nat := (a.toNat + i) % p.chipBytes

/-- The first address of the aligned unit of `size` bytes that holds `x` (R51, D16). -/
def unitBase (size x : Nat) : Nat := x / size * size

end Sys2Proof.Machine
end

