-- ==== Sys2Proof/Machine/Ops.lean ====
section
/-! DEFINITION. Machine/Ops.lean: the named operations over the flash array, the model faults and refusals (60 R203,
R204: the block has no other exception, R200, R206), and the draws. -/

namespace Sys2Proof.Machine

/-! ## The flash array (20_memory.md R50, R52) -/

/-- What an unlisted cell reads as: an erased byte (R52); DESIGN CHOICE for the array at power-up (log 12). -/
def Memory.erased : Byte := 0xFF#8

/-- One cell of the array. -/
def Memory.read : List Host.Cell → Nat → Byte
  | [], _ => Memory.erased
  | (k, v) :: rest, a => if k = a then v else Memory.read rest a

/-- Store one cell, keeping the list sorted and free of erased cells. -/
def Memory.write : List Host.Cell → Nat → Byte → List Host.Cell
  | [], a, v => if v = Memory.erased then [] else [(a, v)]
  | (k, w) :: rest, a, v =>
    if a < k then if v = Memory.erased then (k, w) :: rest else (a, v) :: (k, w) :: rest
    else if a = k then if v = Memory.erased then rest else (a, v) :: rest
    else (k, w) :: Memory.write rest a v

/-- Program one cell: `old AND d` (R52). -/
def Memory.program (m : List Host.Cell) (a : Nat) (d : Byte) : List Host.Cell :=
  Memory.write m a (Memory.read m a &&& d)

/-- Erase `size` cells from `base` on: every byte 0xFF (R52, R73). -/
def Memory.erase (m : List Host.Cell) (base size : Nat) : List Host.Cell :=
  m.filter fun c => ! (decide (base ≤ c.1) && decide (c.1 < base + size))

/-- The canonical form: addresses strictly rising, no erased cell listed. -/
abbrev Memory.wf (m : List Host.Cell) : Prop :=
  m.Pairwise (fun c c' => c.1 < c'.1) ∧ ∀ c ∈ m, c.2 ≠ Memory.erased

/-! ## Model faults and refused requests (60_exceptions.md R203-R206) -/

/-- `raise Fault(reason)` (R10, R203): the first reason stays, and nothing else is written (R206). -/
def State.raise (s : State) (r : Fault) : State := { s with fault := s.fault <|> some r }

/-- A refused request (R204): `S.refused <- true`, no bus action, no response, `ctl` stays Idle. -/
def State.refuse (s : State) : State := { s with refused := true }

/-- A `return` (R11, R92): the response goes out on HRSP and `ctl` becomes Idle. -/
def State.respond (s : State) (r : Response) : State := { s with hrsp := s.hrsp ++ [r], ctl := .idle }

/-! ## Draws (D15, D18, D19; log 9, 10) -/

/-- One MISO draw when `b` is sent: the script's next byte, else the free value. Also what is left of the script. -/
def drawMiso (script : List Byte) (tr : List Event) (b : Byte) : Byte × List Byte :=
  match script with
  | r :: rest => (r, rest)
  | [] => (Config.miso tr b, [])

/-- One choice of the device: the script's next, else the free value. Also what is left of the script. -/
def drawChoice (script : List Bool) (tr : List Event) (tag : Nat) : Bool × List Bool :=
  match script with
  | c :: rest => (c, rest)
  | [] => (Config.choice tr tag, [])

end Sys2Proof.Machine
end

