-- ==== Sys2Proof/Machine/Device.lean ====
section
/-! DEFINITION. Machine/Device.lean: the flash device at the other end of the bus: the reference device model of
20_memory.md R68-R77, and the external device of which nothing is assumed (D15). -/

namespace Sys2Proof.Machine

/-- What the device puts on MISO at the next byte: a known byte, a status byte (bit 0 known, R70), or a draw (R77). -/
inductive Reply where
  | byte (b : Byte)
  | status (busy : Bool)
  | draw
deriving DecidableEq, Repr

/-- The thirteen opcodes of 30_encoding.md R81. -/
def knownOpcode (op : Byte) : Bool := (shortestPayload op.toNat).isSome

/-- Opcodes whose bytes 1 to 3 are an address (R82). -/
def takesAddress (op : Byte) : Bool :=
  match op.toNat with
  | 0x0B | 0x03 | 0x02 | 0x20 | 0x52 => true
  | _ => false

/-- The mutating commands (R13, R109). -/
def mutating (op : Byte) : Bool :=
  match op.toNat with
  | 0x01 | 0x02 | 0x20 | 0x52 | 0x60 => true
  | _ => false

/-- Commands that change hidden device state (R70, R72-R74, R76). -/
def effectful (op : Byte) : Bool :=
  match op.toNat with
  | 0x06 | 0xB9 | 0xAB => true
  | _ => mutating op

/-- The open cases of R77, decided at the opcode: an unknown opcode, a command other than STATUS-READ while busy, a
command other than RELEASE-FROM-POWER-DOWN in deep power-down. -/
def Device.openCase (d : Device) (op : Byte) : Bool :=
  !knownOpcode op || (d.busy && op != 0x05#8) || (d.dpd && op != 0xAB#8)

/-- The reference device's answer in a transaction it honours, `k` bytes after `Sel` (R70-R75). -/
def Device.honour (d : Device) (p : Params) (t : Txn) (op : Byte) : Reply :=
  match op.toNat with
  | 0x05 => .status d.busy
  | 0x03 => if 4 ≤ t.count then .byte (Memory.read d.mem (cellOf p t.addr (t.count - 4))) else .draw
  | 0x0B => if 5 ≤ t.count then .byte (Memory.read d.mem (cellOf p t.addr (t.count - 5))) else .draw
  | 0x9F => if t.count = 1 then .byte d.mfr else if t.count = 2 then .byte d.devId else .draw
  | 0x4B => if 5 ≤ t.count then (d.uid[t.count - 5]?).elim .draw .byte else .draw
  | _ => .draw

/-- The device's answer to the next byte (R69-R77; R102). -/
def Device.reply (d : Device) (p : Params) : Reply :=
  match d.model, d.txn with
  | .reference, some t =>
    match t.opcode with
    | some op => if t.free then .draw else d.honour p t op
    | none => .draw
  | _, _ => .draw

/-- The decoder's next state when byte `b` arrives (R68, R69, R71). -/
def Txn.absorb (d : Device) (t : Txn) (b : Byte) : Txn :=
  match t.opcode with
  | none => { t with opcode := some b, count := 1, wel := d.wel, free := d.openCase b }
  | some op =>
    if takesAddress op && decide (t.count ≤ 3) then
      { t with count := t.count + 1, addr := (t.addr <<< 8) ||| b.setWidth 24 }
    else { t with count := t.count + 1, data := t.data ++ [b] }

/-- The device after a byte has been exchanged. -/
def Device.absorb (d : Device) (b : Byte) : Device :=
  match d.model, d.txn with
  | .reference, some t => { d with txn := some (Txn.absorb d t b) }
  | _, _ => d

/-- `Sel` starts a transaction (R69). -/
def Device.select (d : Device) : Device :=
  match d.model with
  | .reference => { d with txn := some { opcode := none, count := 0, addr := 0, data := [], wel := false, free := false } }
  | .external => d

/-- A program burst into the page of `a` (R72): byte `i` and those after it, the address wrapping inside the page. -/
def programPage (base start : Nat) : Nat → List Byte → List Host.Cell → List Host.Cell
  | _, [], m => m
  | i, d :: ds, m =>
    programPage base start (i + 1) ds (Memory.program m (base + (start + i) % Config.pageBytes) d)

/-- The array after a completed internal operation (R72-R74). -/
def DevOp.apply (p : Params) (op : DevOp) (m : List Host.Cell) : List Host.Cell :=
  match op with
  | .program a data =>
    programPage (unitBase Config.pageBytes (cellOf p a 0)) (a.toNat % Config.pageBytes) 0 data m
  | .eraseSector a => Memory.erase m (unitBase Config.sectorBytes (cellOf p a 0)) Config.sectorBytes
  | .eraseBlock a => Memory.erase m (unitBase Config.blockBytes (cellOf p a 0)) Config.blockBytes
  | .eraseChip => Memory.erase m 0 p.chipBytes
  | .statusWrite _ => m

/-- The status register's written bits after a completed operation (R74; log 25). -/
def DevOp.status (op : DevOp) (old : Byte) : Byte :=
  match op with
  | .statusWrite v => v
  | _ => old

/-- The device's own step `Complete` (R69): `PENDING` is applied to `F`, `BUSY <- 0`. -/
def Device.complete (d : Device) (p : Params) : Device :=
  match d.pending with
  | some op =>
    { d with mem := op.apply p d.mem, statusWritten := op.status d.statusWritten, busy := false, pending := none }
  | none => d

/-- An internal operation of the reference device is in progress, so its own step `Complete` may come (R6, R69). -/
def Device.working (d : Device) : Bool :=
  match d.model with
  | .reference => d.pending.isSome
  | .external => false

/-- A mutating command takes effect (R69): `BUSY <- 1`, `PENDING <-` the operation, `WEL <- 0`. An operation still
pending (only in R77's open cases) is finished first (log 14). -/
def Device.start (d : Device) (p : Params) (op : DevOp) : Device :=
  { d.complete p with busy := true, pending := some op, wel := false }

/-- The operation of a mutating transaction (R72-R74); none for any other. -/
def Txn.operation (t : Txn) (op : Byte) : Option DevOp :=
  match op.toNat with
  | 0x01 => t.data.head?.map .statusWrite
  | 0x02 => if burstFits t.data then some (.program t.addr t.data) else none
  | 0x20 => some (.eraseSector t.addr)
  | 0x52 => some (.eraseBlock t.addr)
  | 0x60 => some .eraseChip
  | _ => none

/-- The effect, at its `Unsel`, of a transaction the device honours (R69, R70, R72-R74, R76). DESIGN CHOICE (log 31): entry
into deep power-down and release from it keep the latch, the written status bits and the array (R182 names no state
that survives or is lost). -/
def Device.effect (d : Device) (p : Params) (t : Txn) (op : Byte) : Device :=
  match op.toNat with
  | 0x06 => { d with wel := true }
  | 0xB9 => { d with dpd := true }
  | 0xAB => { d with dpd := false }
  | _ =>
    match t.operation op with
    | some o => if t.wel then d.start p o else d
    | none => d

/-- The effect of an open case (R77): as honoured when the device accepts, else none; the latch after a WRITE-ENABLE
that is an open case is the draw itself (R232; log 14, 15). -/
def Device.openEffect (d : Device) (p : Params) (t : Txn) (op : Byte) (accept : Bool) : Device :=
  if op = 0x06#8 then { d with wel := accept } else if accept then d.effect p t op else d

/-- Does the closing transaction need a choice of the device (R77)? -/
def Device.needsChoice (d : Device) : Bool :=
  match d.txn with
  | some t => t.free && (t.opcode.elim false effectful)
  | none => false

/-- `Unsel` ends the transaction (R69). -/
def Device.close (d : Device) (p : Params) (accept : Bool) : Device :=
  match d.txn with
  | some t =>
    let d' := { d with txn := none }
    match t.opcode with
    | some op => if t.free then d'.openEffect p t op accept else d'.effect p t op
    | none => d'
  | none => d

/-- The device at an `Unsel`, with the choices it draws: the transaction's effect, then `Complete` or not if an
operation is pending (R69, D19; log 13). Also what is left of the script of choices. -/
def Device.unselect (d : Device) (p : Params) (tr : List Event) (script : List Bool) : Device × List Bool :=
  match d.model with
  | .external => (d, script)
  | .reference =>
    let a := if d.needsChoice then drawChoice script tr 0 else (true, script)
    let d1 := d.close p a.1
    if d1.pending.isSome then
      let c := drawChoice a.2 tr 1
      (if c.1 then d1.complete p else d1, c.2)
    else (d1, a.2)

end Sys2Proof.Machine
end

