-- ==== Sys2Proof/Machine/Primitives.lean ====
section
/-! DEFINITION. Machine/Primitives.lean: the bus primitives of 00_scope.md R10, each one atomic step of the sequencer.
Each checks before it writes (60 R206): it answers a fault, or the state after its writes. -/

namespace Sys2Proof.Machine

/-- The writes of SELECT (40 R100), in the source's order. -/
def State.selected (s : State) : State :=
  { s with ie := false, savedCfg := some s.busCfg, busCfg := s.par.flashCfg, csLevel := some false,
           trace := s.trace ++ [.sel], dev := s.dev.select }

/-- SELECT (40 R100). A ⊥ level on a configured pin is an undefined value (I20; log 19). -/
def select (s : State) : Except Fault State :=
  if s.csDir ≠ .output then .error .csNotConfigured
  else
    match s.csLevel with
    | some false => .error .nestedSelect
    | some true => .ok s.selected
    | none => .error .undefinedValue

/-- The writes of UNSELECT (40 R101), with the configuration it restores. -/
def State.unselected (s : State) (c : Cfg) : State :=
  let r := s.dev.unselect s.par s.trace s.choices
  { s with csLevel := some true, busCfg := c, ie := true, trace := s.trace ++ [.unsel], dev := r.1, choices := r.2 }

/-- UNSELECT (40 R101). A ⊥ snapshot is an undefined value (I20; log 19). -/
def unselect (s : State) : Except Fault State :=
  if s.csLevel ≠ some false then .error .unselectWhileDeselected
  else
    match s.savedCfg with
    | some c => .ok (s.unselected c)
    | none => .error .undefinedValue

/-- The byte received when `b` is sent, and what is left of the MISO script (40 R102; R69-R77). -/
def State.answer (s : State) (b : Byte) : Byte × List Byte :=
  match s.dev.reply s.par with
  | .byte r => (r, s.miso)
  | .status busy => ((statusByte busy (drawMiso s.miso s.trace b).1), (drawMiso s.miso s.trace b).2)
  | .draw => drawMiso s.miso s.trace b

/-- The writes of XFER (40 R102). -/
def State.xferred (s : State) (b : Byte) : State :=
  { s with trace := s.trace ++ [.xfer b (s.answer b).1], miso := (s.answer b).2, dev := s.dev.absorb b }

/-- XFER (40 R102): the byte received and the state after. -/
def xfer (b : Byte) (s : State) : Except Fault (Byte × State) :=
  if s.csLevel ≠ some false then .error .xferWhileDeselected else .ok ((s.answer b).1, s.xferred b)

/-- TX (40 R103): XFER with the received byte discarded. -/
def tx (b : Byte) (s : State) : Except Fault State := (xfer b s).map (·.2)

/-- RX (40 R103): XFER of FILL_BYTE. -/
def rx (s : State) : Except Fault (Byte × State) := xfer s.par.fillByte s

/-- The snapshot of initialize (45 R186): `S.saved_cfg <- S.bus_cfg`. -/
def State.cfgSaved (s : State) : State := { s with savedCfg := some s.busCfg, trace := s.trace ++ [.cfgSave] }

/-- PIN_OUTPUT(CS_ID) (45 R186). -/
def State.pinMadeOutput (s : State) : State :=
  { s with csDir := .output, trace := s.trace ++ [.pinOutput s.csId] }

/-- PIN_WRITE(CS_ID, 1) (45 R186). -/
def State.pinMadeHigh (s : State) : State :=
  { s with csLevel := some true, trace := s.trace ++ [.pinWrite s.csId true] }

/-- BUS_END with END's writes (45 R184). -/
def State.busEnded (s : State) : State :=
  { s with busUp := false, phase := .ended, trace := s.trace ++ [.busEnd] }

end Sys2Proof.Machine
end

