-- ==== Sys2Proof/Machine/Sequencer.lean ====
section
/-! DEFINITION. Machine/Sequencer.lean: the sequencer's control (10_state.md R31): one bus primitive or control action
(`seqStep`), a run of them up to the next suspension point (`drain`; log 1), and the admission of a request (60 R204).
The pseudocode fragments shared by the operations stand here too (40 R105-R110). -/

namespace Sys2Proof.Machine

/-! ## Shared pseudocode (40_framing_and_issue.md) -/

/-- The body of the ready-wait loop (R107): BUSY, which is READ_STATUS (R105, R106), then the loop's test. -/
def pollBody : List Micro := [.sel, .tx 0x05#8, .rxPoll, .unsel, .pollTest]

/-- WRITE_ENABLE_TXN (R108). -/
def writeEnableTxn (p : Params) : List Micro :=
  (if p.wePrepoll then [.wait] else []) ++ [.sel, .tx 0x06#8, .unsel]

/-- ISSUE (R110): it ends with the transaction open. -/
def issue (p : Params) (op : Byte) (mutates : Bool) : List Micro :=
  (if mutates then writeEnableTxn p else []) ++ [.wait, .sel, .tx op]

/-- The three address bytes, high byte first (R57). -/
def txAddr (a : Addr) : List Micro := [.tx (addrHigh a), .tx (addrMid a), .tx (addrLow a)]

/-- `n` dummy bytes (R103). -/
def txDummy (p : Params) (n : Nat) : List Micro := List.replicate n (.tx p.fillByte)

/-- `n` receives into the local list (R103). -/
def rxMany (n : Nat) : List Micro := List.replicate n .rx

/-- The eight receives of the unique ID, into the class-level buffer (R132). -/
def rxUidAll : List Micro := [.rxUid 0, .rxUid 1, .rxUid 2, .rxUid 3, .rxUid 4, .rxUid 5, .rxUid 6, .rxUid 7]

/-- READ_DEVICE_ID without its return (R130). -/
def readIdTxn : List Micro := [.sel, .tx 0x9F#8, .rx, .rx, .unsel]

/-- One burst of `n` bytes in WRITE_BYTES (R152). -/
def burstBody (p : Params) (n : Nat) : List Micro :=
  issue p 0x02#8 true ++ [.txWbHigh, .txWbMid, .txWbLow] ++ (List.range n).map .txBuf ++ [.unsel, .wbNext n]

/-! ## One position of the pseudocode -/

/-- The response of a `return` (R92); none when it would carry a ⊥ (R11). -/
def responseOf (k : Ret) (got : List Byte) (uid : List (Option Byte)) : Option Response :=
  match k with
  | .none => some .none
  | .byte => got.head?.map .byte
  | .busy => got.head?.map fun b => .bool (busyOf b)
  | .word =>
    match got with
    | m :: d :: _ => some (.word (packId m d))
    | _ => none
  | .bytes => some (.bytes got)
  | .uid => (definedBytes uid).map .uid
  | .bool t => some (.bool t)

/-- Go on at control position `c` after a primitive, or stop in the fault it raised, `ctl` where it was (R206). -/
def State.goOn (s : State) (c : Ctl) : Except Fault State → State
  | .ok s' => { s' with ctl := c }
  | .error r => s.raise r

/-- TX of a byte that may be ⊥ (R11). DESIGN CHOICE (log 32): the ⊥ is found before XFER's own check, so it is raised also
when the line is not low. -/
def txDefined (b : Option Byte) (s : State) : Except Fault State :=
  match b with
  | some v => tx v s
  | none => .error .undefinedValue

/-- The source byte `data[S.wb_off + i]` (R152). -/
def State.bufferByte (s : State) (req : Instr) (i : Nat) : Option Byte :=
  match s.wbOff with
  | some off => (bufferOf req)[off + i]?
  | none => none

/-- `while S.wb_rem > 0` (R152): the loop's body for the next burst and the loop again, or what follows the loop. -/
def State.burstLoop (s : State) (ms : List Micro) : Option (List Micro) :=
  match s.wbRem, s.wbLimit with
  | some rem, some limit =>
    if rem = 0 then some ms else some (burstBody s.par (min rem limit) ++ .burst :: ms)
  | _, _ => none

/-- The register updates at the end of a burst (R152). -/
def State.wbAdvance (s : State) (n : Nat) : State :=
  { s with wbAddr := s.wbAddr.map (addrPlus · n), wbOff := s.wbOff.map (· + n), wbRem := s.wbRem.map (· - n),
           wbLimit := some Config.pageBytes }

/-- Perform position `m` of the active request `req`, of which `ms` is left after it (R31). -/
def microStep (req : Instr) (m : Micro) (ms : List Micro) (got : List Byte) (poll : Option Byte) (s : State) : State :=
  let next : Ctl := .active req ms got poll
  match m with
  | .sel => s.goOn next (select s)
  | .unsel => s.goOn next (unselect s)
  | .tx b => s.goOn next (tx b s)
  | .txWbHigh => s.goOn next (txDefined (s.wbAddr.map addrHigh) s)
  | .txWbMid => s.goOn next (txDefined (s.wbAddr.map addrMid) s)
  | .txWbLow => s.goOn next (txDefined (s.wbAddr.map addrLow) s)
  | .txBuf i => s.goOn next (txDefined (s.bufferByte req i) s)
  | .rx =>
    match rx s with
    | .ok r => { r.2 with ctl := .active req ms (got ++ [r.1]) poll }
    | .error f => s.raise f
  | .rxUid i =>
    match rx s with
    | .ok r => { r.2 with uidBuf := r.2.uidBuf.set i (some r.1), ctl := next }
    | .error f => s.raise f
  | .rxPoll =>
    match rx s with
    | .ok r => { r.2 with ctl := .active req ms got (some r.1) }
    | .error f => s.raise f
  | .wait => { s with ctl := .active req (pollBody ++ ms) got poll }
  | .waitAgain => { s with ctl := .active req (pollBody ++ ms) got poll }
  | .pollTest =>
    match poll with
    | some b => { s with ctl := .active req (if busyOf b then .waitAgain :: ms else ms) got poll }
    | none => s.raise .undefinedValue
  | .wbInit a len =>
    { s with wbAddr := some a, wbOff := some 0, wbRem := some len, wbLimit := some (firstLimit a), ctl := next }
  | .burst =>
    match s.burstLoop ms with
    | some todo => { s with ctl := .active req todo got poll }
    | none => s.raise .undefinedValue
  | .wbNext n => { s.wbAdvance n with ctl := next }
  | .wbClear => { s with wbAddr := none, wbOff := none, wbRem := none, wbLimit := none, ctl := next }
  | .cfgSave => { s.cfgSaved with ctl := next }
  | .pinOutput => { s.pinMadeOutput with ctl := next }
  | .pinHigh => { s.pinMadeHigh with ctl := next }
  | .setInitialized => { s with phase := .initialized, ctl := next }
  | .probe =>
    { s with ctl := .active req (if s.expectedId = 0 then ms else readIdTxn ++ .idTest :: ms) got poll }
  | .idTest =>
    match got with
    | m :: d :: _ =>
      { s with ctl := .active req (if packId m d = s.expectedId then ms else [.ret (.bool false)]) got poll }
    | _ => s.raise .undefinedValue
  | .busEnd => { s.busEnded with ctl := next }
  | .ret k =>
    match responseOf k got s.uidBuf.toList with
    | some r => s.respond r
    | none => s.raise .undefinedValue

/-- One step of the sequencer agent (R31): one bus primitive, or one control action between primitives (log 28). -/
def seqStep (s : State) : State :=
  match s.ctl with
  | .idle => s
  | .active _ [] _ _ => { s with ctl := .idle }
  | .active req (m :: ms) got poll => microStep req m ms got poll s

/-! ## Runs of the sequencer -/

/-- The sequencer is at rest: no request active, a fault raised (R203), or suspended in a ready-wait after a poll that
read busy (R112). -/
def State.settled (s : State) : Bool :=
  s.fault.isSome ||
    match s.ctl with
    | .idle => true
    | .active _ (.waitAgain :: _) _ _ => true
    | _ => false

/-- At least one and at most `n` steps of the sequencer, up to the next settled state (log 1). -/
def drain : Nat → State → State
  | 0, s => s
  | n + 1, s => if (seqStep s).settled then seqStep s else drain n (seqStep s)

/-- A bound on the sequencer steps between two settled states of an instruction (log 22). -/
def fuelOf (i : Instr) : Nat := 64 + 32 * byteCount i

/-- Control enters the pseudocode of `i` (R31). -/
def State.begin (s : State) (i : Instr) (prog : List Micro) : State :=
  { s with ctl := .active i prog [] none }

/-! ## Admission (60_exceptions.md R204) -/

/-- Condition (c): `Constructed` admits only initialize, `Initialized` all fifteen operations, `Ended` none. -/
def phaseAdmits (ph : Phase) (i : Instr) : Bool :=
  match ph with
  | .constructed =>
    match i with
    | .initializeOp => true
    | _ => false
  | .initialized => true
  | .ended => false

/-- Condition (d): `opsel ≠ 0xF`. -/
def opselAdmits : Instr → Bool
  | .reserved => false
  | _ => true

/-- Condition (e): for writeBytes, `len(data) = len`. -/
def lengthAdmits : Instr → Bool
  | .writeBytes _ len data => data.length == len
  | _ => true

/-- Conditions (b) to (e), in order (R205). -/
def admits (s : State) (i : Instr) : Bool :=
  s.busUp && phaseAdmits s.phase i && opselAdmits i && lengthAdmits i

/-- What every meaning begins with: a faulted state takes no step (R203), and a request has no move while another is
active (R204 (a), R209). -/
def whenIdle (s : State) (k : Host.Outcome State Fault Refusal) : Host.Outcome State Fault Refusal :=
  match s.fault with
  | some r => .fault r
  | none =>
    match s.ctl with
    | .active _ _ _ _ => .refused .requestWhileActive
    | .idle => k

/-- A host request whose pseudocode is `prog` (R204): admitted, it runs up to its return or its first ready-wait that
reads busy (log 1); refused, it only sets `refused`. -/
def hostRequest (i : Instr) (prog : List Micro) (s : State) : Host.Outcome State Fault Refusal :=
  whenIdle s (.next (if admits s i then drain (fuelOf i) (s.begin i prog) else s.refuse))

/-- One hand-built wire transaction (R80; log 3): no admission and no ready-wait, the primitives' own checks only. -/
def wireTransaction (i : Instr) (prog : List Micro) (s : State) : Host.Outcome State Fault Refusal :=
  whenIdle s (.next (drain (fuelOf i) (s.begin i prog)))

end Sys2Proof.Machine
end

