-- ==== Sys2Proof/Machine/Erase.lean ====
section
/-! DEFINITION. Machine/Erase.lean: the erase path (44_erase.md R170-R172). The address goes out unaligned. -/

namespace Sys2Proof.Machine

/-- ERASE_4K (R170). -/
def progEraseBlock4K (p : Params) (a : Addr) : List Micro :=
  issue p 0x20#8 true ++ txAddr a ++ [.unsel, .ret .none]

/-- ERASE_32K (R171). -/
def progEraseBlock32K (p : Params) (a : Addr) : List Micro :=
  issue p 0x52#8 true ++ txAddr a ++ [.unsel, .ret .none]

/-- CHIP_ERASE (R172): no address. -/
def progChipErase (p : Params) : List Micro := issue p 0x60#8 true ++ [.unsel, .ret .none]

/-- OPSEL 0x8 eraseBlock4K (R170). -/
def execEraseBlock4K (a : Addr) (s : State) : Host.Outcome State Fault Refusal :=
  hostRequest (.eraseBlock4K a) (progEraseBlock4K s.par a) s

/-- OPSEL 0x9 eraseBlock32K (R171). -/
def execEraseBlock32K (a : Addr) (s : State) : Host.Outcome State Fault Refusal :=
  hostRequest (.eraseBlock32K a) (progEraseBlock32K s.par a) s

/-- OPSEL 0xA chipErase (R172). -/
def execChipErase (s : State) : Host.Outcome State Fault Refusal :=
  hostRequest .chipErase (progChipErase s.par) s

end Sys2Proof.Machine
end

