-- ==== Sys2Proof/Machine/Identify.lean ====
section
/-! DEFINITION. Machine/Identify.lean: the status reads (40 R105, R106) and the identification operations
(41_identification.md R130, R132). -/

namespace Sys2Proof.Machine

/-- READ_STATUS (R105): a direct command, no ready-wait. -/
def progReadStatus : List Micro := [.sel, .tx 0x05#8, .rx, .unsel, .ret .byte]

/-- BUSY (R106): READ_STATUS, then BUSY_OF. -/
def progBusy : List Micro := [.sel, .tx 0x05#8, .rx, .unsel, .ret .busy]

/-- READ_DEVICE_ID (R130): a direct command, no ready-wait. -/
def progReadDeviceId : List Micro := readIdTxn ++ [.ret .word]

/-- READ_UNIQUE_ID (R132). -/
def progReadUniqueId (p : Params) : List Micro :=
  issue p 0x4B#8 false ++ txDummy p 4 ++ rxUidAll ++ [.unsel, .ret .uid]

/-- OPSEL 0x0 readStatus (R105). -/
def execReadStatus (s : State) : Host.Outcome State Fault Refusal :=
  hostRequest .readStatus progReadStatus s

/-- OPSEL 0x1 busy (R106). -/
def execBusy (s : State) : Host.Outcome State Fault Refusal :=
  hostRequest .busy progBusy s

/-- OPSEL 0x2 readDeviceId (R130). -/
def execReadDeviceId (s : State) : Host.Outcome State Fault Refusal :=
  hostRequest .readDeviceId progReadDeviceId s

/-- OPSEL 0x3 readUniqueId (R132). -/
def execReadUniqueId (s : State) : Host.Outcome State Fault Refusal :=
  hostRequest .readUniqueId (progReadUniqueId s.par) s

end Sys2Proof.Machine
end

