-- ==== Sys2Proof/Machine/Power.lean ====
section
/-! DEFINITION. Machine/Power.lean: power and lifecycle (45_power_and_lifecycle.md R180-R186), the reserved OPSEL
(60 R204 (d)) and the host action BusBegin (R185). -/

namespace Sys2Proof.Machine

/-- SLEEP (R180). -/
def progSleep (p : Params) : List Micro := issue p 0xB9#8 false ++ [.unsel, .ret .none]

/-- WAKEUP without its return (R181), as initialize calls it too (R186). -/
def wakeupBody (p : Params) : List Micro := issue p 0xAB#8 false ++ [.unsel]

/-- WAKEUP (R181). -/
def progWakeup (p : Params) : List Micro := wakeupBody p ++ [.ret .none]

/-- END (R184): no wire transaction. -/
def progEnd : List Micro := [.busEnd, .ret .none]

/-- The global unprotect of initialize and its success return (R186). -/
def unprotectBody (p : Params) : List Micro :=
  issue p 0x01#8 true ++ [.tx 0x00#8, .unsel, .ret (.bool true)]

/-- INITIALIZE (R186). -/
def progInitialize (p : Params) : List Micro :=
  [.cfgSave, .pinOutput, .pinHigh, .setInitialized] ++ wakeupBody p ++ .probe :: unprotectBody p

/-- OPSEL 0xB sleep (R180). -/
def execSleep (s : State) : Host.Outcome State Fault Refusal :=
  hostRequest .sleep (progSleep s.par) s

/-- OPSEL 0xC wakeup (R181). -/
def execWakeup (s : State) : Host.Outcome State Fault Refusal :=
  hostRequest .wakeup (progWakeup s.par) s

/-- OPSEL 0xD end (R184). -/
def execEnd (s : State) : Host.Outcome State Fault Refusal :=
  hostRequest .endOp progEnd s

/-- OPSEL 0xE initialize (R186). -/
def execInitialize (s : State) : Host.Outcome State Fault Refusal :=
  hostRequest .initializeOp (progInitialize s.par) s

/-- OPSEL 0xF (R91, R204 (d)): never admitted, so it only sets `refused`. -/
def execReserved (s : State) : Host.Outcome State Fault Refusal :=
  hostRequest .reserved [.ret .none] s

/-- BusBegin (R185). -/
def State.busBegun (s : State) : State :=
  { s with
    busUp := true
    phase :=
      match s.phase with
      | .ended => if s.csDir = .output then .initialized else .constructed
      | ph => ph }

end Sys2Proof.Machine
end

