-- ==== Sys2Proof/Machine/Program.lean ====
section
/-! DEFINITION. Machine/Program.lean: the program path and the burst splitter's loop (43_program.md R150, R152). -/

namespace Sys2Proof.Machine

/-- WRITE_BYTE (R150). -/
def progWriteByte (p : Params) (a : Addr) (v : Byte) : List Micro :=
  issue p 0x02#8 true ++ txAddr a ++ [.tx v, .unsel, .ret .none]

/-- WRITE_BYTES (R152): the loop over the splitter registers. -/
def progWriteBytes (a : Addr) (len : Nat) : List Micro := [.wbInit a len, .burst, .wbClear, .ret .none]

/-- OPSEL 0x6 writeByte (R150). -/
def execWriteByte (a : Addr) (v : Byte) (s : State) : Host.Outcome State Fault Refusal :=
  hostRequest (.writeByte a v) (progWriteByte s.par a v) s

/-- OPSEL 0x7 writeBytes (R152). -/
def execWriteBytes (a : Addr) (len : Nat) (data : List Byte) (s : State) : Host.Outcome State Fault Refusal :=
  hostRequest (.writeBytes a len data) (progWriteBytes a len) s

end Sys2Proof.Machine
end

