-- ==== Sys2Proof/Machine/Read.lean ====
section
/-! DEFINITION. Machine/Read.lean: the read path (42_read.md R140, R141). -/

namespace Sys2Proof.Machine

/-- READ_BYTE (R140): always opcode 0x03 (I1). -/
def progReadByte (p : Params) (a : Addr) : List Micro :=
  issue p 0x03#8 false ++ txAddr a ++ [.rx, .unsel, .ret .byte]

/-- READ_BYTES (R141): opcode 0x0B with one dummy byte, also for `len = 0` (D13). -/
def progReadBytes (p : Params) (a : Addr) (len : Nat) : List Micro :=
  issue p 0x0B#8 false ++ txAddr a ++ txDummy p 1 ++ rxMany len ++ [.unsel, .ret .bytes]

/-- OPSEL 0x4 readByte (R140). -/
def execReadByte (a : Addr) (s : State) : Host.Outcome State Fault Refusal :=
  hostRequest (.readByte a) (progReadByte s.par a) s

/-- OPSEL 0x5 readBytes (R141). -/
def execReadBytes (a : Addr) (len : Nat) (s : State) : Host.Outcome State Fault Refusal :=
  hostRequest (.readBytes a len) (progReadBytes s.par a len) s

end Sys2Proof.Machine
end

