-- ==== Sys2Proof/Machine/Wire.lean ====
section
/-! DEFINITION. Machine/Wire.lean: the thirteen wire commands (30_encoding.md R81), each one framed transaction in its
format (R82). What the device does is Machine/Device.lean (20_memory.md R69-R77). -/

namespace Sys2Proof.Machine

/-- WRITE-ENABLE 0x06, W-NONE (R81, R70). -/
def execWriteEnable (s : State) : Host.Outcome State Fault Refusal :=
  wireTransaction .writeEnable [.sel, .tx 0x06#8, .unsel, .ret .none] s

/-- STATUS-READ 0x05, W-R1: the status byte (R81, R84, R70). -/
def execStatusRead (s : State) : Host.Outcome State Fault Refusal :=
  wireTransaction .statusRead [.sel, .tx 0x05#8, .rx, .unsel, .ret .byte] s

/-- STATUS-WRITE 0x01, W-W1 (R81, R74). -/
def execStatusWrite (v : Byte) (s : State) : Host.Outcome State Fault Refusal :=
  wireTransaction (.statusWrite v) [.sel, .tx 0x01#8, .tx v, .unsel, .ret .none] s

/-- ARRAY-READ 0x0B, W-ADRN (R81, R71). -/
def execArrayRead (a : Addr) (n : Nat) (s : State) : Host.Outcome State Fault Refusal :=
  wireTransaction (.arrayRead a n)
    ([.sel, .tx 0x0B#8] ++ txAddr a ++ txDummy s.par 1 ++ rxMany n ++ [.unsel, .ret .bytes]) s

/-- ARRAY-READ-LOW-FREQ 0x03, W-ARN (R81, R71). -/
def execArrayReadLowFreq (a : Addr) (n : Nat) (s : State) : Host.Outcome State Fault Refusal :=
  wireTransaction (.arrayReadLowFreq a n)
    ([.sel, .tx 0x03#8] ++ txAddr a ++ rxMany n ++ [.unsel, .ret .bytes]) s

/-- BYTE-OR-PAGE-PROGRAM 0x02, W-AWM (R81, R72). A burst of 0 or more than 256 bytes has no meaning (D33). -/
def execByteOrPageProgram (a : Addr) (data : List Byte) (s : State) : Host.Outcome State Fault Refusal :=
  if burstFits data then
    wireTransaction (.byteOrPageProgram a data)
      ([.sel, .tx 0x02#8] ++ txAddr a ++ data.map .tx ++ [.unsel, .ret .none]) s
  else .refused .burstSizeUndefined

/-- BLOCK-ERASE-4K 0x20, W-A (R81, R73). -/
def execBlockErase4K (a : Addr) (s : State) : Host.Outcome State Fault Refusal :=
  wireTransaction (.blockErase4K a) ([.sel, .tx 0x20#8] ++ txAddr a ++ [.unsel, .ret .none]) s

/-- BLOCK-ERASE-32K 0x52, W-A (R81, R73). -/
def execBlockErase32K (a : Addr) (s : State) : Host.Outcome State Fault Refusal :=
  wireTransaction (.blockErase32K a) ([.sel, .tx 0x52#8] ++ txAddr a ++ [.unsel, .ret .none]) s

/-- CHIP-ERASE 0x60, W-NONE (R81, R73). -/
def execChipEraseCmd (s : State) : Host.Outcome State Fault Refusal :=
  wireTransaction .chipEraseCmd [.sel, .tx 0x60#8, .unsel, .ret .none] s

/-- JEDEC-ID 0x9F, W-R2: the identifier word (R81, R84, R75). -/
def execJedecId (s : State) : Host.Outcome State Fault Refusal :=
  wireTransaction .jedecId (readIdTxn ++ [.ret .word]) s

/-- UNIQUE-ID 0x4B, W-D4R8: eight bytes into `uid_buf` (R81, R84, R75). -/
def execUniqueId (s : State) : Host.Outcome State Fault Refusal :=
  wireTransaction .uniqueId ([.sel, .tx 0x4B#8] ++ txDummy s.par 4 ++ rxUidAll ++ [.unsel, .ret .uid]) s

/-- DEEP-POWER-DOWN 0xB9, W-NONE (R81, R76). -/
def execDeepPowerDown (s : State) : Host.Outcome State Fault Refusal :=
  wireTransaction .deepPowerDown [.sel, .tx 0xB9#8, .unsel, .ret .none] s

/-- RELEASE-FROM-POWER-DOWN 0xAB, W-NONE (R81, R76). -/
def execReleaseFromPowerDown (s : State) : Host.Outcome State Fault Refusal :=
  wireTransaction .releaseFromPowerDown [.sel, .tx 0xAB#8, .unsel, .ret .none] s

end Sys2Proof.Machine
end

