-- ==== Sys2Proof/Machine/Dispatch.lean ====
section
/-! DEFINITION. Machine/Dispatch.lean: one arm per constructor of Instr. -/

namespace Sys2Proof.Machine

def exec (i : Instr) (s : State) : Host.Outcome State Fault Refusal :=
  match i with
  | .writeEnable => Sys2Proof.Machine.execWriteEnable s
  | .statusRead => Sys2Proof.Machine.execStatusRead s
  | .statusWrite v => Sys2Proof.Machine.execStatusWrite v s
  | .arrayRead a n => Sys2Proof.Machine.execArrayRead a n s
  | .arrayReadLowFreq a n => Sys2Proof.Machine.execArrayReadLowFreq a n s
  | .byteOrPageProgram a data => Sys2Proof.Machine.execByteOrPageProgram a data s
  | .blockErase4K a => Sys2Proof.Machine.execBlockErase4K a s
  | .blockErase32K a => Sys2Proof.Machine.execBlockErase32K a s
  | .chipEraseCmd => Sys2Proof.Machine.execChipEraseCmd s
  | .jedecId => Sys2Proof.Machine.execJedecId s
  | .uniqueId => Sys2Proof.Machine.execUniqueId s
  | .deepPowerDown => Sys2Proof.Machine.execDeepPowerDown s
  | .releaseFromPowerDown => Sys2Proof.Machine.execReleaseFromPowerDown s
  | .readStatus => Sys2Proof.Machine.execReadStatus s
  | .busy => Sys2Proof.Machine.execBusy s
  | .readDeviceId => Sys2Proof.Machine.execReadDeviceId s
  | .readUniqueId => Sys2Proof.Machine.execReadUniqueId s
  | .readByte a => Sys2Proof.Machine.execReadByte a s
  | .readBytes a len => Sys2Proof.Machine.execReadBytes a len s
  | .writeByte a v => Sys2Proof.Machine.execWriteByte a v s
  | .writeBytes a len data => Sys2Proof.Machine.execWriteBytes a len data s
  | .eraseBlock4K a => Sys2Proof.Machine.execEraseBlock4K a s
  | .eraseBlock32K a => Sys2Proof.Machine.execEraseBlock32K a s
  | .chipErase => Sys2Proof.Machine.execChipErase s
  | .sleep => Sys2Proof.Machine.execSleep s
  | .wakeup => Sys2Proof.Machine.execWakeup s
  | .endOp => Sys2Proof.Machine.execEnd s
  | .initializeOp => Sys2Proof.Machine.execInitialize s
  | .reserved => Sys2Proof.Machine.execReserved s

end Sys2Proof.Machine
end

