-- ==== Sys2Proof/Machine/Fetch.lean ====
section
/-! DEFINITION. Machine/Fetch.lean: what the host's next move does (00_scope.md R6; log 2), the resumption of a
request suspended in a ready-wait (40 R107, R112), and the device's own step (R6, 20 R69). -/

namespace Sys2Proof.Machine

/-- The fetched form decoded and run, or refused by name. -/
def runEncoded (e : Encoded) (s : State) : Host.Outcome State Fault Refusal :=
  match decode s.par e with
  | .ok i => exec i s
  | .error _ =>
    match e with
    | .request _ => .refused .noSuchRequest
    | .wire _ => .refused .noSuchTransaction

/-- A request of another handle, with its effect on what the handles share (R133, R213, D27). DESIGN CHOICE (log 24):
R204 (b) holds of every handle, so with the shared bus down the other handle refuses it, which changes nothing here.
Without another handle there is no such move. -/
def otherRequest (effect : State → State) (s : State) : Host.Outcome State Fault Refusal :=
  if 1 < s.par.nHandles then .next (if s.busUp then effect s else s) else .refused .noOtherHandle

/-- Another handle's readUniqueId (R133, D27): the shared buffer is overwritten, and its UNSELECTs leave `ie = 1` (R26).
With the bus down it is refused (log 24). -/
def otherUniqueId (uid : Vector Byte 8) (s : State) : Host.Outcome State Fault Refusal :=
  otherRequest (fun s => { s with uidBuf := uid.map some, ie := true }) s

/-- Another handle's end (R184, R213, D27): the shared bus is released; that handle's phase and trace are its own. -/
def otherEnd (s : State) : Host.Outcome State Fault Refusal :=
  otherRequest (fun s => { s with busUp := false }) s

/-- One move of the host, made while `ctl = Idle`. -/
def hostMove (m : HostMove) (s : State) : Host.Outcome State Fault Refusal :=
  match m with
  | .issue e => runEncoded e s
  | .busBegin => .next s.busBegun
  | .setIe on => .next { s with ie := on }
  | .setBusCfg c => .next { s with busCfg := c }
  | .otherUniqueId uid => otherUniqueId uid s
  | .otherEnd => otherEnd s

/-- The active request goes on (R31, R107) up to its return or its next poll that reads busy (log 1). -/
def resume (req : Instr) (s : State) : State := drain (fuelOf req) s

/-! ## The device's own step (R6, R69, D1) -/

/-- The device's turn is its step `Complete`: a choice drawn while an operation is in progress (D19; log 10, 13). -/
def State.completes (s : State) : Bool := s.dev.working && (drawChoice s.choices s.trace (2 + s.turns)).1

/-- The state with that choice drawn. -/
def State.drawn (s : State) : State :=
  { s with choices := if s.dev.working then (drawChoice s.choices s.trace (2 + s.turns)).2 else s.choices,
           turns := if s.dev.working then s.turns + 1 else s.turns }

/-- The device's own step (R69): `PENDING` is applied to `F`, `BUSY <- 0`; no bus primitive, no event. -/
def State.completed (s : State) : State := { s.drawn with dev := s.dev.complete s.par }

/-- A step in which the device may act: its own step `Complete`, or else that of the other agents (R6). -/
def deviceTurn (others : State → Host.Outcome State Fault Refusal) (s : State) : Host.Outcome State Fault Refusal :=
  if s.completes then .next s.completed else others s.drawn

/-- The step of the other agents: an active request goes on (R31); an idle block takes the host's next move, and without
one stays as it is (log 21). -/
def othersStep (s : State) : Host.Outcome State Fault Refusal :=
  match s.ctl with
  | .active req _ _ _ => .next (resume req s)
  | .idle =>
    match s.hreq with
    | [] => .next s
    | m :: rest => hostMove m { s with hreq := rest }

/-- The choices that make the next step a fetch: in the device's turn before it, the device does not act (log 5). -/
def fetchChoices (s : State) : List Bool := if s.dev.working then false :: s.choices else s.choices

/-- The move that `withFetchWord` puts first (log 5): the encoded form of the row's instruction, or of the bits as they
stand. -/
def fetchMoveOf (p : Params) (nbits w : Nat) : HostMove :=
  match decodeTableWord nbits w with
  | some i => .issue (encode p i)
  | none => .issue (.wire [BitVec.ofNat 8 w])

end Sys2Proof.Machine
end

