-- ==== Sys2Proof/Machine/Step.lean ====
section
/-! DEFINITION. Machine/Step.lean: one step of the machine. A faulted state takes none (60 R203). At a point of rest, in
whatever phase, the device may take its own step (R6, R69); else an active request goes on, or an idle block takes the
host's next move. -/

namespace Sys2Proof.Machine

/-- One step. At a position between the primitives of one run, where no step ends (log 22), the request goes on at once:
the device's step there is drawn at the run's `Unsel`s (log 13). -/
def step (s : State) : Host.Outcome State Fault Refusal :=
  match s.fault with
  | some r => .fault r
  | none => if s.settled then deviceTurn othersStep s else othersStep s

/-- `s`, idle, with the instruction of the given table bits as the host's very next move (log 5). -/
def State.withFetchWord (s : State) (nbits w : Nat) : State :=
  { s with ctl := .idle, hreq := fetchMoveOf s.par nbits w :: s.hreq, choices := fetchChoices s }

end Sys2Proof.Machine
end

