-- ==== Sys2Proof/Safety.lean ====
section
/-! DEFINITION. Safety.lean: what counts as a well-formed state and as a safe run, and the terms statements use: whole
transactions (00_scope.md R13), the discipline of the trace (40 R104, R111), and the invariant that carries it. -/

namespace Sys2Proof.Machine

/-! ## Whole transactions (R13, R80) -/

/-- The state after the bytes `mosi` are exchanged one by one (R102). -/
def State.sent (s : State) : List Byte → State
  | [] => s
  | b :: bs => (s.xferred b).sent bs

/-- The MISO bytes of that exchange. -/
def State.heard (s : State) : List Byte → List Byte
  | [] => []
  | b :: bs => (s.answer b).1 :: (s.xferred b).heard bs

/-- The state after one framed transaction with MOSI bytes `mosi`: SELECT, the exchanges, UNSELECT (R80, R100-R102). -/
def State.transacted (s : State) (mosi : List Byte) : State := (s.selected.sent mosi).unselected s.busCfg

/-- The MISO bytes of that transaction. -/
def State.heardIn (s : State) (mosi : List Byte) : List Byte := s.selected.heard mosi

/-- The MOSI bytes of a STATUS-READ transaction (R105). -/
def State.pollBytes (s : State) : List Byte := [0x05#8, s.par.fillByte]

/-- The state after one iteration of a ready-wait (R107). -/
def State.polled (s : State) : State := s.transacted s.pollBytes

/-- The status byte of that iteration (R105). -/
def State.pollByte (s : State) : Byte := (s.heardIn s.pollBytes).getLast?.getD 0

/-- The next poll reads ready (R35, R107). -/
def State.pollsReady (s : State) : Prop := busyOf s.pollByte = false

/-- The state after WRITE_ENABLE_TXN whose ready-wait, if it has one, ends at its first poll (R108). -/
def State.writeEnabled (s : State) : State :=
  (if s.par.wePrepoll then s.polled else s).transacted [0x06#8]

/-- WRITE_ENABLE_TXN's ready-wait, if it has one, ends at its first poll (R108). -/
def State.prepollReady (s : State) : Prop := s.par.wePrepoll = true → s.pollsReady

/-- The state before the opcode of a mutating ISSUE whose ready-waits end at their first poll (R110). -/
def State.mutatingIssued (s : State) : State := s.writeEnabled.polled

/-- The ready-waits of a mutating ISSUE end at their first poll (R110). -/
def State.mutatingReady (s : State) : Prop := s.prepollReady ∧ s.writeEnabled.pollsReady

/-- The MOSI bytes of one program burst of a source buffer (R82, R152). -/
def burstBytes (data : List Byte) (b : Burst) : List Byte :=
  0x02#8 :: addrBytes b.addr ++ (data.drop b.off).take b.n

/-- The state after a list of bursts, each a mutating ISSUE of its own, whose ready-waits end at their first poll
(R152). -/
def State.bursted (s : State) (data : List Byte) : List Burst → State
  | [] => s
  | b :: bs => (s.mutatingIssued.transacted (burstBytes data b)).bursted data bs

/-- Every ready-wait of those bursts ends at its first poll (R152). -/
def State.burstsReady (s : State) (data : List Byte) : List Burst → Prop
  | [] => True
  | b :: bs => s.mutatingReady ∧ (s.mutatingIssued.transacted (burstBytes data b)).burstsReady data bs

/-! ## Ready-waits that poll busy any finite number of times (R107, R246) -/

/-- The state after the device's turn: its own step, or the choice against it (R6, R69). -/
def State.turned (s : State) : State :=
  { s.drawn with dev := if s.completes then s.dev.complete s.par else s.dev }

/-- The state before the next iteration of a ready-wait that read busy: the poll, then the device's turn (R107, R69). -/
def State.again (s : State) : State := s.polled.turned

/-- A ready-wait that begins here reads busy `k` times and then ready (R107). -/
def State.waits (s : State) (k : Nat) : Prop :=
  (∀ j < k, busyOf (State.again^[j] s).pollByte = true) ∧ busyOf (State.again^[k] s).pollByte = false

/-- The state after that ready-wait: `k + 1` STATUS-READ transactions, and between them the device's turns (R107). -/
def State.waited (s : State) (k : Nat) : State := (State.again^[k] s).polled

/-- The state after WRITE_ENABLE_TXN whose ready-wait, if it has one, reads busy `k` times (R108). -/
def State.writeEnabledAfter (s : State) (k : Nat) : State :=
  (if s.par.wePrepoll then s.waited k else s).transacted [0x06#8]

/-- The ready-waits of a mutating ISSUE read busy `k.1` times before WRITE-ENABLE, if there is one there, and `k.2` times
after it (R108, R110). -/
def State.mutatingWaits (s : State) (k : Nat × Nat) : Prop :=
  (s.par.wePrepoll = true → s.waits k.1) ∧ (s.writeEnabledAfter k.1).waits k.2

/-- The state before the opcode of that mutating ISSUE (R110). -/
def State.mutatingAfter (s : State) (k : Nat × Nat) : State := (s.writeEnabledAfter k.1).waited k.2

/-- The ready-waits of a list of bursts, each a mutating ISSUE of its own, read busy as often as `ks` says (R152). -/
def State.burstsWait (s : State) (data : List Byte) : List Burst → List (Nat × Nat) → Prop
  | [], [] => True
  | b :: bs, k :: ks =>
    s.mutatingWaits k ∧ ((s.mutatingAfter k).transacted (burstBytes data b)).burstsWait data bs ks
  | _, _ => False

/-- The state after those bursts (R152). -/
def State.burstedAfter (s : State) (data : List Byte) : List Burst → List (Nat × Nat) → State
  | b :: bs, k :: ks => ((s.mutatingAfter k).transacted (burstBytes data b)).burstedAfter data bs ks
  | _, _ => s

/-! ## Requests that go on over several steps (R31, R112; log 1) -/

/-- `u` is `t`, or a state that further steps of the request active in `t` lead to. -/
inductive RunsOn : State → State → Prop where
  | here (t : State) : RunsOn t t
  | further {t u v : State} : t.ctl ≠ .idle → step t = .next u → RunsOn u v → RunsOn t v

/-- Running `i` from `s` leads to `u`: what exec answers, or a state that later steps of the suspended request lead to. -/
def Reaches (i : Instr) (s u : State) : Prop := ∃ t, exec i s = .next t ∧ RunsOn t u

/-- Running `i` from `s` ends in the idle state `u`. -/
def Completes (i : Instr) (s u : State) : Prop := Reaches i s u ∧ u.ctl = .idle

/-! ## The stages of initialize (R186), and a device that has taken up an operation (R69) -/

/-- The state of initialize before its wakeup (R186). -/
def initializeEntered (s : State) : State :=
  { s with savedCfg := some s.busCfg, csDir := .output, csLevel := some true, phase := .initialized,
           trace := s.trace ++ [.cfgSave, .pinOutput s.csId, .pinWrite s.csId true] }

/-- The state of initialize after its wakeup (R186). -/
def initializeAwake (s : State) : State := (initializeEntered s).polled.transacted [0xAB#8]

/-- The same when the wakeup's ready-wait reads busy `k` times (R181, R186). -/
def initializeAwakeAfter (s : State) (k : Nat) : State := ((initializeEntered s).waited k).transacted [0xAB#8]

/-- The device has taken up the operation `op`: it is busy with it, or has completed it already (R69, D19). -/
def tookUp (p : Params) (d d' : Device) (op : DevOp) : Prop :=
  d' = { d with wel := false, busy := true, pending := some op } ∨
  d' = { d with wel := false, mem := op.apply p d.mem, statusWritten := op.status d.statusWritten }

/-! ## States in which the block can act -/

/-- The block is idle, not faulted, with its chip-select line configured and high. -/
abbrev State.atRest (s : State) : Prop :=
  s.fault = none ∧ s.ctl = .idle ∧ s.csDir = .output ∧ s.csLevel = some true

/-- At rest, and in the phase and bus state that admit all fifteen operations (R204). -/
abbrev State.operational (s : State) : Prop := s.atRest ∧ s.busUp = true ∧ s.phase = .initialized

/-- Idle and not faulted, in a state that admits initialize (R204). -/
abbrev State.admitsInitialize (s : State) : Prop :=
  s.fault = none ∧ s.ctl = .idle ∧ s.busUp = true ∧ s.phase ≠ .ended

/-- The reference device is attached, ready, awake and between transactions (R68). -/
abbrev State.deviceReady (s : State) : Prop :=
  s.dev.model = .reference ∧ s.dev.busy = false ∧ s.dev.pending = none ∧ s.dev.dpd = false ∧ s.dev.txn = none

/-- The cell of the flash array that address `a` names (R50, D17). -/
def State.cell (s : State) (a : Addr) : Byte := Memory.read s.dev.mem (cellOf s.par a 0)

/-- A position at which a byte is exchanged (R102, R103). -/
def Micro.exchanges : Micro → Bool
  | .tx _ | .txWbHigh | .txWbMid | .txWbLow | .txBuf _ | .rx | .rxUid _ | .rxPoll => true
  | _ => false

/-- A host operation: a constructor of the OPSEL layer (R91). -/
def hostLayer : Instr → Bool
  | .readStatus | .busy | .readDeviceId | .readUniqueId | .readByte _ | .readBytes _ _ | .writeByte _ _
  | .writeBytes _ _ _ | .eraseBlock4K _ | .eraseBlock32K _ | .chipErase | .sleep | .wakeup | .endOp | .initializeOp
  | .reserved => true
  | _ => false

/-! ## The discipline of the trace (R104, R111, R86) -/

/-- Where a scan of the trace stands: between transactions, after `Sel`, or inside a transaction with its opcode and the
last byte received. -/
inductive ScanMode where
  | closed
  | opened
  | inside (op : Byte) (last : Option Byte)
deriving DecidableEq, Repr

/-- A scan of the trace: a WRITE-ENABLE transaction with only STATUS-READ transactions after it (`we`), and a last
transaction that was a STATUS-READ reading bit 0 = 0 (`ready`). -/
structure Scan where
  mode  : ScanMode
  we    : Bool
  ready : Bool
deriving DecidableEq, Repr

/-- Opcodes sent through command issuance (R13): all but the three direct ones. -/
def issuedOpcode (op : Byte) : Bool := knownOpcode op && op != 0x06#8 && op != 0x05#8 && op != 0x9F#8

/-- May `op` be the opcode byte now? One of the thirteen (R86); an issued one directly after a ready STATUS-READ
(R111 (b)); a mutating one after a WRITE-ENABLE with only STATUS-READs between (R111 (a)). -/
def Scan.allows (c : Scan) (op : Byte) : Bool :=
  knownOpcode op && (!issuedOpcode op || c.ready) && (!mutating op || c.we)

/-- The scan at the end of a transaction. -/
def Scan.closing (c : Scan) (op : Byte) (last : Option Byte) : Scan :=
  if op = 0x06#8 then { mode := .closed, we := true, ready := false }
  else if op = 0x05#8 then { mode := .closed, we := c.we, ready := last.elim false (fun b => !busyOf b) }
  else { mode := .closed, we := false, ready := false }

/-- The scan after one more event; none where the discipline is broken. -/
def Scan.next (c : Scan) (e : Event) : Option Scan :=
  match e, c.mode with
  | .sel, .closed => some { c with mode := .opened }
  | .xfer b _, .opened => if c.allows b then some { c with mode := .inside b none } else none
  | .xfer _ r, .inside op _ => some { c with mode := .inside op (some r) }
  | .unsel, .inside op last => some (c.closing op last)
  | .pinOutput _, .closed => some c
  | .pinWrite _ _, .closed => some c
  | .cfgSave, .closed => some c
  | .busEnd, .closed => some c
  | _, _ => none

/-- The scan of a whole trace, from a block just constructed. -/
def scanTrace (tr : List Event) : Option Scan :=
  tr.foldl (fun c e => c.bind (·.next e)) (some { mode := .closed, we := false, ready := false })

/-! ## The invariant -/

/-- What is known of the chip-select line at a control position. -/
inductive Line where
  /-- Nothing: before initialize has driven it. -/
  | off
  /-- Configured as an output. -/
  | driven
  /-- High: between transactions. -/
  | high
  /-- Low, no byte exchanged yet. -/
  | fresh
  /-- Low, inside the transaction of the given opcode. -/
  | low (op : Byte)
deriving DecidableEq, Repr

/-- What is known of the last poll's byte: nothing; it was the last byte received; its transaction has closed. -/
inductive PollView where
  | unknown
  | received
  | closed
deriving DecidableEq, Repr

/-- What is known of the splitter registers: ⊥; their values; nothing. -/
inductive RegsView where
  | clear
  | known (off rem limit : Nat)
  | unknown
deriving DecidableEq, Repr

/-- What is known at a control position: enough to see that the rest of the request can raise no fault and keeps the
discipline. `got` counts the bytes received, `uid` the leading entries of `uid_buf` that are set, `closed` that the last
action was an UNSELECT, `we` and `ready` are those of the scan. -/
structure View where
  line   : Line
  got    : Nat
  poll   : PollView
  uid    : Nat
  regs   : RegsView
  closed : Bool
  we     : Bool
  ready  : Bool
deriving DecidableEq, Repr

/-- The view after the opcode or a later byte is sent; none where the discipline or the framing is broken. -/
def View.send (v : View) (b : Byte) : Option View :=
  match v.line with
  | .fresh =>
    if knownOpcode b && (!issuedOpcode b || v.ready) && (!mutating b || v.we) then
      some { v with line := .low b, poll := .unknown, closed := false }
    else none
  | .low _ => some { v with poll := .unknown, closed := false }
  | _ => none

/-- The view after a later byte is exchanged; none outside a transaction and at its opcode position. -/
def View.more (v : View) : Option View :=
  match v.line with
  | .low _ => some { v with poll := .unknown, closed := false }
  | _ => none

/-- The view after an UNSELECT. -/
def View.close (v : View) : Option View :=
  match v.line with
  | .low op =>
    some { v with line := .high, closed := true, ready := false,
                  we := if op = 0x06#8 then true else if op = 0x05#8 then v.we else false,
                  poll := if op = 0x05#8 && v.poll == .received then .closed else .unknown }
  | _ => none

/-- The view after position `m` has been performed on its way to the next one; none where it could fault or break the
discipline. A loop counts as one position. -/
def View.after (v : View) (req : Instr) (m : Micro) : Option View :=
  match m with
  | .sel => if v.line = .high then some { v with line := .fresh, poll := .unknown, closed := false } else none
  | .unsel => v.close
  | .tx b => v.send b
  | .txWbHigh | .txWbMid | .txWbLow =>
    match v.regs with
    | .known _ _ _ => v.more
    | _ => none
  | .txBuf i =>
    match v.regs with
    | .known off _ _ => if off + i < (bufferOf req).length then v.more else none
    | _ => none
  | .rx => v.more.map fun w => { w with got := w.got + 1 }
  | .rxUid i => if v.uid = i.val then v.more.map fun w => { w with uid := w.uid + 1 } else none
  | .rxPoll => v.more.map fun w => { w with poll := .received }
  | .wait => if v.line = .high then some { v with poll := .closed, closed := true, ready := true } else none
  | .waitAgain =>
    if v.line = .high && v.closed then some { v with poll := .closed, closed := true, ready := true } else none
  | .pollTest =>
    if v.line = .high && v.closed && v.poll == .closed then some { v with ready := true } else none
  | .wbInit a len =>
    if v.line = .high then some { v with regs := .known 0 len (firstLimit a) } else none
  | .burst =>
    match v.regs with
    | .known off rem limit =>
      if v.line = .high && decide (off + rem ≤ (bufferOf req).length) && decide (1 ≤ limit) then
        some { v with regs := .unknown, poll := .unknown, closed := false, we := false, ready := false }
      else none
    | _ => none
  | .wbNext n =>
    match v.regs with
    | .known off rem _ =>
      if v.line = .high && decide (n ≤ rem) then some { v with regs := .known (off + n) (rem - n) Config.pageBytes }
      else none
    | _ => none
  | .wbClear => if v.line = .high then some { v with regs := .clear } else none
  | .cfgSave => if v.line = .off then some { v with closed := false } else none
  | .pinOutput => if v.line = .off then some { v with line := .driven } else none
  | .pinHigh => if v.line = .driven then some { v with line := .high } else none
  | .setInitialized => if v.line = .high then some v else none
  | .probe =>
    if v.line = .high && v.regs == .clear then
      some { v with poll := .unknown, closed := false, we := false, ready := false }
    else none
  | .idTest =>
    if v.line = .high && decide (2 ≤ v.got) && v.regs == .clear then
      some { v with got := v.got - 2, poll := .unknown, closed := false }
    else none
  | .busEnd => if v.line = .high then some v else none
  | .ret k =>
    if v.line = .high && v.regs == .clear &&
        (match k with
        | .byte | .busy => decide (1 ≤ v.got)
        | .word => decide (2 ≤ v.got)
        | .uid => decide (v.uid = 8)
        | _ => true)
    then some v else none

/-- What is left of a request can run from the given view without a fault and within the discipline. -/
def View.safe (req : Instr) : View → List Micro → Bool
  | v, [] => v.line == .high && v.regs == .clear
  | v, m :: ms =>
    match m with
    | .ret k => (v.after req (.ret k)).isSome
    | m => (v.after req m).elim false fun w => View.safe req w ms

/-- The first `n` entries of the unique-ID buffer are set. -/
def uidSet (uid : Vector (Option Byte) 8) (n : Nat) : Prop := ∀ i (h : i < 8), i < n → (uid[i]'h).isSome

/-- The line agrees with the state and with the scan of its trace. -/
def Line.agrees (l : Line) (s : State) (c : Scan) : Prop :=
  match l with
  | .off => c.mode = .closed
  | .driven => c.mode = .closed ∧ s.csDir = .output
  | .high => c.mode = .closed ∧ s.csDir = .output ∧ s.csLevel = some true
  | .fresh =>
    c.mode = .opened ∧ s.csDir = .output ∧ s.csLevel = some false ∧ s.savedCfg.isSome ∧ s.ie = false ∧
      s.busCfg = s.par.flashCfg
  | .low op =>
    (∃ last, c.mode = .inside op last) ∧ s.csDir = .output ∧ s.csLevel = some false ∧ s.savedCfg.isSome ∧
      s.ie = false ∧ s.busCfg = s.par.flashCfg

/-- The poll byte agrees with the scan. -/
def PollView.agrees (pv : PollView) (poll : Option Byte) (c : Scan) : Prop :=
  match pv with
  | .unknown => True
  | .received => ∃ b op, poll = some b ∧ c.mode = .inside op (some b)
  | .closed => ∃ b, poll = some b ∧ (busyOf b = false → c.ready = true)

/-- The splitter registers agree with the state. -/
def RegsView.agrees (r : RegsView) (s : State) : Prop :=
  match r with
  | .clear => s.wbAddr = none ∧ s.wbOff = none ∧ s.wbRem = none ∧ s.wbLimit = none
  | .known off rem limit =>
    s.wbAddr.isSome ∧ s.wbOff = some off ∧ s.wbRem = some rem ∧ s.wbLimit = some limit
  | .unknown => True

/-- A view agrees with a state, its local variables and the scan of its trace. -/
structure View.agrees (v : View) (s : State) (got : List Byte) (poll : Option Byte) (c : Scan) : Prop where
  line   : v.line.agrees s c
  got    : v.got ≤ got.length
  poll   : v.poll.agrees poll c
  uid    : uidSet s.uidBuf v.uid
  regs   : v.regs.agrees s
  closed : v.closed = true → s.ie = true ∧ s.savedCfg = some s.busCfg
  we     : v.we = true → c.we = true
  ready  : v.ready = true → c.ready = true

/-- The block is between requests as its rules leave it, or inside one that can only go on without a fault. -/
def Ctl.sound (s : State) (c : Scan) : Ctl → Prop
  | .idle =>
    c.mode = .closed ∧ RegsView.agrees .clear s ∧
      (s.phase ≠ .constructed → s.csDir = .output ∧ s.csLevel = some true)
  | .active req todo got poll =>
    ∃ v : View, v.agrees s got poll c ∧ v.safe req todo = true

/-- The invariant of the block's own sequences (R36, R104, R111, R203): no fault, a trace that keeps the discipline, and
a control position from which both stay so. -/
def State.sound (s : State) : Prop :=
  s.fault = none ∧ ∃ c, scanTrace s.trace = some c ∧ s.ctl.sound s c

/-- The device's state is consistent (R68, R69): the array in its canonical form and inside the chip, and BUSY exactly
while an operation is pending. -/
def Device.wf (d : Device) (p : Params) : Prop :=
  Memory.wf d.mem ∧ (∀ c ∈ d.mem, c.1 < p.chipBytes) ∧ (d.busy = d.pending.isSome)

/-- The parameters are in the ranges of R7 and the device is consistent. -/
def State.wf (s : State) : Prop := s.par.wf ∧ s.dev.wf s.par

/-- The next thing the block does is no hand-built wire transaction: only those can break its discipline (R203). -/
def State.ownMove (s : State) : Prop := ∀ mosi rest, s.hreq ≠ .issue (.wire mosi) :: rest

end Sys2Proof.Machine
end

