-- ==== Sys2Proof/Certificates/Slice0/Obligations.lean ====
section
/-! DEFINITION. Certificates/Slice0/Obligations.lean: the statements for the provers. The rule each one formalises is
named in its docstring; a premise is on the state and the operands alone. Whole transactions (`transacted`, `heardIn`),
a ready-wait's next poll (`polled`, `pollByte`, `pollsReady`), the device's turn (`turned`), a ready-wait that reads busy
`k` times with the device's turns between its polls (`waits`, `waited`; log 13), the mutating issue (`mutatingIssued`,
`mutatingReady`, `mutatingWaits`, `mutatingAfter`), the stages of initialize, and what running an instruction leads to
over several steps (`Reaches`, `Completes`) are defined in Safety.lean. -/

section

open Sys2Proof Sys2Proof.Machine

/-! ## Encoding (30_encoding.md) -/

/-- Decoding the encoded form of a well-formed instruction gives it back, for every instruction and every parameter
value (R81, R82, R90, R91). -/
def Obligations.DecodeEncodeAgree : Prop :=
  ∀ (p : Params) (i : Instr), i.wf p = true → decode p (encode p i) = .ok i

/-- Wire bytes have one meaning: what the decoder reads is well-formed and encodes to those bytes (R80-R85); and a
transaction whose first byte is none of the thirteen opcodes is rejected by name (R81, R86). -/
def Obligations.WireBytesHaveOneMeaning : Prop :=
  (∀ (p : Params) (mosi : List Byte) (i : Instr),
    decodeWire p mosi = .ok i → i.wf p = true ∧ encode p i = .wire mosi) ∧
  ∀ (p : Params) (op : Byte) (rest : List Byte),
    op ∉ [0x06#8, 0x05#8, 0x01#8, 0x0B#8, 0x03#8, 0x02#8, 0x20#8, 0x52#8, 0x60#8, 0x9F#8, 0x4B#8, 0xB9#8, 0xAB#8] →
      decodeWire p (op :: rest) = .error .unknownOpcode

/-- The OPSEL table (R91), whatever the fields the operation does not read hold (R90). -/
def Obligations.OpselTableDecodes : Prop :=
  ∀ (p : Params) (a : Addr) (len : Nat) (v : Byte) (d : List Byte), len < 2 ^ p.lenBits →
    let r (op : BitVec 4) : Request := { opsel := op, addr := a, len := len, value := v, data := d }
    decodeRequest p (r 0x0#4) = .ok .readStatus ∧ decodeRequest p (r 0x1#4) = .ok .busy ∧
    decodeRequest p (r 0x2#4) = .ok .readDeviceId ∧ decodeRequest p (r 0x3#4) = .ok .readUniqueId ∧
    decodeRequest p (r 0x4#4) = .ok (.readByte a) ∧ decodeRequest p (r 0x5#4) = .ok (.readBytes a len) ∧
    decodeRequest p (r 0x6#4) = .ok (.writeByte a v) ∧ decodeRequest p (r 0x7#4) = .ok (.writeBytes a len d) ∧
    decodeRequest p (r 0x8#4) = .ok (.eraseBlock4K a) ∧ decodeRequest p (r 0x9#4) = .ok (.eraseBlock32K a) ∧
    decodeRequest p (r 0xA#4) = .ok .chipErase ∧ decodeRequest p (r 0xB#4) = .ok .sleep ∧
    decodeRequest p (r 0xC#4) = .ok .wakeup ∧ decodeRequest p (r 0xD#4) = .ok .endOp ∧
    decodeRequest p (r 0xE#4) = .ok .initializeOp ∧ decodeRequest p (r 0xF#4) = .ok .reserved

/-- A few transactions of 95_test_vectors.md, written out byte by byte, decode to the command they stand for (R81,
R82). -/
def Obligations.WrittenOutTransactionsDecode : Prop :=
  decodeWire Params.default [0x06#8] = .ok .writeEnable ∧
  decodeWire Params.default [0x0B#8, 0x01#8, 0x23#8, 0x45#8, 0x00#8, 0x00#8, 0x00#8] = .ok (.arrayRead 0x012345#24 2) ∧
  decodeWire Params.default [0x02#8, 0x00#8, 0x00#8, 0xFE#8, 0x0A#8, 0x0B#8] =
    .ok (.byteOrPageProgram 0x0000FE#24 [0x0A#8, 0x0B#8]) ∧
  decodeWire Params.default [0x20#8, 0x00#8, 0x12#8, 0x34#8] = .ok (.blockErase4K 0x001234#24) ∧
  decodeWire Params.default [0x9F#8, 0x00#8, 0x00#8] = .ok .jedecId ∧
  decodeWire Params.default [0xAB#8] = .ok .releaseFromPowerDown

/-! ## Operands (10 R35, 20 R57, R70, 41 R131) -/

/-- The status parser reads bit 0 alone (R35). -/
def Obligations.StatusParserReadsBitZero : Prop :=
  ∀ b c : Byte, (busyOf b = true ↔ b.toNat % 2 = 1) ∧ (b.getLsbD 0 = c.getLsbD 0 → busyOf b = busyOf c)

/-- The three address bytes are bits 23:16, 15:8 and 7:0, in that order, and they determine the address (R57, R83). -/
def Obligations.AddressBytesAreBigEndian : Prop :=
  ∀ a : Addr,
    (addrBytes a).map BitVec.toNat = [a.toNat / 65536 % 256, a.toNat / 256 % 256, a.toNat % 256] ∧
    addrOfBytes (addrHigh a) (addrMid a) (addrLow a) = a

/-! ## The burst splitter (43_program.md R151-R155) -/

/-- Every burst of SPLIT has 1 to 256 bytes and stays in its page, and every burst after the first starts a page
(R153). -/
def Obligations.BurstsStayInTheirPage : Prop :=
  ∀ (a : Addr) (len : Nat),
    (∀ b ∈ split a len, 1 ≤ b.n ∧ b.n ≤ 256 ∧ b.addr.toNat % 256 + b.n ≤ 256) ∧
    ∀ b ∈ (split a len).tail, b.addr.toNat % 256 = 0

/-- The bursts of SPLIT partition the range in order, and their data is the buffer (R154). -/
def Obligations.BurstsPartitionTheBuffer : Prop :=
  ∀ (a : Addr) (data : List Byte),
    let bs := split a data.length
    (∀ k (h : k < bs.length), bs[k].off = ((bs.take k).map Burst.n).sum) ∧
    (bs.map Burst.n).sum = data.length ∧
    (∀ b ∈ bs, b.addr.toNat = (a.toNat + b.off) % 2 ^ 24) ∧
    bs.flatMap (fun b => (data.drop b.off).take b.n) = data

/-- The number of bursts, that every burst but the last ends at a page boundary, the size of the last, and that no other
partition of the range into page-bounded pieces has fewer (R155). -/
def Obligations.BurstCountIsMinimal : Prop :=
  ∀ (a : Addr) (len : Nat),
    let bs := split a len
    bs.length = (if len = 0 then 0 else (a.toNat % 256 + len + 255) / 256) ∧
    (∀ k (h : k + 1 < bs.length), bs[k].addr.toNat % 256 + bs[k].n = 256) ∧
    (∀ k (h : k < bs.length), k + 1 = bs.length →
      bs[k].n = (a.toNat % 256 + len - 1) % 256 + 1 - bs[k].addr.toNat % 256) ∧
    ∀ ns : List Nat, ns.sum = len →
      (∀ k (h : k < ns.length), (a.toNat + (ns.take k).sum) % 256 + ns[k] ≤ 256) → bs.length ≤ ns.length

/-! ## Primitives (40_framing_and_issue.md R100-R102), as one step of the sequencer -/

/-- SELECT: its two faults in order, each leaving everything else as it was (R206), and its writes (R100); a ⊥ level on a
configured line is an undefined value (log 19). -/
def Obligations.SelectChecksThenWrites : Prop :=
  ∀ (s : State) (req : Instr) (ms : List Micro) (got : List Byte) (poll : Option Byte),
    s.fault = none → s.ctl = .active req (.sel :: ms) got poll →
    (s.csDir ≠ .output → seqStep s = { s with fault := some .csNotConfigured }) ∧
    (s.csDir = .output → s.csLevel = some false → seqStep s = { s with fault := some .nestedSelect }) ∧
    (s.csDir = .output → s.csLevel = none → seqStep s = { s with fault := some .undefinedValue }) ∧
    (s.csDir = .output → s.csLevel = some true →
      seqStep s =
        { s with ie := false, savedCfg := some s.busCfg, busCfg := s.par.flashCfg, csLevel := some false,
                 trace := s.trace ++ [.sel], dev := s.dev.select, ctl := .active req ms got poll })

/-- UNSELECT: its fault, and its writes; the device's part is in `dev` and `choices` alone (R101); a ⊥ snapshot, which
would reach the bus configuration, is an undefined value (log 19). -/
def Obligations.UnselectChecksThenWrites : Prop :=
  ∀ (s : State) (req : Instr) (ms : List Micro) (got : List Byte) (poll : Option Byte),
    s.fault = none → s.ctl = .active req (.unsel :: ms) got poll →
    (s.csLevel ≠ some false → seqStep s = { s with fault := some .unselectWhileDeselected }) ∧
    (s.csLevel = some false → s.savedCfg = none → seqStep s = { s with fault := some .undefinedValue }) ∧
    (∀ c, s.csLevel = some false → s.savedCfg = some c →
      ∃ d ch, seqStep s =
        { s with csLevel := some true, busCfg := c, ie := true, trace := s.trace ++ [.unsel], dev := d, choices := ch,
                 ctl := .active req ms got poll })

/-- XFER (as TX of `b`): its fault, and that it appends the exchange with the byte the device answers; with an external
device and a script that byte is the script's next (R102, R103, D15). A ⊥ splitter register that would reach a wire byte,
and a ⊥ entry of `uid_buf` that would reach a response, raise UndefinedValue and write nothing (R11, R203; that the first
is found before XFER's own check is log 32). -/
def Obligations.XferChecksThenAppends : Prop :=
  ∀ (s : State) (req : Instr) (m : Micro) (ms : List Micro) (got : List Byte) (poll : Option Byte),
    s.fault = none → s.ctl = .active req (m :: ms) got poll →
    (∀ b, m = .tx b →
      (s.csLevel ≠ some false → seqStep s = { s with fault := some .xferWhileDeselected }) ∧
      (s.csLevel = some false →
        (∃ r q d, seqStep s =
          { s with trace := s.trace ++ [.xfer b r], miso := q, dev := d, ctl := .active req ms got poll }) ∧
        ∀ r rest, s.dev.model = .external → s.miso = r :: rest →
          seqStep s = { s with trace := s.trace ++ [.xfer b r], miso := rest, ctl := .active req ms got poll })) ∧
    (m ∈ [Micro.txWbHigh, .txWbMid, .txWbLow] → s.wbAddr = none → seqStep s = { s with fault := some .undefinedValue }) ∧
    (∀ i, m = .txBuf i → s.wbOff = none → seqStep s = { s with fault := some .undefinedValue }) ∧
    (m = .ret .uid → (∃ i : Fin 8, s.uidBuf[i] = none) → seqStep s = { s with fault := some .undefinedValue })

/-- A whole framed transaction: the trace it appends, and all it leaves as it was (R80, R100-R102). -/
def Obligations.TransactionFrame : Prop :=
  ∀ (s : State) (mosi : List Byte),
    (s.heardIn mosi).length = mosi.length ∧
    ∃ q d ch, s.transacted mosi =
      { s with ie := true, savedCfg := some s.busCfg, csLevel := some true,
               trace := s.trace ++ .sel :: (List.zipWith .xfer mosi (s.heardIn mosi) ++ [.unsel]),
               miso := q, dev := d, choices := ch }

/-- With an external device and a script, a transaction hears the script and leaves the device and the choices alone
(D15). -/
def Obligations.ScriptedTransaction : Prop :=
  ∀ (s : State) (mosi script rest : List Byte),
    s.dev.model = .external → script.length = mosi.length → s.miso = script ++ rest →
    s.heardIn mosi = script ∧
    s.transacted mosi =
      { s with ie := true, savedCfg := some s.busCfg, csLevel := some true,
               trace := s.trace ++ .sel :: (List.zipWith .xfer mosi script ++ [.unsel]), miso := rest }

/-! ## The host operations, complete -/

/-- readStatus and busy: one STATUS-READ transaction and no ready-wait; readStatus answers all eight bits of the byte,
busy its bit 0, and never waits (R105, R106). -/
def Obligations.StatusOperationsReadOnce : Prop :=
  ∀ s : State, s.operational →
    exec .readStatus s = .next (s.polled.respond (.byte s.pollByte)) ∧
    exec .busy s = .next (s.polled.respond (.bool (busyOf s.pollByte)))

/-- readDeviceId: one JEDEC-ID transaction without ready-wait, the two bytes packed big-endian (R130, R131). -/
def Obligations.ReadDeviceIdPacksTheIdentifier : Prop :=
  ∀ (s : State) (x m d : Byte), s.operational →
    s.heardIn [0x9F#8, s.par.fillByte, s.par.fillByte] = [x, m, d] →
    ∃ w : Word16, w.toNat = 256 * m.toNat + d.toNat ∧ w.extractLsb' 8 8 = m ∧ w.extractLsb' 0 8 = d ∧
      exec .readDeviceId s =
        .next ((s.transacted [0x9F#8, s.par.fillByte, s.par.fillByte]).respond (.word w))

/-- readUniqueId: ready-wait, then UNIQUE-ID with four dummy bytes; the eight bytes fill the buffer and are returned
(R132). -/
def Obligations.ReadUniqueIdFillsTheBuffer : Prop :=
  ∀ (s : State) (u : Vector Byte 8), s.operational → s.pollsReady →
    (s.polled.heardIn (0x4B#8 :: List.replicate 12 s.par.fillByte)).drop 5 = u.toList →
    exec .readUniqueId s =
      .next ({ s.polled.transacted (0x4B#8 :: List.replicate 12 s.par.fillByte) with
               uidBuf := u.map some }.respond (.uid u.toList))

/-- readByte: ready-wait, then 0x03, the address, one receive (R140). -/
def Obligations.ReadByteReturnsTheLastByte : Prop :=
  ∀ (s : State) (a : Addr) (v : Byte), s.operational → s.pollsReady →
    (s.polled.heardIn (0x03#8 :: addrBytes a ++ [s.par.fillByte])).getLast? = some v →
    exec (.readByte a) s =
      .next ((s.polled.transacted (0x03#8 :: addrBytes a ++ [s.par.fillByte])).respond (.byte v))

/-- readBytes: ready-wait, then 0x0B, the address, one dummy byte and `len` receives, also when `len` is 0 (R141). -/
def Obligations.ReadBytesReturnsTheReceivedBytes : Prop :=
  ∀ (s : State) (a : Addr) (len : Nat), s.operational → s.pollsReady →
    exec (.readBytes a len) s =
      .next ((s.polled.transacted (0x0B#8 :: addrBytes a ++ List.replicate (len + 1) s.par.fillByte)).respond
        (.bytes ((s.polled.heardIn (0x0B#8 :: addrBytes a ++ List.replicate (len + 1) s.par.fillByte)).drop 5)))

/-- writeByte: write-enable, ready-wait, then 0x02, the address and the byte (R150). -/
def Obligations.WriteByteSendsOneBurst : Prop :=
  ∀ (s : State) (a : Addr) (v : Byte), s.operational → s.mutatingReady →
    exec (.writeByte a v) s =
      .next ((s.mutatingIssued.transacted (0x02#8 :: addrBytes a ++ [v])).respond .none)

/-- writeBytes sends exactly the bursts of SPLIT, in order, each a mutating issue of its own, and leaves the splitter
registers ⊥; with `len = 0` it sends nothing (R152, R154). -/
def Obligations.WriteBytesSendsExactlySplit : Prop :=
  ∀ (s : State) (a : Addr) (data : List Byte), s.operational → s.burstsReady data (split a data.length) →
    exec (.writeBytes a data.length data) s =
      .next ({ s.bursted data (split a data.length) with
               wbAddr := none, wbOff := none, wbRem := none, wbLimit := none }.respond .none)

/-- The three erases: write-enable, ready-wait, the opcode, and for the block erases the address unchanged
(R170-R172). -/
def Obligations.ErasesSendTheirOpcode : Prop :=
  ∀ (s : State) (a : Addr), s.operational → s.mutatingReady →
    exec (.eraseBlock4K a) s = .next ((s.mutatingIssued.transacted (0x20#8 :: addrBytes a)).respond .none) ∧
    exec (.eraseBlock32K a) s = .next ((s.mutatingIssued.transacted (0x52#8 :: addrBytes a)).respond .none) ∧
    exec .chipErase s = .next ((s.mutatingIssued.transacted [0x60#8]).respond .none)

/-- sleep and wakeup: ready-wait, then the opcode; no write-enable (R180, R181). -/
def Obligations.SleepAndWakeupSendTheirOpcode : Prop :=
  ∀ s : State, s.operational → s.pollsReady →
    exec .sleep s = .next ((s.polled.transacted [0xB9#8]).respond .none) ∧
    exec .wakeup s = .next ((s.polled.transacted [0xAB#8]).respond .none)

/-- end: no transaction; the bus is released and the phase is Ended (R184). -/
def Obligations.EndReleasesTheBus : Prop :=
  ∀ s : State, s.fault = none → s.ctl = .idle → s.busUp = true → s.phase = .initialized →
    exec .endOp s =
      .next ({ s with busUp := false, phase := .ended, trace := s.trace ++ [Event.busEnd] }.respond .none)

/-- initialize with `expected_id = 0`: no identifier probe, then the unprotect, and true (R186); so too when its ready-waits
read busy any finite number of times (R107, R246; over several steps, log 1). -/
def Obligations.InitializeWithoutProbe : Prop :=
  ∀ s : State, s.admitsInitialize → s.expectedId = 0 →
    ((initializeEntered s).pollsReady → (initializeAwake s).mutatingReady →
      exec .initializeOp s =
        .next (((initializeAwake s).mutatingIssued.transacted [0x01#8, 0x00#8]).respond (.bool true))) ∧
    ∀ (j : Nat) (k : Nat × Nat), (initializeEntered s).waits j → (initializeAwakeAfter s j).mutatingWaits k →
      Completes .initializeOp s
        ((((initializeAwakeAfter s j).mutatingAfter k).transacted [0x01#8, 0x00#8]).respond (.bool true))

/-- initialize with `expected_id ≠ 0`: the probe, then on a mismatch false and nothing more, and on a match the
unprotect and true (R186, R187); so too when its ready-waits read busy any finite number of times (R107, R246; over
several steps, log 1). -/
def Obligations.InitializeWithProbe : Prop :=
  ∀ (s : State) (x m d : Byte), s.admitsInitialize → s.expectedId ≠ 0 →
    let jedec := [0x9F#8, s.par.fillByte, s.par.fillByte]
    ((initializeEntered s).pollsReady → (initializeAwake s).heardIn jedec = [x, m, d] →
      let probed := (initializeAwake s).transacted jedec
      (256 * m.toNat + d.toNat ≠ s.expectedId.toNat →
        exec .initializeOp s = .next (probed.respond (.bool false))) ∧
      (256 * m.toNat + d.toNat = s.expectedId.toNat → probed.mutatingReady →
        exec .initializeOp s =
          .next ((probed.mutatingIssued.transacted [0x01#8, 0x00#8]).respond (.bool true)))) ∧
    ∀ (j : Nat), (initializeEntered s).waits j → (initializeAwakeAfter s j).heardIn jedec = [x, m, d] →
      let probed := (initializeAwakeAfter s j).transacted jedec
      (256 * m.toNat + d.toNat ≠ s.expectedId.toNat →
        Completes .initializeOp s (probed.respond (.bool false))) ∧
      (256 * m.toNat + d.toNat = s.expectedId.toNat → ∀ k, probed.mutatingWaits k →
        Completes .initializeOp s (((probed.mutatingAfter k).transacted [0x01#8, 0x00#8]).respond (.bool true)))

/-! ## Admission, refusal and blocking (60_exceptions.md R201-R204) -/

/-- A request that fails (b) to (e) only sets `refused`, OPSEL 0xF in every phase among them: that is its whole effect
(R91); one made while another is active has no move (R204). -/
def Obligations.RefusedRequestsOnlySetRefused : Prop :=
  ∀ (s : State) (i : Instr), hostLayer i = true → s.fault = none →
    (∀ req todo got poll, s.ctl = .active req todo got poll → exec i s = .refused .requestWhileActive) ∧
    (s.ctl = .idle →
      (s.busUp = false ∨ (s.phase = .constructed ∧ i ≠ .initializeOp) ∨ s.phase = .ended ∨ i = .reserved ∨
        (∃ a len data, i = .writeBytes a len data ∧ data.length ≠ len)) →
      exec i s = .next { s with refused := true })

/-- An issued request whose first poll reads busy is suspended after that one poll, with exactly the rest of its
pseudocode left: no response, nothing else sent (R107, R112, R201). When a ready-wait reads busy any finite number of
times and then ready, the request completes with that rest (R107, R246). That it does so over several steps is log 1. -/
def Obligations.BusyPollSuspendsTheRequest : Prop :=
  ∀ (s : State) (a : Addr) (len : Nat),
    (s.operational → busyOf s.pollByte = true →
      ∀ c ∈ ([(.readUniqueId, .sel :: .tx 0x4B#8 :: (txDummy s.par 4 ++ rxUidAll ++ [.unsel, .ret .uid])),
          (.readByte a, .sel :: .tx 0x03#8 :: (txAddr a ++ [.rx, .unsel, .ret .byte])),
          (.readBytes a len, .sel :: .tx 0x0B#8 :: (txAddr a ++ txDummy s.par 1 ++ rxMany len ++ [.unsel, .ret .bytes])),
          (.sleep, [.sel, .tx 0xB9#8, .unsel, .ret .none]),
          (.wakeup, [.sel, .tx 0xAB#8, .unsel, .ret .none])] : List (Instr × List Micro)),
        exec c.1 s = .next { s.polled with ctl := .active c.1 (.waitAgain :: c.2) [] (some s.pollByte) }) ∧
    (s.admitsInitialize → busyOf (initializeEntered s).pollByte = true →
      exec .initializeOp s =
        .next { (initializeEntered s).polled with
          ctl := .active .initializeOp (.waitAgain :: .sel :: .tx 0xAB#8 :: .unsel :: .probe :: unprotectBody s.par) []
            (some (initializeEntered s).pollByte) }) ∧
    (s.operational → ∀ k, s.waits k →
      let w := s.waited k
      let unique := 0x4B#8 :: List.replicate 12 s.par.fillByte
      let slow := 0x03#8 :: addrBytes a ++ [s.par.fillByte]
      let fast := 0x0B#8 :: addrBytes a ++ List.replicate (len + 1) s.par.fillByte
      (∀ u : Vector Byte 8, (w.heardIn unique).drop 5 = u.toList →
        Completes .readUniqueId s ({ w.transacted unique with uidBuf := u.map some }.respond (.uid u.toList))) ∧
      (∀ v, (w.heardIn slow).getLast? = some v → Completes (.readByte a) s ((w.transacted slow).respond (.byte v))) ∧
      Completes (.readBytes a len) s ((w.transacted fast).respond (.bytes ((w.heardIn fast).drop 5))) ∧
      Completes .sleep s ((w.transacted [0xB9#8]).respond .none) ∧
      Completes .wakeup s ((w.transacted [0xAB#8]).respond .none))

/-- A mutating request is suspended, with exactly the rest of its pseudocode left, after a poll that reads busy: behind the
write-enable, or with WE_PREPOLL before it; writeBytes at its first burst, initialize at its unprotect (R107, R108, R110,
R152, R186, R201). When its ready-waits read busy any finite number of times it completes with that rest (R107, R246);
initialize's completion is InitializeWithoutProbe and InitializeWithProbe. That it does so over several steps is log 1. -/
def Obligations.BusyPollSuspendsTheMutatingRequest : Prop :=
  ∀ (s : State) (a : Addr) (v : Byte) (data : List Byte),
    let cs : List (Instr × List Byte) :=
      [(.writeByte a v, 0x02#8 :: addrBytes a ++ [v]), (.eraseBlock4K a, 0x20#8 :: addrBytes a),
        (.eraseBlock32K a, 0x52#8 :: addrBytes a), (.chipErase, [0x60#8])]
    let rest (bs : List Byte) (k : Ret) : List Micro := .sel :: (bs.map .tx ++ [.unsel, .ret k])
    let wb := Instr.writeBytes a data.length data
    let n := min data.length (firstLimit a)
    let burst : List Micro :=
      .sel :: .tx 0x02#8 :: .txWbHigh :: .txWbMid :: .txWbLow ::
        ((List.range n).map .txBuf ++ [.unsel, .wbNext n, .burst, .wbClear, .ret .none])
    let started (t : State) : State :=
      { t with wbAddr := some a, wbOff := some 0, wbRem := some data.length, wbLimit := some (firstLimit a) }
    (s.operational →
      (s.prepollReady → busyOf s.writeEnabled.pollByte = true →
        let susp (t : State) (i : Instr) (ms : List Micro) : State :=
          { t with ctl := .active i (.waitAgain :: ms) [] (some s.writeEnabled.pollByte) }
        (∀ c ∈ cs, exec c.1 s = .next (susp s.writeEnabled.polled c.1 (rest c.2 .none))) ∧
        (data ≠ [] → exec wb s = .next (susp (started s.writeEnabled.polled) wb burst))) ∧
      (s.par.wePrepoll = true → busyOf s.pollByte = true →
        let susp (t : State) (i : Instr) (ms : List Micro) : State :=
          { t with ctl := .active i (.waitAgain :: .sel :: .tx 0x06#8 :: .unsel :: .wait :: ms) [] (some s.pollByte) }
        (∀ c ∈ cs, exec c.1 s = .next (susp s.polled c.1 (rest c.2 .none))) ∧
        (data ≠ [] → exec wb s = .next (susp (started s.polled) wb burst))) ∧
      (∀ k, s.mutatingWaits k → ∀ c ∈ cs, Completes c.1 s (((s.mutatingAfter k).transacted c.2).respond .none)) ∧
      (∀ ks, s.burstsWait data (split a data.length) ks →
        Completes wb s ({ s.burstedAfter data (split a data.length) ks with
          wbAddr := none, wbOff := none, wbRem := none, wbLimit := none }.respond .none))) ∧
    (s.admitsInitialize → s.expectedId = 0 → (initializeEntered s).pollsReady →
      let w := initializeAwake s
      (w.prepollReady → busyOf w.writeEnabled.pollByte = true →
        exec .initializeOp s =
          .next { w.writeEnabled.polled with
            ctl := .active .initializeOp (.waitAgain :: rest [0x01#8, 0x00#8] (.bool true)) []
              (some w.writeEnabled.pollByte) }) ∧
      (s.par.wePrepoll = true → busyOf w.pollByte = true →
        exec .initializeOp s =
          .next { w.polled with
            ctl := .active .initializeOp
              (.waitAgain :: .sel :: .tx 0x06#8 :: .unsel :: .wait :: rest [0x01#8, 0x00#8] (.bool true)) []
              (some w.pollByte) }))

/-- A suspended request: when the device's turn is not its own step, a step polls again, and while the poll reads busy it
stays suspended; when it reads ready the sequencer goes on behind the wait (R107, R201, R69). That a step is one whole
poll, and not one primitive, is log 1; that the poll is six sequencer steps is log 28; the device's turn is log 13. How the
request then completes is BusyPollSuspendsTheRequest and BusyPollSuspendsTheMutatingRequest. -/
def Obligations.SuspendedRequestPollsAgain : Prop :=
  ∀ (s : State) (req : Instr) (ms : List Micro) (got : List Byte) (poll : Option Byte),
    s.fault = none → s.ctl = .active req (.waitAgain :: ms) got poll → s.csDir = .output → s.csLevel = some true →
    (s.completes = true → step s = .next s.completed) ∧
    (s.completes = false → busyOf s.drawn.pollByte = true →
      step s = .next { s.drawn.polled with ctl := .active req (.waitAgain :: ms) got (some s.drawn.pollByte) }) ∧
    (busyOf s.pollByte = false →
      seqStep^[6] s = { s.polled with ctl := .active req ms got (some s.pollByte) })

/-- A faulted state takes no further step and runs no instruction (R203). -/
def Obligations.FaultedStateTakesNoStep : Prop :=
  ∀ (s : State) (r : Fault) (i : Instr), s.fault = some r → (i.wf s.par = true → exec i s = .fault r) ∧ step s = .fault r

/-! ## The wire commands -/

/-- Each wire command is one framed transaction of its format (R80, R82), and the fields it receives are those of R84. -/
def Obligations.WireCommandsAreOneTransaction : Prop :=
  ∀ (s : State) (v : Byte) (a : Addr) (data : List Byte), s.atRest → 1 ≤ data.length → data.length ≤ 256 →
    exec .writeEnable s = .next ((s.transacted [0x06#8]).respond .none) ∧
    exec .statusRead s = .next (s.polled.respond (.byte s.pollByte)) ∧
    exec (.statusWrite v) s = .next ((s.transacted [0x01#8, v]).respond .none) ∧
    exec (.byteOrPageProgram a data) s = .next ((s.transacted (0x02#8 :: addrBytes a ++ data)).respond .none) ∧
    exec (.blockErase4K a) s = .next ((s.transacted (0x20#8 :: addrBytes a)).respond .none) ∧
    exec (.blockErase32K a) s = .next ((s.transacted (0x52#8 :: addrBytes a)).respond .none) ∧
    exec .chipEraseCmd s = .next ((s.transacted [0x60#8]).respond .none) ∧
    exec .deepPowerDown s = .next ((s.transacted [0xB9#8]).respond .none) ∧
    exec .releaseFromPowerDown s = .next ((s.transacted [0xAB#8]).respond .none)

/-- The wire commands that receive: the array reads for any count, the identifier and the unique ID (R80, R82, R84). -/
def Obligations.WireReadsReturnTheirFields : Prop :=
  ∀ (s : State) (a : Addr) (n : Nat), s.atRest →
    let fast := 0x0B#8 :: addrBytes a ++ List.replicate (n + 1) s.par.fillByte
    let slow := 0x03#8 :: addrBytes a ++ List.replicate n s.par.fillByte
    let jedec := [0x9F#8, s.par.fillByte, s.par.fillByte]
    let unique := 0x4B#8 :: List.replicate 12 s.par.fillByte
    exec (.arrayRead a n) s = .next ((s.transacted fast).respond (.bytes ((s.heardIn fast).drop 5))) ∧
    exec (.arrayReadLowFreq a n) s = .next ((s.transacted slow).respond (.bytes ((s.heardIn slow).drop 4))) ∧
    (∀ x m d, s.heardIn jedec = [x, m, d] →
      exec .jedecId s = .next ((s.transacted jedec).respond (.word (packId m d)))) ∧
    (∀ u : Vector Byte 8, (s.heardIn unique).drop 5 = u.toList →
      exec .uniqueId s =
        .next ({ s.transacted unique with uidBuf := u.map some }.respond (.uid u.toList)))

/-- A hand-built transaction on a misused line stops in SELECT's fault, with nothing else but the control position
changed; a program burst of 0 or more than 256 bytes is refused by name (R100, R203, R206, D33). -/
def Obligations.MisusedLineFaults : Prop :=
  ∀ (s : State) (i : Instr), hostLayer i = false → s.fault = none → s.ctl = .idle →
    (i.wf s.par = true → s.csDir ≠ .output → ∃ c, exec i s = .next { s with ctl := c, fault := some .csNotConfigured }) ∧
    (i.wf s.par = true → s.csDir = .output → s.csLevel = some false →
      ∃ c, exec i s = .next { s with ctl := c, fault := some .nestedSelect }) ∧
    (i.wf s.par = false → exec i s = .refused .burstSizeUndefined)

/-! ## The reference device (20_memory.md R69-R77) -/

/-- WRITE-ENABLE sets the latch of a ready device and changes nothing else of it (R70). -/
def Obligations.WriteEnableSetsTheLatch : Prop :=
  ∀ s : State, s.deviceReady →
    (s.transacted [0x06#8]).dev = { s.dev with wel := true } ∧ (s.transacted [0x06#8]).choices = s.choices

/-- BUSY, and the step that clears it. STATUS-READ of an awake device reads BUSY in bit 0, busy or not (R70). At every
point of rest, in whatever phase and bus state, idle or suspended in a ready-wait, a device with an operation pending
takes its own step `Complete` when its turn is drawn so: the operation is applied to the array, BUSY cleared, and nothing
else done (R6, R69, D19). The draw is log 10's, that the turn is before a step of the machine log 13's. A device that
works at nothing takes no turn. -/
def Obligations.BusyUntilTheDeviceCompletes : Prop :=
  (∀ s : State, s.dev.model = .reference → s.dev.dpd = false → busyOf s.pollByte = s.dev.busy) ∧
  (∀ (s : State) (op : DevOp), s.dev.model = .reference → s.dev.pending = some op → s.fault = none → s.settled = true →
    (s.completes = true → step s = .next s.completed) ∧
    s.completed =
      { s.drawn with
        dev := { s.dev with mem := op.apply s.par s.dev.mem, statusWritten := op.status s.dev.statusWritten,
                            busy := false, pending := none } } ∧
    (∀ c rest, s.choices = c :: rest → s.completes = c ∧ s.drawn = { s with choices := rest, turns := s.turns + 1 })) ∧
  ∀ s : State,
    (s.dev.model = .external ∨ s.dev.pending = none → s.completes = false ∧ s.drawn = s) ∧
    ∃ ch n, s.drawn = { s with choices := ch, turns := n }

/-- The array reads of a ready device return the cells from the address on, modulo CHIP_BYTES, and change nothing
(R71, R62). -/
def Obligations.ArrayReadsReturnTheCells : Prop :=
  ∀ (s : State) (a : Addr) (n : Nat), s.deviceReady →
    let fast := 0x0B#8 :: addrBytes a ++ List.replicate (n + 1) s.par.fillByte
    let slow := 0x03#8 :: addrBytes a ++ List.replicate n s.par.fillByte
    let cells := (List.range n).map fun i => Memory.read s.dev.mem ((a.toNat + i) % s.par.chipBytes)
    (s.heardIn fast).drop 5 = cells ∧ (s.transacted fast).dev = s.dev ∧
    (s.heardIn slow).drop 4 = cells ∧ (s.transacted slow).dev = s.dev

/-- JEDEC-ID and UNIQUE-ID of a ready device return its identifiers and change nothing (R75, R62). -/
def Obligations.IdentifiersAreTheDevices : Prop :=
  ∀ s : State, s.deviceReady →
    (s.heardIn [0x9F#8, s.par.fillByte, s.par.fillByte]).drop 1 = [s.dev.mfr, s.dev.devId] ∧
    (s.transacted [0x9F#8, s.par.fillByte, s.par.fillByte]).dev = s.dev ∧
    (s.heardIn (0x4B#8 :: List.replicate 12 s.par.fillByte)).drop 5 = s.dev.uid.toList ∧
    (s.transacted (0x4B#8 :: List.replicate 12 s.par.fillByte)).dev = s.dev

/-- A mutating command to a ready device with the latch set is taken up at its Unsel; with the latch clear it has no
effect (R69, R72-R74, D21). -/
def Obligations.MutatingCommandsNeedTheLatch : Prop :=
  ∀ (s : State) (a : Addr) (v : Byte) (data : List Byte), s.deviceReady → 1 ≤ data.length → data.length ≤ 256 →
    ∀ c ∈ [((0x01#8 :: [v] : List Byte), DevOp.statusWrite v), (0x02#8 :: addrBytes a ++ data, .program a data),
        (0x20#8 :: addrBytes a, .eraseSector a), (0x52#8 :: addrBytes a, .eraseBlock a), ([0x60#8], .eraseChip)],
      (s.dev.wel = true → tookUp s.par s.dev (s.transacted c.1).dev c.2) ∧
      (s.dev.wel = false → (s.transacted c.1).dev = s.dev)

/-- DEEP-POWER-DOWN and RELEASE-FROM-POWER-DOWN move a device that is not busy in and out of deep power-down (R76); that
the latch and the written status bits stay as they were is the model's choice (log 31). -/
def Obligations.PowerDownCommandsMoveTheDevice : Prop :=
  ∀ s : State,
    (s.deviceReady → (s.transacted [0xB9#8]).dev = { s.dev with dpd := true }) ∧
    (s.dev.model = .reference → s.dev.busy = false → s.dev.pending = none →
      (s.transacted [0xAB#8]).dev = { s.dev with dpd := false, txn := none })

/-- A WRITE-ENABLE that reaches a busy device leaves the latch a draw: whatever the device chooses (R77, R232). -/
def Obligations.WriteEnableWhileBusyIsADraw : Prop :=
  ∀ (s : State) (c done : Bool) (rest : List Bool), s.dev.model = .reference → s.dev.busy = true →
    s.dev.pending.isSome = true → s.choices = c :: done :: rest →
    (s.transacted [0x06#8]).dev =
      (let d := { s.dev with wel := c, txn := none }
       if done then d.complete s.par else d) ∧
    (s.transacted [0x06#8]).choices = rest

/-- What a completed program does to every cell: `old AND data` inside the page, wrapping, and nothing elsewhere (R52,
R72, R156). -/
def Obligations.ProgramAndsIntoItsPage : Prop :=
  ∀ (p : Params) (a : Addr) (data : List Byte) (m : List Host.Cell), Memory.wf m → data.length ≤ 256 →
    let page := a.toNat % p.chipBytes / 256 * 256
    let m' := DevOp.apply p (.program a data) m
    (∀ i (h : i < data.length),
      Memory.read m' (page + (a.toNat % 256 + i) % 256) =
        Memory.read m (page + (a.toNat % 256 + i) % 256) &&& data[i]) ∧
    (∀ x, (∀ i, i < data.length → x ≠ page + (a.toNat % 256 + i) % 256) → Memory.read m' x = Memory.read m x) ∧
    Memory.wf m'

/-- What a completed erase does to every cell: 0xFF inside the aligned unit that holds the address, and nothing elsewhere
(R51, R52, R73). -/
def Obligations.EraseSetsItsUnit : Prop :=
  ∀ (p : Params) (a : Addr) (m : List Host.Cell) (x : Nat), Memory.wf m →
    let sector := a.toNat % p.chipBytes / 4096 * 4096
    let block := a.toNat % p.chipBytes / 32768 * 32768
    Memory.read (DevOp.apply p (.eraseSector a) m) x =
      (if sector ≤ x ∧ x < sector + 4096 then 0xFF#8 else Memory.read m x) ∧
    Memory.read (DevOp.apply p (.eraseBlock a) m) x =
      (if block ≤ x ∧ x < block + 32768 then 0xFF#8 else Memory.read m x) ∧
    Memory.read (DevOp.apply p .eraseChip m) x = (if x < p.chipBytes then 0xFF#8 else Memory.read m x)

/-- writeByte on a ready device: it completes, every cell but the addressed one reads as before, and the addressed one
is `old AND value` once the operation is complete (R150, R52, R64). -/
def Obligations.WriteByteOnReadyDevice : Prop :=
  ∀ (s : State) (a : Addr) (v : Byte), s.operational → s.deviceReady → s.wf →
    ∃ t, exec (.writeByte a v) s = .next t ∧ t.ctl = .idle ∧ t.hrsp = s.hrsp ++ [.none] ∧
      (∀ x, x ≠ a.toNat % s.par.chipBytes → Memory.read t.dev.mem x = Memory.read s.dev.mem x) ∧
      ((t.dev.pending = none ∧ t.cell a = s.cell a &&& v) ∨
        (t.dev.pending = some (.program a [v]) ∧ t.cell a = s.cell a))

/-- The three erases on a ready device: each completes, every cell outside its aligned unit reads as before, and every cell
inside reads 0xFF once the operation is complete (R170-R172, R51, R52, R73). -/
def Obligations.ErasesOnReadyDevice : Prop :=
  ∀ (s : State) (a : Addr), s.operational → s.deviceReady → s.wf →
    let sector := a.toNat % s.par.chipBytes / 4096 * 4096
    let block := a.toNat % s.par.chipBytes / 32768 * 32768
    ∀ c ∈ [(Instr.eraseBlock4K a, DevOp.eraseSector a, sector, 4096), (.eraseBlock32K a, .eraseBlock a, block, 32768),
        (.chipErase, .eraseChip, 0, s.par.chipBytes)],
      ∃ t, exec c.1 s = .next t ∧ t.ctl = .idle ∧ t.hrsp = s.hrsp ++ [.none] ∧
        (∀ x, ¬(c.2.2.1 ≤ x ∧ x < c.2.2.1 + c.2.2.2) → Memory.read t.dev.mem x = Memory.read s.dev.mem x) ∧
        ((t.dev.pending = none ∧ ∀ x, c.2.2.1 ≤ x → x < c.2.2.1 + c.2.2.2 → Memory.read t.dev.mem x = 0xFF#8) ∨
          (t.dev.pending = some c.2.1 ∧ t.dev.mem = s.dev.mem))

/-- Read back: on a ready device that completes each burst at once, writeBytes into erased cells inside the chip, then
readBytes of the same range, returns the data written (R142 for k = 0; the premise on `choices` is log 10's and 13's). -/
def Obligations.ReadBackAfterWrite : Prop :=
  ∀ (s : State) (a : Addr) (data : List Byte) (rest : List Bool), s.operational → s.deviceReady → s.wf →
    a.toNat + data.length ≤ s.par.chipBytes →
    (∀ i, i < data.length → Memory.read s.dev.mem (a.toNat + i) = 0xFF#8) →
    s.choices = List.replicate (split a data.length).length true ++ rest →
    ∃ t u, exec (.writeBytes a data.length data) s = .next t ∧ exec (.readBytes a data.length) t = .next u ∧
      u.hrsp = s.hrsp ++ [.none, .bytes data]

/-- Read back with WE_PREPOLL: every 0x06 then reaches a ready device, and the same law holds under every draw of the
device: its bursts may complete at once, at a later poll or in a turn of the device between two polls, each ready-wait
reading busy any finite number of times; the last burst also in any number of turns before readBytes (R142, R69; over
several steps, log 1). -/
def Obligations.ReadBackWithPrepoll : Prop :=
  ∀ (s : State) (a : Addr) (data : List Byte) (ks : List (Nat × Nat)), s.operational → s.deviceReady → s.wf →
    s.par.wePrepoll = true → a.toNat + data.length ≤ s.par.chipBytes →
    (∀ i, i < data.length → Memory.read s.dev.mem (a.toNat + i) = 0xFF#8) →
    s.burstsWait data (split a data.length) ks →
    ∃ t, Completes (.writeBytes a data.length data) s t ∧ ∀ n k, (State.turned^[n] t).waits k →
      ∃ u, Completes (.readBytes a data.length) (State.turned^[n] t) u ∧ u.hrsp = s.hrsp ++ [.none, .bytes data]

/-! ## Frames -/

/-- What no instruction changes, and what only some do, for every instruction that gives a next state: the parameters,
`cs_id`, `expected_id`, the host's pending moves and the device's identity never; `bus_up` only end; `phase` only end
and initialize; `uid_buf` only the unique-ID reads; the splitter registers only writeBytes; the trace and the responses
only grow, and `refused` is never cleared (R21, R22, R24, R28-R30, R32, R33). -/
def Obligations.InstructionFrame : Prop :=
  ∀ (i : Instr) (s t : State), exec i s = .next t →
    t.par = s.par ∧ t.csId = s.csId ∧ t.expectedId = s.expectedId ∧ t.hreq = s.hreq ∧
    t.dev.model = s.dev.model ∧ t.dev.mfr = s.dev.mfr ∧ t.dev.devId = s.dev.devId ∧ t.dev.uid = s.dev.uid ∧
    (i ≠ .endOp → t.busUp = s.busUp) ∧
    (i ≠ .endOp → i ≠ .initializeOp → t.phase = s.phase) ∧
    (i ≠ .initializeOp → t.csDir = s.csDir) ∧
    (i ≠ .readUniqueId → i ≠ .uniqueId → t.uidBuf = s.uidBuf) ∧
    ((∀ a len data, i ≠ .writeBytes a len data) →
      t.wbAddr = s.wbAddr ∧ t.wbOff = s.wbOff ∧ t.wbRem = s.wbRem ∧ t.wbLimit = s.wbLimit) ∧
    (s.refused = true → t.refused = true) ∧
    (∃ ev, t.trace = s.trace ++ ev) ∧ (∃ rs, t.hrsp = s.hrsp ++ rs ∧ rs.length ≤ 1)

/-- The flash array's frame, when no earlier operation is pending, wherever a request stands (its states at the steps of
log 1): the operations and commands that neither program nor erase, initialize among them, leave every cell as it was
(R52, R62, R74, R76); writeBytes leaves every cell outside its range, modulo CHIP_BYTES, whatever the device draws, with
and without WE_PREPOLL (R52, R72, R153, R154, D17). Those of writeByte and the erases are WriteByteOnReadyDevice and
ErasesOnReadyDevice. -/
def Obligations.ArrayFrame : Prop :=
  (∀ (s u : State) (v : Byte) (a : Addr) (n : Nat), s.dev.pending = none →
    ∀ i ∈ [Instr.readStatus, .busy, .readDeviceId, .readUniqueId, .readByte a, .readBytes a n, .sleep, .wakeup, .endOp,
        .initializeOp, .reserved, .writeEnable, .statusRead, .statusWrite v, .arrayRead a n, .arrayReadLowFreq a n,
        .jedecId, .uniqueId, .deepPowerDown, .releaseFromPowerDown],
      Reaches i s u → ∀ x, Memory.read u.dev.mem x = Memory.read s.dev.mem x) ∧
  ∀ (s u : State) (a : Addr) (data : List Byte), s.operational → s.wf → s.dev.pending = none →
    Reaches (.writeBytes a data.length data) s u →
    ∀ x, (∀ i, i < data.length → x ≠ (a.toNat + i) % s.par.chipBytes) →
      Memory.read u.dev.mem x = Memory.read s.dev.mem x

/-- Every instruction that gives a next state gives a settled one: returned, suspended in a ready-wait, or faulted. No
request is left in the middle (R31, R112; the bound on one step is log 22's). -/
def Obligations.InstructionsSettle : Prop :=
  ∀ (i : Instr) (s t : State), s.fault = none → exec i s = .next t → t.settled = true

/-! ## The step -/

/-- A step of an idle block with a pending request or transaction runs the decoded instruction on the state without that
move (R6, R31, R90; the pending moves as a list, log 2), unless the device's turn before it is its own step (R69, log 13;
a turn that is not changes `choices` and `turns` alone, BusyUntilTheDeviceCompletes). What does not decode is refused by
name: a record whose length is wider than LEN_BITS (log 29), or wire bytes that are no transaction the block sends
(log 23). -/
def Obligations.StepRunsTheDecodedInstruction : Prop :=
  ∀ (s : State) (e : Encoded) (rest : List HostMove), s.fault = none → s.ctl = .idle → s.hreq = .issue e :: rest →
    (s.completes = true → step s = .next s.completed) ∧
    (s.completes = false →
      (∀ i, decode s.par e = .ok i → step s = exec i { s.drawn with hreq := rest }) ∧
      (∀ r, decode s.par e = .error r → step s = .refused .noSuchRequest ∨ step s = .refused .noSuchTransaction))

/-- BusBegin brings the bus up and takes Ended back (R185); it needs `ctl = Idle`. The device's turn before it is
BusyUntilTheDeviceCompletes (log 13). -/
def Obligations.BusBeginReopensTheBus : Prop :=
  ∀ (s : State) (rest : List HostMove), s.fault = none → s.ctl = .idle → s.hreq = .busBegin :: rest →
    (s.completes = true → step s = .next s.completed) ∧
    (s.completes = false → step s =
      .next { s.drawn with
        hreq := rest, busUp := true,
        phase := if s.phase = .ended then (if s.csDir = .output then .initialized else .constructed) else s.phase })

/-- Between requests the host and other drivers write their own state and no other (R20, R25, R26). With N_HANDLES > 1
another handle's readUniqueId overwrites the shared buffer, and its end releases the shared bus (R133, R184, R213); with
the bus down that handle refuses them and nothing changes here (R204 (b) read for every handle, log 24). An idle block
without a move stays as it is (log 21). Each such step is behind a turn of the device that is not its own step (log 13,
BusyUntilTheDeviceCompletes); one that is comes alone, and the move after it. -/
def Obligations.HostMovesBetweenRequests : Prop :=
  ∀ (s : State) (rest : List HostMove) (on : Bool) (c : Cfg) (u : Vector Byte 8), s.fault = none → s.ctl = .idle →
    (s.completes = true → step s = .next s.completed) ∧
    (s.completes = false →
      (s.hreq = .setIe on :: rest → step s = .next { s.drawn with hreq := rest, ie := on }) ∧
      (s.hreq = .setBusCfg c :: rest → step s = .next { s.drawn with hreq := rest, busCfg := c }) ∧
      (s.hreq = .otherUniqueId u :: rest →
        (1 < s.par.nHandles → s.busUp = true →
          step s = .next { s.drawn with hreq := rest, uidBuf := u.map some, ie := true }) ∧
        (1 < s.par.nHandles → s.busUp = false → step s = .next { s.drawn with hreq := rest }) ∧
        (s.par.nHandles ≤ 1 → step s = .refused .noOtherHandle)) ∧
      (s.hreq = .otherEnd :: rest →
        (1 < s.par.nHandles → step s = .next { s.drawn with hreq := rest, busUp := false }) ∧
        (s.par.nHandles ≤ 1 → step s = .refused .noOtherHandle)) ∧
      (s.hreq = [] → step s = .next s.drawn))

/-! ## Reset and the invariants -/

/-- Construction: the two arguments bound, the values R38 lists, the host's three values as the host holds them, no bus
action (R38, R220); and `State.reset` holds the values R38 lists too. -/
def Obligations.ConstructionValues : Prop :=
  let listed (s : State) : Prop :=
    s.savedCfg = none ∧ (∀ i (h : i < 8), s.uidBuf[i] = none) ∧ s.csDir = .unconfigured ∧ s.csLevel = none ∧
    s.phase = .constructed ∧ s.wbAddr = none ∧ s.wbOff = none ∧ s.wbRem = none ∧ s.wbLimit = none ∧ s.ctl = .idle ∧
    s.fault = none ∧ s.refused = false ∧ s.trace = []
  listed State.reset ∧
  ∀ (p : Params) (pin : PinId) (eid : Word16) (c : Cfg) (ie up : Bool) (d : Device),
    let s := State.construct p pin eid c ie up d
    s.csId = pin ∧ s.expectedId = eid ∧ s.busCfg = c ∧ s.ie = ie ∧ s.busUp = up ∧ listed s

/-- Every step keeps the parameters in range, the flash array canonical and inside the chip, and BUSY exactly while an
operation is pending (R7, R50, R68, R69). -/
def Obligations.StepKeepsWellFormed : Prop :=
  ∀ s t : State, s.wf → step s = .next t → t.wf

/-- The block just constructed is well-formed and sound. -/
def Obligations.ResetIsWellFormedAndSound : Prop := State.reset.wf ∧ State.reset.sound

/-- Every step of the block's own (no hand-built transaction) keeps it sound: it raises no fault (R203), its trace keeps
the discipline of R104 and R111 (balanced framing, ready before every issued opcode, write-enable before every mutating
one), and the chip-select line, the interrupt enable and the splitter registers are as R26, R27 and R30 say. So is every
state between two primitives: each sequencer step keeps it, and a host operation is a number of them from a sound
start. -/
def Obligations.StepKeepsSound : Prop :=
  (∀ s t : State, s.sound → s.ownMove → step s = .next t → t.sound) ∧
  (∀ s : State, s.sound → (seqStep s).sound) ∧
  ∀ (i : Instr) (s t : State), hostLayer i = true → s.sound → exec i s = .next t →
    t = { s with refused := true } ∨
      ∃ todo n, State.sound { s with ctl := .active i todo [] none } ∧
        t = seqStep^[n] { s with ctl := .active i todo [] none }

/-- In a sound state the block's own step gives a next state without a fault (R203), unless what the host asked for is no
request record of R90 (log 29) or there is no other handle (R213). -/
def Obligations.SoundBlockNeverFaults : Prop :=
  ∀ s : State, s.sound → s.ownMove →
    (∃ t, step s = .next t ∧ t.fault = none) ∨
    (∃ r rest e, s.hreq = .issue (.request r) :: rest ∧ decode s.par (.request r) = .error e ∧
      step s = .refused .noSuchRequest) ∨
    (∃ m rest, s.hreq = m :: rest ∧ (m = .otherEnd ∨ ∃ u, m = .otherUniqueId u) ∧ s.par.nHandles ≤ 1 ∧
      step s = .refused .noOtherHandle)

/-- A sound block that is idle or suspended in a ready-wait is between transactions: as many Sel as Unsel in its trace;
suspended, the line is high, interrupts are unmasked and the saved configuration is in effect; idle, the splitter
registers are ⊥ and, once initialized, the line is driven high (R30, R36, R104, R201). -/
def Obligations.RestingBlockIsBetweenTransactions : Prop :=
  ∀ s : State, s.sound →
    (∀ req ms got poll, s.ctl = .active req (.waitAgain :: ms) got poll →
      s.trace.count .sel = s.trace.count .unsel ∧ s.csLevel = some true ∧ s.ie = true ∧
        s.savedCfg = some s.busCfg) ∧
    (s.ctl = .idle →
      s.trace.count .sel = s.trace.count .unsel ∧
      s.wbAddr = none ∧ s.wbOff = none ∧ s.wbRem = none ∧ s.wbLimit = none ∧
      (s.phase ≠ .constructed → s.csDir = .output ∧ s.csLevel = some true))

/-- From each SELECT to its UNSELECT a sound block has interrupts masked and its own configuration installed: at every
position of a request that exchanges a byte, and at UNSELECT, the line is low, `ie` is 0 and `bus_cfg` is FLASH_CFG (R26,
R100, R207). Every state between the primitives of a sound block's request is sound: StepKeepsSound. -/
def Obligations.InterruptsMaskedWhileSelected : Prop :=
  ∀ (s : State) (req : Instr) (m : Micro) (ms : List Micro) (got : List Byte) (poll : Option Byte), s.sound →
    s.ctl = .active req (m :: ms) got poll → (m.exchanges = true ∨ m = .unsel) →
    s.csLevel = some false ∧ s.ie = false ∧ s.busCfg = s.par.flashCfg

end
end

