-- ==== Sys2Proof/Laws/Operands.lean ====
section
/-! SUPPORT. Laws/Operands.lean: the operand arithmetic: address bytes (20 R57), the identifier word (41 R131) and the
burst splitter (43 R151-R155). -/

namespace Sys2Proof.Machine

theorem append_toNat {n m : Nat} (x : BitVec n) (y : BitVec m) : (x ++ y).toNat = x.toNat * 2 ^ m + y.toNat := by
  rw [BitVec.toNat_append, ← Nat.shiftLeft_add_eq_or_of_lt y.isLt, Nat.shiftLeft_eq]

/-! ## Address bytes -/

theorem addrHigh_toNat (a : Addr) : (addrHigh a).toNat = a.toNat / 65536 := by
  have := a.isLt
  simp only [addrHigh, BitVec.extractLsb'_toNat, Nat.shiftRight_eq_div_pow]; omega

theorem addrMid_toNat (a : Addr) : (addrMid a).toNat = a.toNat / 256 % 256 := by
  simp [addrMid, BitVec.extractLsb'_toNat, Nat.shiftRight_eq_div_pow]

theorem addrLow_toNat (a : Addr) : (addrLow a).toNat = a.toNat % 256 := by
  simp [addrLow, BitVec.extractLsb'_toNat]

theorem addrOfBytes_toNat (h m l : Byte) : (addrOfBytes h m l).toNat = 65536 * h.toNat + 256 * m.toNat + l.toNat := by
  have := append_toNat (h ++ m) l
  rw [append_toNat h m] at this
  unfold addrOfBytes
  rw [show (h ++ m ++ l : BitVec 24).toNat = _ from this]; omega

/-- The three address bytes determine the address. -/
theorem addrOfBytes_parts (a : Addr) : addrOfBytes (addrHigh a) (addrMid a) (addrLow a) = a := by
  apply BitVec.eq_of_toNat_eq
  rw [addrOfBytes_toNat, addrHigh_toNat, addrMid_toNat, addrLow_toNat]; omega

/-- Three bytes are those of the address they assemble. -/
theorem addrBytes_addrOfBytes (h m l : Byte) : addrBytes (addrOfBytes h m l) = [h, m, l] := by
  have := h.isLt; have := m.isLt; have := l.isLt
  have e1 : addrHigh (addrOfBytes h m l) = h := BitVec.eq_of_toNat_eq (by rw [addrHigh_toNat, addrOfBytes_toNat]; omega)
  have e2 : addrMid (addrOfBytes h m l) = m := BitVec.eq_of_toNat_eq (by rw [addrMid_toNat, addrOfBytes_toNat]; omega)
  have e3 : addrLow (addrOfBytes h m l) = l := BitVec.eq_of_toNat_eq (by rw [addrLow_toNat, addrOfBytes_toNat]; omega)
  rw [addrBytes, e1, e2, e3]

/-- The identifier word is `256 m + d` (R131). -/
theorem packId_toNat (m d : Byte) : (packId m d).toNat = 256 * m.toNat + d.toNat := by
  have := append_toNat m d
  unfold packId
  rw [show (m ++ d : BitVec 16).toNat = _ from this]; omega

theorem addrPlus_toNat (a : Addr) (n : Nat) : (addrPlus a n).toNat = (a.toNat + n) % 2 ^ 24 := by
  simp [addrPlus, BitVec.toNat_add]

/-! ## The splitter -/

theorem firstLimit_bounds (a : Addr) : 1 ≤ firstLimit a ∧ firstLimit a ≤ 256 := by
  simp only [firstLimit, Config.pageBytes]; omega

theorem firstLimit_room (a : Addr) : a.toNat % 256 + firstLimit a = 256 := by
  simp only [firstLimit, Config.pageBytes]; omega

theorem splitLoop_zero (fuel : Nat) (a : Addr) (off limit : Nat) : splitLoop fuel a off 0 limit = [] := by
  cases fuel <;> simp [splitLoop]

/-- One burst of the loop, with the rest. -/
theorem splitLoop_succ {fuel rem limit : Nat} (a : Addr) (off : Nat) (h : 0 < rem) :
    splitLoop (fuel + 1) a off rem limit =
      { addr := a, off := off, n := min rem limit } ::
        splitLoop fuel (addrPlus a (min rem limit)) (off + min rem limit) (rem - min rem limit) Config.pageBytes := by
  rw [splitLoop, if_neg (by omega)]

/-- The loop does not depend on its fuel. -/
theorem splitLoop_fuel : ∀ {fuel fuel' : Nat} (a : Addr) (off rem limit : Nat), 1 ≤ limit → rem ≤ fuel → rem ≤ fuel' →
    splitLoop fuel a off rem limit = splitLoop fuel' a off rem limit
  | 0, _, a, off, rem, limit, _, h, _ => by
    obtain rfl : rem = 0 := by omega
    rw [splitLoop_zero, splitLoop_zero]
  | _ + 1, 0, a, off, rem, limit, _, _, h => by
    obtain rfl : rem = 0 := by omega
    rw [splitLoop_zero, splitLoop_zero]
  | fuel + 1, fuel' + 1, a, off, rem, limit, hl, h, h' => by
    rcases Nat.eq_zero_or_pos rem with rfl | hr
    · rw [splitLoop_zero, splitLoop_zero]
    · rw [splitLoop_succ a off hr, splitLoop_succ a off hr,
        splitLoop_fuel (fuel := fuel) (fuel' := fuel') _ _ _ Config.pageBytes (by decide) (by omega) (by omega)]

/-- What the splitter's loop keeps true of its registers, where `base` and `len` are the request's operands. -/
structure SplitInv (base len : Nat) (a : Addr) (off rem limit : Nat) : Prop where
  sum   : off + rem = len
  addr  : a.toNat = (base + off) % 2 ^ 24
  low   : 1 ≤ limit
  room  : a.toNat % 256 + limit = 256

theorem SplitInv.start (a : Addr) (len : Nat) : SplitInv a.toNat len a 0 len (firstLimit a) :=
  ⟨by omega, by have := a.isLt; omega, (firstLimit_bounds a).1, firstLimit_room a⟩

theorem SplitInv.next {base len : Nat} {a : Addr} {off rem limit : Nat} (h : SplitInv base len a off rem limit)
    (hr : limit ≤ rem) :
    SplitInv base len (addrPlus a (min rem limit)) (off + min rem limit) (rem - min rem limit) Config.pageBytes := by
  obtain ⟨h1, h2, h3, h4⟩ := h
  have hm : min rem limit = limit := by omega
  have hp := addrPlus_toNat a limit
  refine ⟨by omega, ?_, by decide, ?_⟩
  · rw [hm, hp]; omega
  · rw [hm, hp]; simp only [Config.pageBytes]; omega

/-- Every burst of the loop is in its page; a burst that is not the first starts one (R153). -/
theorem splitLoop_bounds {base len : Nat} : ∀ {fuel : Nat} {a : Addr} {off rem limit : Nat},
    SplitInv base len a off rem limit → rem ≤ fuel →
    (∀ b ∈ splitLoop fuel a off rem limit,
      1 ≤ b.n ∧ b.addr.toNat % 256 + b.n ≤ 256 ∧ b.addr.toNat = (base + b.off) % 2 ^ 24 ∧ b.off + b.n ≤ len) ∧
    ∀ b ∈ (splitLoop fuel a off rem limit).tail, b.addr.toNat % 256 = 0
  | 0, a, off, rem, limit, _, _ => by simp [splitLoop]
  | fuel + 1, a, off, rem, limit, h, hf => by
    rcases Nat.eq_zero_or_pos rem with rfl | hr
    · rw [splitLoop_zero]; simp
    · rw [splitLoop_succ a off hr]
      have h3 := h.low
      have h4 := h.room
      have h2 := h.addr
      have h1 := h.sum
      by_cases hl : limit ≤ rem
      · have ih := splitLoop_bounds (fuel := fuel) (h.next hl) (by omega)
        refine ⟨?_, ?_⟩
        · intro b hb
          rcases List.mem_cons.1 hb with rfl | hb
          · refine ⟨?_, ?_, h2, ?_⟩ <;> simp only <;> omega
          · exact ih.1 b hb
        · rw [List.tail_cons]
          intro b hb
          have hn := (h.next hl).room
          simp only [Config.pageBytes] at hn
          generalize hL : splitLoop fuel _ _ _ _ = L at hb ih
          rcases L with _ | ⟨c, cs⟩
          · simp at hb
          · rcases List.mem_cons.1 hb with rfl | hb
            · rcases fuel with _ | fuel
              · simp [splitLoop] at hL
              · rw [splitLoop] at hL
                split at hL
                · simp at hL
                · simp only [List.cons.injEq] at hL
                  rw [← hL.1]; simp only; omega
            · exact ih.2 b hb
      · rw [show rem - min rem limit = 0 by omega, splitLoop_zero]
        refine ⟨?_, by simp⟩
        intro b hb
        rw [List.mem_singleton] at hb
        subst hb
        refine ⟨?_, ?_, h2, ?_⟩ <;> simp only <;> omega

/-- The loop's bursts take the bytes of the buffer from `off` on, in order (R154). -/
theorem splitLoop_data (data : List Byte) : ∀ {fuel : Nat} (a : Addr) (off rem limit : Nat), 1 ≤ limit → rem ≤ fuel →
    off + rem = data.length →
    (splitLoop fuel a off rem limit).flatMap (fun b => (data.drop b.off).take b.n) = data.drop off
  | 0, a, off, rem, limit, _, hf, hs => by
    rw [List.drop_eq_nil_of_le (by omega)]; simp [splitLoop]
  | fuel + 1, a, off, rem, limit, hl, hf, hs => by
    rcases Nat.eq_zero_or_pos rem with rfl | hr
    · rw [splitLoop_zero, List.drop_eq_nil_of_le (by omega)]; simp
    · rw [splitLoop_succ a off hr, List.flatMap_cons,
        splitLoop_data data (fuel := fuel) _ _ _ _ (by decide) (by omega) (by omega)]
      simp only
      rw [← List.drop_drop, List.take_append_drop]

/-- The sizes of the loop's bursts add up (R154). -/
theorem splitLoop_sum : ∀ {fuel : Nat} (a : Addr) (off rem limit : Nat), 1 ≤ limit → rem ≤ fuel →
    ((splitLoop fuel a off rem limit).map Burst.n).sum = rem
  | 0, a, off, rem, limit, _, hf => by
    obtain rfl : rem = 0 := by omega
    simp [splitLoop]
  | fuel + 1, a, off, rem, limit, hl, hf => by
    rcases Nat.eq_zero_or_pos rem with rfl | hr
    · rw [splitLoop_zero]; simp
    · rw [splitLoop_succ a off hr, List.map_cons, List.sum_cons,
        splitLoop_sum (fuel := fuel) _ _ _ _ (by decide) (by omega)]
      simp only; omega

/-- A burst starts in the buffer where those before it end (R154). -/
theorem splitLoop_offsets : ∀ {fuel : Nat} (a : Addr) (off rem limit : Nat), 1 ≤ limit → rem ≤ fuel →
    ∀ k (h : k < (splitLoop fuel a off rem limit).length),
      (splitLoop fuel a off rem limit)[k].off = off + (((splitLoop fuel a off rem limit).take k).map Burst.n).sum
  | 0, a, off, rem, limit, _, hf => by intro k h; simp [splitLoop] at h
  | fuel + 1, a, off, rem, limit, hl, hf => by
    intro k h
    rcases Nat.eq_zero_or_pos rem with rfl | hr
    · simp [splitLoop_zero] at h
    · simp only [splitLoop_succ a off hr] at h ⊢
      rcases k with _ | k
      · simp
      · have := splitLoop_offsets (fuel := fuel) (addrPlus a (min rem limit)) (off + min rem limit)
          (rem - min rem limit) Config.pageBytes (by decide) (by omega) k (by simpa using h)
        simp only [List.getElem_cons_succ, List.take_succ_cons, List.map_cons, List.sum_cons, this]
        omega

/-- The count of the loop's bursts, and the page ends (R155). -/
theorem splitLoop_count {base len : Nat} : ∀ {fuel : Nat} {a : Addr} {off rem limit : Nat},
    SplitInv base len a off rem limit → rem ≤ fuel →
    (splitLoop fuel a off rem limit).length = (if rem = 0 then 0 else (256 - limit + rem + 255) / 256) ∧
    ∀ k (_ : k + 1 < (splitLoop fuel a off rem limit).length),
      (splitLoop fuel a off rem limit)[k].addr.toNat % 256 + (splitLoop fuel a off rem limit)[k].n = 256
  | 0, a, off, rem, limit, _, hf => by
    obtain rfl : rem = 0 := by omega
    simp [splitLoop]
  | fuel + 1, a, off, rem, limit, h, hf => by
    rcases Nat.eq_zero_or_pos rem with rfl | hr
    · simp only [splitLoop_zero]; simp
    · simp only [splitLoop_succ a off hr]
      have h3 := h.low
      have h4 := h.room
      rw [if_neg (by omega)]
      by_cases hl : limit ≤ rem
      · have ih := splitLoop_count (fuel := fuel) (h.next hl) (by omega)
        refine ⟨?_, ?_⟩
        · rw [List.length_cons, ih.1]
          simp only [Config.pageBytes]
          split <;> omega
        · intro k hk
          rcases k with _ | k
          · simp only [List.getElem_cons_zero]; omega
          · exact ih.2 k (by simpa using hk)
      · have hz : rem - min rem limit = 0 := by omega
        simp only [hz, splitLoop_zero]
        refine ⟨?_, ?_⟩
        · simp only [List.length_cons, List.length_nil]; omega
        · intro k hk; simp at hk

/-- The size of the loop's last burst (R155). -/
theorem splitLoop_last {base len : Nat} : ∀ {fuel : Nat} {a : Addr} {off rem limit : Nat},
    SplitInv base len a off rem limit → rem ≤ fuel →
    ∀ k (_ : k < (splitLoop fuel a off rem limit).length), k + 1 = (splitLoop fuel a off rem limit).length →
      (splitLoop fuel a off rem limit)[k].n =
        (a.toNat % 256 + rem - 1) % 256 + 1 - (splitLoop fuel a off rem limit)[k].addr.toNat % 256
  | 0, a, off, rem, limit, _, hf => by intro k hk; simp [splitLoop] at hk
  | fuel + 1, a, off, rem, limit, h, hf => by
    intro k hk he
    rcases Nat.eq_zero_or_pos rem with rfl | hr
    · simp [splitLoop_zero] at hk
    · simp only [splitLoop_succ a off hr] at hk he ⊢
      have h3 := h.low
      have h4 := h.room
      by_cases hl : limit ≤ rem
      · have hn := (h.next hl).room
        simp only [Config.pageBytes] at hn
        rcases k with _ | k
        · have hz : splitLoop fuel (addrPlus a (min rem limit)) (off + min rem limit) (rem - min rem limit) Config.pageBytes = [] := by
            simpa using he
          have hc := (splitLoop_count (fuel := fuel) (h.next hl) (by omega)).1
          rw [hz] at hc
          simp only [List.length_nil, Config.pageBytes] at hc
          simp only [List.getElem_cons_zero]
          split at hc <;> omega
        · have ih := splitLoop_last (fuel := fuel) (h.next hl) (by omega) k (by simpa using hk) (by simpa using he)
          simp only [List.getElem_cons_succ]
          rw [ih]
          have : rem - min rem limit ≠ 0 := by
            intro hz
            rw [hz, splitLoop_zero] at hk
            simp at hk
          omega
      · have hz : rem - min rem limit = 0 := by omega
        simp only [hz, splitLoop_zero] at hk he ⊢
        obtain rfl : k = 0 := by simpa using hk
        simp only [List.getElem_cons_zero]
        omega

/-- Pieces that each stay in their page reach no further than a page each (R155). -/
theorem pages_reach {a : Nat} {ns : List Nat} (h : ∀ k (h : k < ns.length), (a + (ns.take k).sum) % 256 + ns[k] ≤ 256) :
    ∀ k, k ≤ ns.length → 1 ≤ k → a % 256 + (ns.take k).sum ≤ 256 * k := by
  intro k
  induction k with
  | zero => omega
  | succ k ih =>
    intro hk _
    have h1 := h k (by omega)
    rw [List.sum_take_succ _ _ (by omega)]
    rcases Nat.eq_zero_or_pos k with rfl | hpos
    · simp at h1 ⊢; omega
    · have := ih (by omega) hpos
      omega

end Sys2Proof.Machine
end

