-- ==== Sys2Proof/Laws/State.lean ====
section
/-! SUPPORT. Laws/State.lean: what each named update of State does to each field, one lemma per field, so that no later
proof unfolds a record update. -/

namespace Sys2Proof.Machine

variable (s : State)

@[simp] theorem State.raise_par (r : Fault) : (s.raise r).par = s.par := rfl
@[simp] theorem State.raise_csId (r : Fault) : (s.raise r).csId = s.csId := rfl
@[simp] theorem State.raise_expectedId (r : Fault) : (s.raise r).expectedId = s.expectedId := rfl
@[simp] theorem State.raise_savedCfg (r : Fault) : (s.raise r).savedCfg = s.savedCfg := rfl
@[simp] theorem State.raise_uidBuf (r : Fault) : (s.raise r).uidBuf = s.uidBuf := rfl
@[simp] theorem State.raise_busCfg (r : Fault) : (s.raise r).busCfg = s.busCfg := rfl
@[simp] theorem State.raise_ie (r : Fault) : (s.raise r).ie = s.ie := rfl
@[simp] theorem State.raise_csDir (r : Fault) : (s.raise r).csDir = s.csDir := rfl
@[simp] theorem State.raise_csLevel (r : Fault) : (s.raise r).csLevel = s.csLevel := rfl
@[simp] theorem State.raise_busUp (r : Fault) : (s.raise r).busUp = s.busUp := rfl
@[simp] theorem State.raise_phase (r : Fault) : (s.raise r).phase = s.phase := rfl
@[simp] theorem State.raise_wbAddr (r : Fault) : (s.raise r).wbAddr = s.wbAddr := rfl
@[simp] theorem State.raise_wbOff (r : Fault) : (s.raise r).wbOff = s.wbOff := rfl
@[simp] theorem State.raise_wbRem (r : Fault) : (s.raise r).wbRem = s.wbRem := rfl
@[simp] theorem State.raise_wbLimit (r : Fault) : (s.raise r).wbLimit = s.wbLimit := rfl
@[simp] theorem State.raise_ctl (r : Fault) : (s.raise r).ctl = s.ctl := rfl
@[simp] theorem State.raise_fault (r : Fault) : (s.raise r).fault = (s.fault <|> some r) := rfl
@[simp] theorem State.raise_refused (r : Fault) : (s.raise r).refused = s.refused := rfl
@[simp] theorem State.raise_trace (r : Fault) : (s.raise r).trace = s.trace := rfl
@[simp] theorem State.raise_hreq (r : Fault) : (s.raise r).hreq = s.hreq := rfl
@[simp] theorem State.raise_hrsp (r : Fault) : (s.raise r).hrsp = s.hrsp := rfl
@[simp] theorem State.raise_dev (r : Fault) : (s.raise r).dev = s.dev := rfl
@[simp] theorem State.raise_miso (r : Fault) : (s.raise r).miso = s.miso := rfl
@[simp] theorem State.raise_choices (r : Fault) : (s.raise r).choices = s.choices := rfl
@[simp] theorem State.raise_turns (r : Fault) : (s.raise r).turns = s.turns := rfl

@[simp] theorem State.refuse_par : (s.refuse).par = s.par := rfl
@[simp] theorem State.refuse_csId : (s.refuse).csId = s.csId := rfl
@[simp] theorem State.refuse_expectedId : (s.refuse).expectedId = s.expectedId := rfl
@[simp] theorem State.refuse_savedCfg : (s.refuse).savedCfg = s.savedCfg := rfl
@[simp] theorem State.refuse_uidBuf : (s.refuse).uidBuf = s.uidBuf := rfl
@[simp] theorem State.refuse_busCfg : (s.refuse).busCfg = s.busCfg := rfl
@[simp] theorem State.refuse_ie : (s.refuse).ie = s.ie := rfl
@[simp] theorem State.refuse_csDir : (s.refuse).csDir = s.csDir := rfl
@[simp] theorem State.refuse_csLevel : (s.refuse).csLevel = s.csLevel := rfl
@[simp] theorem State.refuse_busUp : (s.refuse).busUp = s.busUp := rfl
@[simp] theorem State.refuse_phase : (s.refuse).phase = s.phase := rfl
@[simp] theorem State.refuse_wbAddr : (s.refuse).wbAddr = s.wbAddr := rfl
@[simp] theorem State.refuse_wbOff : (s.refuse).wbOff = s.wbOff := rfl
@[simp] theorem State.refuse_wbRem : (s.refuse).wbRem = s.wbRem := rfl
@[simp] theorem State.refuse_wbLimit : (s.refuse).wbLimit = s.wbLimit := rfl
@[simp] theorem State.refuse_ctl : (s.refuse).ctl = s.ctl := rfl
@[simp] theorem State.refuse_fault : (s.refuse).fault = s.fault := rfl
@[simp] theorem State.refuse_refused : (s.refuse).refused = true := rfl
@[simp] theorem State.refuse_trace : (s.refuse).trace = s.trace := rfl
@[simp] theorem State.refuse_hreq : (s.refuse).hreq = s.hreq := rfl
@[simp] theorem State.refuse_hrsp : (s.refuse).hrsp = s.hrsp := rfl
@[simp] theorem State.refuse_dev : (s.refuse).dev = s.dev := rfl
@[simp] theorem State.refuse_miso : (s.refuse).miso = s.miso := rfl
@[simp] theorem State.refuse_choices : (s.refuse).choices = s.choices := rfl
@[simp] theorem State.refuse_turns : (s.refuse).turns = s.turns := rfl

@[simp] theorem State.respond_par (r : Response) : (s.respond r).par = s.par := rfl
@[simp] theorem State.respond_csId (r : Response) : (s.respond r).csId = s.csId := rfl
@[simp] theorem State.respond_expectedId (r : Response) : (s.respond r).expectedId = s.expectedId := rfl
@[simp] theorem State.respond_savedCfg (r : Response) : (s.respond r).savedCfg = s.savedCfg := rfl
@[simp] theorem State.respond_uidBuf (r : Response) : (s.respond r).uidBuf = s.uidBuf := rfl
@[simp] theorem State.respond_busCfg (r : Response) : (s.respond r).busCfg = s.busCfg := rfl
@[simp] theorem State.respond_ie (r : Response) : (s.respond r).ie = s.ie := rfl
@[simp] theorem State.respond_csDir (r : Response) : (s.respond r).csDir = s.csDir := rfl
@[simp] theorem State.respond_csLevel (r : Response) : (s.respond r).csLevel = s.csLevel := rfl
@[simp] theorem State.respond_busUp (r : Response) : (s.respond r).busUp = s.busUp := rfl
@[simp] theorem State.respond_phase (r : Response) : (s.respond r).phase = s.phase := rfl
@[simp] theorem State.respond_wbAddr (r : Response) : (s.respond r).wbAddr = s.wbAddr := rfl
@[simp] theorem State.respond_wbOff (r : Response) : (s.respond r).wbOff = s.wbOff := rfl
@[simp] theorem State.respond_wbRem (r : Response) : (s.respond r).wbRem = s.wbRem := rfl
@[simp] theorem State.respond_wbLimit (r : Response) : (s.respond r).wbLimit = s.wbLimit := rfl
@[simp] theorem State.respond_ctl (r : Response) : (s.respond r).ctl = .idle := rfl
@[simp] theorem State.respond_fault (r : Response) : (s.respond r).fault = s.fault := rfl
@[simp] theorem State.respond_refused (r : Response) : (s.respond r).refused = s.refused := rfl
@[simp] theorem State.respond_trace (r : Response) : (s.respond r).trace = s.trace := rfl
@[simp] theorem State.respond_hreq (r : Response) : (s.respond r).hreq = s.hreq := rfl
@[simp] theorem State.respond_hrsp (r : Response) : (s.respond r).hrsp = s.hrsp ++ [r] := rfl
@[simp] theorem State.respond_dev (r : Response) : (s.respond r).dev = s.dev := rfl
@[simp] theorem State.respond_miso (r : Response) : (s.respond r).miso = s.miso := rfl
@[simp] theorem State.respond_choices (r : Response) : (s.respond r).choices = s.choices := rfl
@[simp] theorem State.respond_turns (r : Response) : (s.respond r).turns = s.turns := rfl

@[simp] theorem State.begin_par (i : Instr) (prog : List Micro) : (s.begin i prog).par = s.par := rfl
@[simp] theorem State.begin_csId (i : Instr) (prog : List Micro) : (s.begin i prog).csId = s.csId := rfl
@[simp] theorem State.begin_expectedId (i : Instr) (prog : List Micro) : (s.begin i prog).expectedId = s.expectedId := rfl
@[simp] theorem State.begin_savedCfg (i : Instr) (prog : List Micro) : (s.begin i prog).savedCfg = s.savedCfg := rfl
@[simp] theorem State.begin_uidBuf (i : Instr) (prog : List Micro) : (s.begin i prog).uidBuf = s.uidBuf := rfl
@[simp] theorem State.begin_busCfg (i : Instr) (prog : List Micro) : (s.begin i prog).busCfg = s.busCfg := rfl
@[simp] theorem State.begin_ie (i : Instr) (prog : List Micro) : (s.begin i prog).ie = s.ie := rfl
@[simp] theorem State.begin_csDir (i : Instr) (prog : List Micro) : (s.begin i prog).csDir = s.csDir := rfl
@[simp] theorem State.begin_csLevel (i : Instr) (prog : List Micro) : (s.begin i prog).csLevel = s.csLevel := rfl
@[simp] theorem State.begin_busUp (i : Instr) (prog : List Micro) : (s.begin i prog).busUp = s.busUp := rfl
@[simp] theorem State.begin_phase (i : Instr) (prog : List Micro) : (s.begin i prog).phase = s.phase := rfl
@[simp] theorem State.begin_wbAddr (i : Instr) (prog : List Micro) : (s.begin i prog).wbAddr = s.wbAddr := rfl
@[simp] theorem State.begin_wbOff (i : Instr) (prog : List Micro) : (s.begin i prog).wbOff = s.wbOff := rfl
@[simp] theorem State.begin_wbRem (i : Instr) (prog : List Micro) : (s.begin i prog).wbRem = s.wbRem := rfl
@[simp] theorem State.begin_wbLimit (i : Instr) (prog : List Micro) : (s.begin i prog).wbLimit = s.wbLimit := rfl
@[simp] theorem State.begin_ctl (i : Instr) (prog : List Micro) : (s.begin i prog).ctl = .active i prog [] none := rfl
@[simp] theorem State.begin_fault (i : Instr) (prog : List Micro) : (s.begin i prog).fault = s.fault := rfl
@[simp] theorem State.begin_refused (i : Instr) (prog : List Micro) : (s.begin i prog).refused = s.refused := rfl
@[simp] theorem State.begin_trace (i : Instr) (prog : List Micro) : (s.begin i prog).trace = s.trace := rfl
@[simp] theorem State.begin_hreq (i : Instr) (prog : List Micro) : (s.begin i prog).hreq = s.hreq := rfl
@[simp] theorem State.begin_hrsp (i : Instr) (prog : List Micro) : (s.begin i prog).hrsp = s.hrsp := rfl
@[simp] theorem State.begin_dev (i : Instr) (prog : List Micro) : (s.begin i prog).dev = s.dev := rfl
@[simp] theorem State.begin_miso (i : Instr) (prog : List Micro) : (s.begin i prog).miso = s.miso := rfl
@[simp] theorem State.begin_choices (i : Instr) (prog : List Micro) : (s.begin i prog).choices = s.choices := rfl
@[simp] theorem State.begin_turns (i : Instr) (prog : List Micro) : (s.begin i prog).turns = s.turns := rfl

@[simp] theorem State.selected_par : (s.selected).par = s.par := rfl
@[simp] theorem State.selected_csId : (s.selected).csId = s.csId := rfl
@[simp] theorem State.selected_expectedId : (s.selected).expectedId = s.expectedId := rfl
@[simp] theorem State.selected_savedCfg : (s.selected).savedCfg = some s.busCfg := rfl
@[simp] theorem State.selected_uidBuf : (s.selected).uidBuf = s.uidBuf := rfl
@[simp] theorem State.selected_busCfg : (s.selected).busCfg = s.par.flashCfg := rfl
@[simp] theorem State.selected_ie : (s.selected).ie = false := rfl
@[simp] theorem State.selected_csDir : (s.selected).csDir = s.csDir := rfl
@[simp] theorem State.selected_csLevel : (s.selected).csLevel = some false := rfl
@[simp] theorem State.selected_busUp : (s.selected).busUp = s.busUp := rfl
@[simp] theorem State.selected_phase : (s.selected).phase = s.phase := rfl
@[simp] theorem State.selected_wbAddr : (s.selected).wbAddr = s.wbAddr := rfl
@[simp] theorem State.selected_wbOff : (s.selected).wbOff = s.wbOff := rfl
@[simp] theorem State.selected_wbRem : (s.selected).wbRem = s.wbRem := rfl
@[simp] theorem State.selected_wbLimit : (s.selected).wbLimit = s.wbLimit := rfl
@[simp] theorem State.selected_ctl : (s.selected).ctl = s.ctl := rfl
@[simp] theorem State.selected_fault : (s.selected).fault = s.fault := rfl
@[simp] theorem State.selected_refused : (s.selected).refused = s.refused := rfl
@[simp] theorem State.selected_trace : (s.selected).trace = s.trace ++ [.sel] := rfl
@[simp] theorem State.selected_hreq : (s.selected).hreq = s.hreq := rfl
@[simp] theorem State.selected_hrsp : (s.selected).hrsp = s.hrsp := rfl
@[simp] theorem State.selected_dev : (s.selected).dev = s.dev.select := rfl
@[simp] theorem State.selected_miso : (s.selected).miso = s.miso := rfl
@[simp] theorem State.selected_choices : (s.selected).choices = s.choices := rfl
@[simp] theorem State.selected_turns : (s.selected).turns = s.turns := rfl

@[simp] theorem State.unselected_par (c : Cfg) : (s.unselected c).par = s.par := rfl
@[simp] theorem State.unselected_csId (c : Cfg) : (s.unselected c).csId = s.csId := rfl
@[simp] theorem State.unselected_expectedId (c : Cfg) : (s.unselected c).expectedId = s.expectedId := rfl
@[simp] theorem State.unselected_savedCfg (c : Cfg) : (s.unselected c).savedCfg = s.savedCfg := rfl
@[simp] theorem State.unselected_uidBuf (c : Cfg) : (s.unselected c).uidBuf = s.uidBuf := rfl
@[simp] theorem State.unselected_busCfg (c : Cfg) : (s.unselected c).busCfg = c := rfl
@[simp] theorem State.unselected_ie (c : Cfg) : (s.unselected c).ie = true := rfl
@[simp] theorem State.unselected_csDir (c : Cfg) : (s.unselected c).csDir = s.csDir := rfl
@[simp] theorem State.unselected_csLevel (c : Cfg) : (s.unselected c).csLevel = some true := rfl
@[simp] theorem State.unselected_busUp (c : Cfg) : (s.unselected c).busUp = s.busUp := rfl
@[simp] theorem State.unselected_phase (c : Cfg) : (s.unselected c).phase = s.phase := rfl
@[simp] theorem State.unselected_wbAddr (c : Cfg) : (s.unselected c).wbAddr = s.wbAddr := rfl
@[simp] theorem State.unselected_wbOff (c : Cfg) : (s.unselected c).wbOff = s.wbOff := rfl
@[simp] theorem State.unselected_wbRem (c : Cfg) : (s.unselected c).wbRem = s.wbRem := rfl
@[simp] theorem State.unselected_wbLimit (c : Cfg) : (s.unselected c).wbLimit = s.wbLimit := rfl
@[simp] theorem State.unselected_ctl (c : Cfg) : (s.unselected c).ctl = s.ctl := rfl
@[simp] theorem State.unselected_fault (c : Cfg) : (s.unselected c).fault = s.fault := rfl
@[simp] theorem State.unselected_refused (c : Cfg) : (s.unselected c).refused = s.refused := rfl
@[simp] theorem State.unselected_trace (c : Cfg) : (s.unselected c).trace = s.trace ++ [.unsel] := rfl
@[simp] theorem State.unselected_hreq (c : Cfg) : (s.unselected c).hreq = s.hreq := rfl
@[simp] theorem State.unselected_hrsp (c : Cfg) : (s.unselected c).hrsp = s.hrsp := rfl
@[simp] theorem State.unselected_dev (c : Cfg) : (s.unselected c).dev = (s.dev.unselect s.par s.trace s.choices).1 := rfl
@[simp] theorem State.unselected_miso (c : Cfg) : (s.unselected c).miso = s.miso := rfl
@[simp] theorem State.unselected_choices (c : Cfg) : (s.unselected c).choices = (s.dev.unselect s.par s.trace s.choices).2 := rfl
@[simp] theorem State.unselected_turns (c : Cfg) : (s.unselected c).turns = s.turns := rfl

@[simp] theorem State.xferred_par (b : Byte) : (s.xferred b).par = s.par := rfl
@[simp] theorem State.xferred_csId (b : Byte) : (s.xferred b).csId = s.csId := rfl
@[simp] theorem State.xferred_expectedId (b : Byte) : (s.xferred b).expectedId = s.expectedId := rfl
@[simp] theorem State.xferred_savedCfg (b : Byte) : (s.xferred b).savedCfg = s.savedCfg := rfl
@[simp] theorem State.xferred_uidBuf (b : Byte) : (s.xferred b).uidBuf = s.uidBuf := rfl
@[simp] theorem State.xferred_busCfg (b : Byte) : (s.xferred b).busCfg = s.busCfg := rfl
@[simp] theorem State.xferred_ie (b : Byte) : (s.xferred b).ie = s.ie := rfl
@[simp] theorem State.xferred_csDir (b : Byte) : (s.xferred b).csDir = s.csDir := rfl
@[simp] theorem State.xferred_csLevel (b : Byte) : (s.xferred b).csLevel = s.csLevel := rfl
@[simp] theorem State.xferred_busUp (b : Byte) : (s.xferred b).busUp = s.busUp := rfl
@[simp] theorem State.xferred_phase (b : Byte) : (s.xferred b).phase = s.phase := rfl
@[simp] theorem State.xferred_wbAddr (b : Byte) : (s.xferred b).wbAddr = s.wbAddr := rfl
@[simp] theorem State.xferred_wbOff (b : Byte) : (s.xferred b).wbOff = s.wbOff := rfl
@[simp] theorem State.xferred_wbRem (b : Byte) : (s.xferred b).wbRem = s.wbRem := rfl
@[simp] theorem State.xferred_wbLimit (b : Byte) : (s.xferred b).wbLimit = s.wbLimit := rfl
@[simp] theorem State.xferred_ctl (b : Byte) : (s.xferred b).ctl = s.ctl := rfl
@[simp] theorem State.xferred_fault (b : Byte) : (s.xferred b).fault = s.fault := rfl
@[simp] theorem State.xferred_refused (b : Byte) : (s.xferred b).refused = s.refused := rfl
@[simp] theorem State.xferred_trace (b : Byte) : (s.xferred b).trace = s.trace ++ [.xfer b (s.answer b).1] := rfl
@[simp] theorem State.xferred_hreq (b : Byte) : (s.xferred b).hreq = s.hreq := rfl
@[simp] theorem State.xferred_hrsp (b : Byte) : (s.xferred b).hrsp = s.hrsp := rfl
@[simp] theorem State.xferred_dev (b : Byte) : (s.xferred b).dev = s.dev.absorb b := rfl
@[simp] theorem State.xferred_miso (b : Byte) : (s.xferred b).miso = (s.answer b).2 := rfl
@[simp] theorem State.xferred_choices (b : Byte) : (s.xferred b).choices = s.choices := rfl
@[simp] theorem State.xferred_turns (b : Byte) : (s.xferred b).turns = s.turns := rfl

@[simp] theorem State.cfgSaved_par : (s.cfgSaved).par = s.par := rfl
@[simp] theorem State.cfgSaved_csId : (s.cfgSaved).csId = s.csId := rfl
@[simp] theorem State.cfgSaved_expectedId : (s.cfgSaved).expectedId = s.expectedId := rfl
@[simp] theorem State.cfgSaved_savedCfg : (s.cfgSaved).savedCfg = some s.busCfg := rfl
@[simp] theorem State.cfgSaved_uidBuf : (s.cfgSaved).uidBuf = s.uidBuf := rfl
@[simp] theorem State.cfgSaved_busCfg : (s.cfgSaved).busCfg = s.busCfg := rfl
@[simp] theorem State.cfgSaved_ie : (s.cfgSaved).ie = s.ie := rfl
@[simp] theorem State.cfgSaved_csDir : (s.cfgSaved).csDir = s.csDir := rfl
@[simp] theorem State.cfgSaved_csLevel : (s.cfgSaved).csLevel = s.csLevel := rfl
@[simp] theorem State.cfgSaved_busUp : (s.cfgSaved).busUp = s.busUp := rfl
@[simp] theorem State.cfgSaved_phase : (s.cfgSaved).phase = s.phase := rfl
@[simp] theorem State.cfgSaved_wbAddr : (s.cfgSaved).wbAddr = s.wbAddr := rfl
@[simp] theorem State.cfgSaved_wbOff : (s.cfgSaved).wbOff = s.wbOff := rfl
@[simp] theorem State.cfgSaved_wbRem : (s.cfgSaved).wbRem = s.wbRem := rfl
@[simp] theorem State.cfgSaved_wbLimit : (s.cfgSaved).wbLimit = s.wbLimit := rfl
@[simp] theorem State.cfgSaved_ctl : (s.cfgSaved).ctl = s.ctl := rfl
@[simp] theorem State.cfgSaved_fault : (s.cfgSaved).fault = s.fault := rfl
@[simp] theorem State.cfgSaved_refused : (s.cfgSaved).refused = s.refused := rfl
@[simp] theorem State.cfgSaved_trace : (s.cfgSaved).trace = s.trace ++ [.cfgSave] := rfl
@[simp] theorem State.cfgSaved_hreq : (s.cfgSaved).hreq = s.hreq := rfl
@[simp] theorem State.cfgSaved_hrsp : (s.cfgSaved).hrsp = s.hrsp := rfl
@[simp] theorem State.cfgSaved_dev : (s.cfgSaved).dev = s.dev := rfl
@[simp] theorem State.cfgSaved_miso : (s.cfgSaved).miso = s.miso := rfl
@[simp] theorem State.cfgSaved_choices : (s.cfgSaved).choices = s.choices := rfl
@[simp] theorem State.cfgSaved_turns : (s.cfgSaved).turns = s.turns := rfl

@[simp] theorem State.pinMadeOutput_par : (s.pinMadeOutput).par = s.par := rfl
@[simp] theorem State.pinMadeOutput_csId : (s.pinMadeOutput).csId = s.csId := rfl
@[simp] theorem State.pinMadeOutput_expectedId : (s.pinMadeOutput).expectedId = s.expectedId := rfl
@[simp] theorem State.pinMadeOutput_savedCfg : (s.pinMadeOutput).savedCfg = s.savedCfg := rfl
@[simp] theorem State.pinMadeOutput_uidBuf : (s.pinMadeOutput).uidBuf = s.uidBuf := rfl
@[simp] theorem State.pinMadeOutput_busCfg : (s.pinMadeOutput).busCfg = s.busCfg := rfl
@[simp] theorem State.pinMadeOutput_ie : (s.pinMadeOutput).ie = s.ie := rfl
@[simp] theorem State.pinMadeOutput_csDir : (s.pinMadeOutput).csDir = .output := rfl
@[simp] theorem State.pinMadeOutput_csLevel : (s.pinMadeOutput).csLevel = s.csLevel := rfl
@[simp] theorem State.pinMadeOutput_busUp : (s.pinMadeOutput).busUp = s.busUp := rfl
@[simp] theorem State.pinMadeOutput_phase : (s.pinMadeOutput).phase = s.phase := rfl
@[simp] theorem State.pinMadeOutput_wbAddr : (s.pinMadeOutput).wbAddr = s.wbAddr := rfl
@[simp] theorem State.pinMadeOutput_wbOff : (s.pinMadeOutput).wbOff = s.wbOff := rfl
@[simp] theorem State.pinMadeOutput_wbRem : (s.pinMadeOutput).wbRem = s.wbRem := rfl
@[simp] theorem State.pinMadeOutput_wbLimit : (s.pinMadeOutput).wbLimit = s.wbLimit := rfl
@[simp] theorem State.pinMadeOutput_ctl : (s.pinMadeOutput).ctl = s.ctl := rfl
@[simp] theorem State.pinMadeOutput_fault : (s.pinMadeOutput).fault = s.fault := rfl
@[simp] theorem State.pinMadeOutput_refused : (s.pinMadeOutput).refused = s.refused := rfl
@[simp] theorem State.pinMadeOutput_trace : (s.pinMadeOutput).trace = s.trace ++ [.pinOutput s.csId] := rfl
@[simp] theorem State.pinMadeOutput_hreq : (s.pinMadeOutput).hreq = s.hreq := rfl
@[simp] theorem State.pinMadeOutput_hrsp : (s.pinMadeOutput).hrsp = s.hrsp := rfl
@[simp] theorem State.pinMadeOutput_dev : (s.pinMadeOutput).dev = s.dev := rfl
@[simp] theorem State.pinMadeOutput_miso : (s.pinMadeOutput).miso = s.miso := rfl
@[simp] theorem State.pinMadeOutput_choices : (s.pinMadeOutput).choices = s.choices := rfl
@[simp] theorem State.pinMadeOutput_turns : (s.pinMadeOutput).turns = s.turns := rfl

@[simp] theorem State.pinMadeHigh_par : (s.pinMadeHigh).par = s.par := rfl
@[simp] theorem State.pinMadeHigh_csId : (s.pinMadeHigh).csId = s.csId := rfl
@[simp] theorem State.pinMadeHigh_expectedId : (s.pinMadeHigh).expectedId = s.expectedId := rfl
@[simp] theorem State.pinMadeHigh_savedCfg : (s.pinMadeHigh).savedCfg = s.savedCfg := rfl
@[simp] theorem State.pinMadeHigh_uidBuf : (s.pinMadeHigh).uidBuf = s.uidBuf := rfl
@[simp] theorem State.pinMadeHigh_busCfg : (s.pinMadeHigh).busCfg = s.busCfg := rfl
@[simp] theorem State.pinMadeHigh_ie : (s.pinMadeHigh).ie = s.ie := rfl
@[simp] theorem State.pinMadeHigh_csDir : (s.pinMadeHigh).csDir = s.csDir := rfl
@[simp] theorem State.pinMadeHigh_csLevel : (s.pinMadeHigh).csLevel = some true := rfl
@[simp] theorem State.pinMadeHigh_busUp : (s.pinMadeHigh).busUp = s.busUp := rfl
@[simp] theorem State.pinMadeHigh_phase : (s.pinMadeHigh).phase = s.phase := rfl
@[simp] theorem State.pinMadeHigh_wbAddr : (s.pinMadeHigh).wbAddr = s.wbAddr := rfl
@[simp] theorem State.pinMadeHigh_wbOff : (s.pinMadeHigh).wbOff = s.wbOff := rfl
@[simp] theorem State.pinMadeHigh_wbRem : (s.pinMadeHigh).wbRem = s.wbRem := rfl
@[simp] theorem State.pinMadeHigh_wbLimit : (s.pinMadeHigh).wbLimit = s.wbLimit := rfl
@[simp] theorem State.pinMadeHigh_ctl : (s.pinMadeHigh).ctl = s.ctl := rfl
@[simp] theorem State.pinMadeHigh_fault : (s.pinMadeHigh).fault = s.fault := rfl
@[simp] theorem State.pinMadeHigh_refused : (s.pinMadeHigh).refused = s.refused := rfl
@[simp] theorem State.pinMadeHigh_trace : (s.pinMadeHigh).trace = s.trace ++ [.pinWrite s.csId true] := rfl
@[simp] theorem State.pinMadeHigh_hreq : (s.pinMadeHigh).hreq = s.hreq := rfl
@[simp] theorem State.pinMadeHigh_hrsp : (s.pinMadeHigh).hrsp = s.hrsp := rfl
@[simp] theorem State.pinMadeHigh_dev : (s.pinMadeHigh).dev = s.dev := rfl
@[simp] theorem State.pinMadeHigh_miso : (s.pinMadeHigh).miso = s.miso := rfl
@[simp] theorem State.pinMadeHigh_choices : (s.pinMadeHigh).choices = s.choices := rfl
@[simp] theorem State.pinMadeHigh_turns : (s.pinMadeHigh).turns = s.turns := rfl

@[simp] theorem State.busEnded_par : (s.busEnded).par = s.par := rfl
@[simp] theorem State.busEnded_csId : (s.busEnded).csId = s.csId := rfl
@[simp] theorem State.busEnded_expectedId : (s.busEnded).expectedId = s.expectedId := rfl
@[simp] theorem State.busEnded_savedCfg : (s.busEnded).savedCfg = s.savedCfg := rfl
@[simp] theorem State.busEnded_uidBuf : (s.busEnded).uidBuf = s.uidBuf := rfl
@[simp] theorem State.busEnded_busCfg : (s.busEnded).busCfg = s.busCfg := rfl
@[simp] theorem State.busEnded_ie : (s.busEnded).ie = s.ie := rfl
@[simp] theorem State.busEnded_csDir : (s.busEnded).csDir = s.csDir := rfl
@[simp] theorem State.busEnded_csLevel : (s.busEnded).csLevel = s.csLevel := rfl
@[simp] theorem State.busEnded_busUp : (s.busEnded).busUp = false := rfl
@[simp] theorem State.busEnded_phase : (s.busEnded).phase = .ended := rfl
@[simp] theorem State.busEnded_wbAddr : (s.busEnded).wbAddr = s.wbAddr := rfl
@[simp] theorem State.busEnded_wbOff : (s.busEnded).wbOff = s.wbOff := rfl
@[simp] theorem State.busEnded_wbRem : (s.busEnded).wbRem = s.wbRem := rfl
@[simp] theorem State.busEnded_wbLimit : (s.busEnded).wbLimit = s.wbLimit := rfl
@[simp] theorem State.busEnded_ctl : (s.busEnded).ctl = s.ctl := rfl
@[simp] theorem State.busEnded_fault : (s.busEnded).fault = s.fault := rfl
@[simp] theorem State.busEnded_refused : (s.busEnded).refused = s.refused := rfl
@[simp] theorem State.busEnded_trace : (s.busEnded).trace = s.trace ++ [.busEnd] := rfl
@[simp] theorem State.busEnded_hreq : (s.busEnded).hreq = s.hreq := rfl
@[simp] theorem State.busEnded_hrsp : (s.busEnded).hrsp = s.hrsp := rfl
@[simp] theorem State.busEnded_dev : (s.busEnded).dev = s.dev := rfl
@[simp] theorem State.busEnded_miso : (s.busEnded).miso = s.miso := rfl
@[simp] theorem State.busEnded_choices : (s.busEnded).choices = s.choices := rfl
@[simp] theorem State.busEnded_turns : (s.busEnded).turns = s.turns := rfl

@[simp] theorem State.wbAdvance_par (n : Nat) : (s.wbAdvance n).par = s.par := rfl
@[simp] theorem State.wbAdvance_csId (n : Nat) : (s.wbAdvance n).csId = s.csId := rfl
@[simp] theorem State.wbAdvance_expectedId (n : Nat) : (s.wbAdvance n).expectedId = s.expectedId := rfl
@[simp] theorem State.wbAdvance_savedCfg (n : Nat) : (s.wbAdvance n).savedCfg = s.savedCfg := rfl
@[simp] theorem State.wbAdvance_uidBuf (n : Nat) : (s.wbAdvance n).uidBuf = s.uidBuf := rfl
@[simp] theorem State.wbAdvance_busCfg (n : Nat) : (s.wbAdvance n).busCfg = s.busCfg := rfl
@[simp] theorem State.wbAdvance_ie (n : Nat) : (s.wbAdvance n).ie = s.ie := rfl
@[simp] theorem State.wbAdvance_csDir (n : Nat) : (s.wbAdvance n).csDir = s.csDir := rfl
@[simp] theorem State.wbAdvance_csLevel (n : Nat) : (s.wbAdvance n).csLevel = s.csLevel := rfl
@[simp] theorem State.wbAdvance_busUp (n : Nat) : (s.wbAdvance n).busUp = s.busUp := rfl
@[simp] theorem State.wbAdvance_phase (n : Nat) : (s.wbAdvance n).phase = s.phase := rfl
@[simp] theorem State.wbAdvance_wbAddr (n : Nat) : (s.wbAdvance n).wbAddr = s.wbAddr.map (addrPlus · n) := rfl
@[simp] theorem State.wbAdvance_wbOff (n : Nat) : (s.wbAdvance n).wbOff = s.wbOff.map (· + n) := rfl
@[simp] theorem State.wbAdvance_wbRem (n : Nat) : (s.wbAdvance n).wbRem = s.wbRem.map (· - n) := rfl
@[simp] theorem State.wbAdvance_wbLimit (n : Nat) : (s.wbAdvance n).wbLimit = some Config.pageBytes := rfl
@[simp] theorem State.wbAdvance_ctl (n : Nat) : (s.wbAdvance n).ctl = s.ctl := rfl
@[simp] theorem State.wbAdvance_fault (n : Nat) : (s.wbAdvance n).fault = s.fault := rfl
@[simp] theorem State.wbAdvance_refused (n : Nat) : (s.wbAdvance n).refused = s.refused := rfl
@[simp] theorem State.wbAdvance_trace (n : Nat) : (s.wbAdvance n).trace = s.trace := rfl
@[simp] theorem State.wbAdvance_hreq (n : Nat) : (s.wbAdvance n).hreq = s.hreq := rfl
@[simp] theorem State.wbAdvance_hrsp (n : Nat) : (s.wbAdvance n).hrsp = s.hrsp := rfl
@[simp] theorem State.wbAdvance_dev (n : Nat) : (s.wbAdvance n).dev = s.dev := rfl
@[simp] theorem State.wbAdvance_miso (n : Nat) : (s.wbAdvance n).miso = s.miso := rfl
@[simp] theorem State.wbAdvance_choices (n : Nat) : (s.wbAdvance n).choices = s.choices := rfl
@[simp] theorem State.wbAdvance_turns (n : Nat) : (s.wbAdvance n).turns = s.turns := rfl

@[simp] theorem State.busBegun_par : (s.busBegun).par = s.par := rfl
@[simp] theorem State.busBegun_csId : (s.busBegun).csId = s.csId := rfl
@[simp] theorem State.busBegun_expectedId : (s.busBegun).expectedId = s.expectedId := rfl
@[simp] theorem State.busBegun_savedCfg : (s.busBegun).savedCfg = s.savedCfg := rfl
@[simp] theorem State.busBegun_uidBuf : (s.busBegun).uidBuf = s.uidBuf := rfl
@[simp] theorem State.busBegun_busCfg : (s.busBegun).busCfg = s.busCfg := rfl
@[simp] theorem State.busBegun_ie : (s.busBegun).ie = s.ie := rfl
@[simp] theorem State.busBegun_csDir : (s.busBegun).csDir = s.csDir := rfl
@[simp] theorem State.busBegun_csLevel : (s.busBegun).csLevel = s.csLevel := rfl
@[simp] theorem State.busBegun_busUp : (s.busBegun).busUp = true := rfl
@[simp] theorem State.busBegun_wbAddr : (s.busBegun).wbAddr = s.wbAddr := rfl
@[simp] theorem State.busBegun_wbOff : (s.busBegun).wbOff = s.wbOff := rfl
@[simp] theorem State.busBegun_wbRem : (s.busBegun).wbRem = s.wbRem := rfl
@[simp] theorem State.busBegun_wbLimit : (s.busBegun).wbLimit = s.wbLimit := rfl
@[simp] theorem State.busBegun_ctl : (s.busBegun).ctl = s.ctl := rfl
@[simp] theorem State.busBegun_fault : (s.busBegun).fault = s.fault := rfl
@[simp] theorem State.busBegun_refused : (s.busBegun).refused = s.refused := rfl
@[simp] theorem State.busBegun_trace : (s.busBegun).trace = s.trace := rfl
@[simp] theorem State.busBegun_hreq : (s.busBegun).hreq = s.hreq := rfl
@[simp] theorem State.busBegun_hrsp : (s.busBegun).hrsp = s.hrsp := rfl
@[simp] theorem State.busBegun_dev : (s.busBegun).dev = s.dev := rfl
@[simp] theorem State.busBegun_miso : (s.busBegun).miso = s.miso := rfl
@[simp] theorem State.busBegun_choices : (s.busBegun).choices = s.choices := rfl
@[simp] theorem State.busBegun_turns : (s.busBegun).turns = s.turns := rfl

@[simp] theorem State.withFetchWord_par (nbits w : Nat) : (s.withFetchWord nbits w).par = s.par := rfl
@[simp] theorem State.withFetchWord_csId (nbits w : Nat) : (s.withFetchWord nbits w).csId = s.csId := rfl
@[simp] theorem State.withFetchWord_expectedId (nbits w : Nat) : (s.withFetchWord nbits w).expectedId = s.expectedId := rfl
@[simp] theorem State.withFetchWord_savedCfg (nbits w : Nat) : (s.withFetchWord nbits w).savedCfg = s.savedCfg := rfl
@[simp] theorem State.withFetchWord_uidBuf (nbits w : Nat) : (s.withFetchWord nbits w).uidBuf = s.uidBuf := rfl
@[simp] theorem State.withFetchWord_busCfg (nbits w : Nat) : (s.withFetchWord nbits w).busCfg = s.busCfg := rfl
@[simp] theorem State.withFetchWord_ie (nbits w : Nat) : (s.withFetchWord nbits w).ie = s.ie := rfl
@[simp] theorem State.withFetchWord_csDir (nbits w : Nat) : (s.withFetchWord nbits w).csDir = s.csDir := rfl
@[simp] theorem State.withFetchWord_csLevel (nbits w : Nat) : (s.withFetchWord nbits w).csLevel = s.csLevel := rfl
@[simp] theorem State.withFetchWord_busUp (nbits w : Nat) : (s.withFetchWord nbits w).busUp = s.busUp := rfl
@[simp] theorem State.withFetchWord_phase (nbits w : Nat) : (s.withFetchWord nbits w).phase = s.phase := rfl
@[simp] theorem State.withFetchWord_wbAddr (nbits w : Nat) : (s.withFetchWord nbits w).wbAddr = s.wbAddr := rfl
@[simp] theorem State.withFetchWord_wbOff (nbits w : Nat) : (s.withFetchWord nbits w).wbOff = s.wbOff := rfl
@[simp] theorem State.withFetchWord_wbRem (nbits w : Nat) : (s.withFetchWord nbits w).wbRem = s.wbRem := rfl
@[simp] theorem State.withFetchWord_wbLimit (nbits w : Nat) : (s.withFetchWord nbits w).wbLimit = s.wbLimit := rfl
@[simp] theorem State.withFetchWord_ctl (nbits w : Nat) : (s.withFetchWord nbits w).ctl = .idle := rfl
@[simp] theorem State.withFetchWord_fault (nbits w : Nat) : (s.withFetchWord nbits w).fault = s.fault := rfl
@[simp] theorem State.withFetchWord_refused (nbits w : Nat) : (s.withFetchWord nbits w).refused = s.refused := rfl
@[simp] theorem State.withFetchWord_trace (nbits w : Nat) : (s.withFetchWord nbits w).trace = s.trace := rfl
@[simp] theorem State.withFetchWord_hreq (nbits w : Nat) : (s.withFetchWord nbits w).hreq = fetchMoveOf s.par nbits w :: s.hreq := rfl
@[simp] theorem State.withFetchWord_hrsp (nbits w : Nat) : (s.withFetchWord nbits w).hrsp = s.hrsp := rfl
@[simp] theorem State.withFetchWord_dev (nbits w : Nat) : (s.withFetchWord nbits w).dev = s.dev := rfl
@[simp] theorem State.withFetchWord_miso (nbits w : Nat) : (s.withFetchWord nbits w).miso = s.miso := rfl
@[simp] theorem State.withFetchWord_choices (nbits w : Nat) : (s.withFetchWord nbits w).choices = fetchChoices s := rfl
@[simp] theorem State.withFetchWord_turns (nbits w : Nat) : (s.withFetchWord nbits w).turns = s.turns := rfl

end Sys2Proof.Machine
end

