-- ==== Sys2Proof/Laws/Sequencer.lean ====
section
/-! SUPPORT. Laws/Sequencer.lean: what a run of the sequencer does, one lemma per position of the pseudocode and one for
a run up to its end, so that a proof about an operation cites them and never unfolds `seqStep` or `drain`. -/

namespace Sys2Proof.Machine

/-- Does the position list begin at the suspension point (R112)? -/
def suspends : List Micro → Bool
  | .waitAgain :: _ => true
  | _ => false

/-- `k` sequencer steps from `s` to `t`, none of which settles. -/
inductive Steps : Nat → State → State → Prop where
  | refl (s : State) : Steps 0 s s
  | step {k : Nat} {s t : State} : (seqStep s).settled = false → Steps k (seqStep s) t → Steps (k + 1) s t

theorem Steps.trans {j k : Nat} {s t u : State} (h : Steps j s t) (h' : Steps k t u) : Steps (j + k) s u := by
  induction h with
  | refl => simpa using h'
  | step hs _ ih => rw [Nat.add_right_comm]; exact .step hs (ih h')

/-- A run is the beginning of any longer drain. -/
theorem Steps.drain {k : Nat} {s t : State} (h : Steps k s t) (n : Nat) : drain (k + n) s = drain n t := by
  induction h with
  | refl => simp
  | step hs _ ih => rw [Nat.add_right_comm, Machine.drain, hs]; simpa using ih

/-- A run whose next step settles is the whole drain. -/
theorem Steps.drain_end {k n : Nat} {s t : State} (h : Steps k s t) (ht : (seqStep t).settled = true) (hk : k < n) :
    Machine.drain n s = seqStep t := by
  obtain ⟨m, rfl⟩ : ∃ m, n = k + (m + 1) := ⟨n - k - 1, by omega⟩
  rw [h.drain, Machine.drain, ht]; rfl

/-- A property that every sequencer step keeps, a drain keeps. -/
theorem drain_keeps {P : State → Prop} (h : ∀ s, P s → P (seqStep s)) : ∀ n s, P s → P (drain n s)
  | 0, _, hs => hs
  | n + 1, s, hs => by
    rw [drain]
    split
    · exact h s hs
    · exact drain_keeps h n _ (h s hs)

variable {s : State} {req : Instr} {ms : List Micro} {g : List Byte} {p : Option Byte}

/-- A state inside a request, not at its suspension point, is not settled. -/
theorem unsettled (hf : s.fault = none) (hm : suspends ms = false) :
    State.settled { s with ctl := .active req ms g p } = false := by
  unfold State.settled
  simp only [hf, Option.isSome_none, Bool.false_or]
  split
  · rename_i h; cases h
  · rename_i h; cases h; simp [suspends] at hm
  · rfl

/-- One step to a position inside the request is a run. -/
theorem Steps.one {t : State} (h : seqStep s = { t with ctl := .active req ms g p }) (hf : t.fault = none)
    (hm : suspends ms = false) : Steps 1 s { t with ctl := .active req ms g p } := by
  have := unsettled (req := req) (g := g) (p := p) hf hm
  rw [← h] at this ⊢
  exact .step this (.refl _)

/-- A run that reaches a `return` is the whole drain. -/
theorem Steps.returns {k n : Nat} {s t : State} {req : Instr} {ms : List Micro} {g : List Byte} {p : Option Byte}
    {r : Response} {c : Ret} (h : Steps k s { t with ctl := .active req (.ret c :: ms) g p })
    (hr : responseOf c g t.uidBuf.toList = some r) (hk : k < n) : Machine.drain n s = t.respond r := by
  have e : seqStep { t with ctl := .active req (.ret c :: ms) g p } = t.respond r := by
    simp only [seqStep, microStep, hr]; rfl
  rw [h.drain_end (by rw [e]; simp [State.settled, State.respond]) hk, e]

/-- An admitted request runs (R204). -/
theorem hostRequest_next {i : Instr} {prog : List Micro} (hf : s.fault = none) (hc : s.ctl = .idle)
    (ha : admits s i = true) :
    hostRequest i prog s = .next (drain (fuelOf i) { s with ctl := .active i prog [] none }) := by
  simp [hostRequest, whenIdle, hf, hc, ha, State.begin]

/-- A hand-built transaction runs (R80). -/
theorem wireTransaction_next {i : Instr} {prog : List Micro} (hf : s.fault = none) (hc : s.ctl = .idle) :
    wireTransaction i prog s = .next (drain (fuelOf i) { s with ctl := .active i prog [] none }) := by
  simp [wireTransaction, whenIdle, hf, hc, State.begin]

/-! ## One position -/

theorem select_ok (h1 : s.csDir = .output) (h2 : s.csLevel = some true) : select s = .ok s.selected := by
  simp [select, h1, h2]

theorem unselect_ok {c : Cfg} (h1 : s.csLevel = some false) (h2 : s.savedCfg = some c) :
    unselect s = .ok (s.unselected c) := by
  simp [unselect, h1, h2]

theorem xfer_ok (b : Byte) (h : s.csLevel = some false) : xfer b s = .ok ((s.answer b).1, s.xferred b) := by
  simp [xfer, h]

theorem tx_ok (b : Byte) (h : s.csLevel = some false) : tx b s = .ok (s.xferred b) := by
  simp [tx, xfer_ok b h, Except.map]

theorem txDefined_ok {o : Option Byte} {b : Byte} (ho : o = some b) (h : s.csLevel = some false) :
    txDefined o s = .ok (s.xferred b) := by
  rw [ho]; exact tx_ok b h

theorem seqStep_sel (h1 : s.csDir = .output) (h2 : s.csLevel = some true) :
    seqStep { s with ctl := .active req (.sel :: ms) g p } = { s.selected with ctl := .active req ms g p } := by
  have := select_ok (s := { s with ctl := .active req (.sel :: ms) g p }) h1 h2
  simp only [seqStep, microStep, this]; rfl

theorem seqStep_unsel {c : Cfg} (h1 : s.csLevel = some false) (h2 : s.savedCfg = some c) :
    seqStep { s with ctl := .active req (.unsel :: ms) g p } = { s.unselected c with ctl := .active req ms g p } := by
  have := unselect_ok (s := { s with ctl := .active req (.unsel :: ms) g p }) h1 h2
  simp only [seqStep, microStep, this]; rfl

theorem seqStep_tx {b : Byte} (h : s.csLevel = some false) :
    seqStep { s with ctl := .active req (.tx b :: ms) g p } = { s.xferred b with ctl := .active req ms g p } := by
  have := tx_ok (s := { s with ctl := .active req (.tx b :: ms) g p }) b h
  simp only [seqStep, microStep, this]; rfl

theorem seqStep_txWbHigh {a : Addr} (h : s.csLevel = some false) (ha : s.wbAddr = some a) :
    seqStep { s with ctl := .active req (.txWbHigh :: ms) g p } =
      { s.xferred (addrHigh a) with ctl := .active req ms g p } := by
  have := txDefined_ok (s := { s with ctl := .active req (.txWbHigh :: ms) g p }) (o := s.wbAddr.map addrHigh)
    (b := addrHigh a) (by simp [ha]) h
  simp only [seqStep, microStep, this]; rfl

theorem seqStep_txWbMid {a : Addr} (h : s.csLevel = some false) (ha : s.wbAddr = some a) :
    seqStep { s with ctl := .active req (.txWbMid :: ms) g p } =
      { s.xferred (addrMid a) with ctl := .active req ms g p } := by
  have := txDefined_ok (s := { s with ctl := .active req (.txWbMid :: ms) g p }) (o := s.wbAddr.map addrMid)
    (b := addrMid a) (by simp [ha]) h
  simp only [seqStep, microStep, this]; rfl

theorem seqStep_txWbLow {a : Addr} (h : s.csLevel = some false) (ha : s.wbAddr = some a) :
    seqStep { s with ctl := .active req (.txWbLow :: ms) g p } =
      { s.xferred (addrLow a) with ctl := .active req ms g p } := by
  have := txDefined_ok (s := { s with ctl := .active req (.txWbLow :: ms) g p }) (o := s.wbAddr.map addrLow)
    (b := addrLow a) (by simp [ha]) h
  simp only [seqStep, microStep, this]; rfl

theorem seqStep_txBuf {i off : Nat} {b : Byte} (h : s.csLevel = some false) (ho : s.wbOff = some off)
    (hb : (bufferOf req)[off + i]? = some b) :
    seqStep { s with ctl := .active req (.txBuf i :: ms) g p } = { s.xferred b with ctl := .active req ms g p } := by
  have h2 : State.bufferByte { s with ctl := .active req (.txBuf i :: ms) g p } req i = some b := by
    simp [State.bufferByte, ho, hb]
  have := txDefined_ok (s := { s with ctl := .active req (.txBuf i :: ms) g p }) h2 h
  simp only [seqStep, microStep, this]; rfl

theorem seqStep_rx (h : s.csLevel = some false) :
    seqStep { s with ctl := .active req (.rx :: ms) g p } =
      { s.xferred s.par.fillByte with ctl := .active req ms (g ++ [(s.answer s.par.fillByte).1]) p } := by
  have := xfer_ok (s := { s with ctl := .active req (.rx :: ms) g p }) s.par.fillByte h
  simp only [seqStep, microStep, rx, this]; rfl

theorem seqStep_rxUid {i : Fin 8} (h : s.csLevel = some false) :
    seqStep { s with ctl := .active req (.rxUid i :: ms) g p } =
      { s.xferred s.par.fillByte with
        uidBuf := s.uidBuf.set i (some (s.answer s.par.fillByte).1), ctl := .active req ms g p } := by
  have := xfer_ok (s := { s with ctl := .active req (.rxUid i :: ms) g p }) s.par.fillByte h
  simp only [seqStep, microStep, rx, this]; rfl

theorem seqStep_rxPoll (h : s.csLevel = some false) :
    seqStep { s with ctl := .active req (.rxPoll :: ms) g p } =
      { s.xferred s.par.fillByte with ctl := .active req ms g (some (s.answer s.par.fillByte).1) } := by
  have := xfer_ok (s := { s with ctl := .active req (.rxPoll :: ms) g p }) s.par.fillByte h
  simp only [seqStep, microStep, rx, this]; rfl

theorem seqStep_wait :
    seqStep { s with ctl := .active req (.wait :: ms) g p } = { s with ctl := .active req (pollBody ++ ms) g p } := rfl

theorem seqStep_waitAgain :
    seqStep { s with ctl := .active req (.waitAgain :: ms) g p } =
      { s with ctl := .active req (pollBody ++ ms) g p } := rfl

theorem seqStep_pollTest {b : Byte} :
    seqStep { s with ctl := .active req (.pollTest :: ms) g (some b) } =
      { s with ctl := .active req (if busyOf b then .waitAgain :: ms else ms) g (some b) } := rfl

theorem seqStep_ret {k : Ret} {r : Response} (h : responseOf k g s.uidBuf.toList = some r) :
    seqStep { s with ctl := .active req (.ret k :: ms) g p } = s.respond r := by
  simp only [seqStep, microStep, h]; rfl

/-- A return settles. -/
theorem settled_respond (r : Response) : (s.respond r).settled = true := by
  simp [State.settled, State.respond]

/-! ## The bytes of a transaction -/

@[simp] theorem sent_nil (s : State) : s.sent [] = s := rfl
@[simp] theorem sent_cons (s : State) (b : Byte) (bs : List Byte) : s.sent (b :: bs) = (s.xferred b).sent bs := rfl

theorem sent_append (s : State) (xs ys : List Byte) : s.sent (xs ++ ys) = (s.sent xs).sent ys := by
  induction xs generalizing s with
  | nil => rfl
  | cons b bs ih => exact ih _

theorem heard_append (s : State) (xs ys : List Byte) : s.heard (xs ++ ys) = s.heard xs ++ (s.sent xs).heard ys := by
  induction xs generalizing s with
  | nil => rfl
  | cons b bs ih => simp only [List.cons_append, State.heard, ih, sent_cons]

@[simp] theorem heard_length (s : State) (xs : List Byte) : (s.heard xs).length = xs.length := by
  induction xs generalizing s with
  | nil => rfl
  | cons b bs ih => simp [State.heard, ih]

/-- Exchanges touch the trace, the MISO script and the device only. -/
theorem sent_eq (s : State) (bs : List Byte) :
    ∃ tr q d, s.sent bs = { s with trace := tr, miso := q, dev := d } := by
  induction bs generalizing s with
  | nil => exact ⟨_, _, _, rfl⟩
  | cons b bs ih =>
    obtain ⟨tr, q, d, h⟩ := ih (s.xferred b)
    exact ⟨tr, q, d, by rw [sent_cons, h]; rfl⟩

section
variable (bs : List Byte)

@[simp] theorem sent_par : (s.sent bs).par = s.par := by obtain ⟨_, _, _, h⟩ := sent_eq s bs; rw [h]
@[simp] theorem sent_csId : (s.sent bs).csId = s.csId := by obtain ⟨_, _, _, h⟩ := sent_eq s bs; rw [h]
@[simp] theorem sent_expectedId : (s.sent bs).expectedId = s.expectedId := by obtain ⟨_, _, _, h⟩ := sent_eq s bs; rw [h]
@[simp] theorem sent_savedCfg : (s.sent bs).savedCfg = s.savedCfg := by obtain ⟨_, _, _, h⟩ := sent_eq s bs; rw [h]
@[simp] theorem sent_uidBuf : (s.sent bs).uidBuf = s.uidBuf := by obtain ⟨_, _, _, h⟩ := sent_eq s bs; rw [h]
@[simp] theorem sent_busCfg : (s.sent bs).busCfg = s.busCfg := by obtain ⟨_, _, _, h⟩ := sent_eq s bs; rw [h]
@[simp] theorem sent_ie : (s.sent bs).ie = s.ie := by obtain ⟨_, _, _, h⟩ := sent_eq s bs; rw [h]
@[simp] theorem sent_csDir : (s.sent bs).csDir = s.csDir := by obtain ⟨_, _, _, h⟩ := sent_eq s bs; rw [h]
@[simp] theorem sent_csLevel : (s.sent bs).csLevel = s.csLevel := by obtain ⟨_, _, _, h⟩ := sent_eq s bs; rw [h]
@[simp] theorem sent_busUp : (s.sent bs).busUp = s.busUp := by obtain ⟨_, _, _, h⟩ := sent_eq s bs; rw [h]
@[simp] theorem sent_phase : (s.sent bs).phase = s.phase := by obtain ⟨_, _, _, h⟩ := sent_eq s bs; rw [h]
@[simp] theorem sent_wbAddr : (s.sent bs).wbAddr = s.wbAddr := by obtain ⟨_, _, _, h⟩ := sent_eq s bs; rw [h]
@[simp] theorem sent_wbOff : (s.sent bs).wbOff = s.wbOff := by obtain ⟨_, _, _, h⟩ := sent_eq s bs; rw [h]
@[simp] theorem sent_wbRem : (s.sent bs).wbRem = s.wbRem := by obtain ⟨_, _, _, h⟩ := sent_eq s bs; rw [h]
@[simp] theorem sent_wbLimit : (s.sent bs).wbLimit = s.wbLimit := by obtain ⟨_, _, _, h⟩ := sent_eq s bs; rw [h]
@[simp] theorem sent_ctl : (s.sent bs).ctl = s.ctl := by obtain ⟨_, _, _, h⟩ := sent_eq s bs; rw [h]
@[simp] theorem sent_fault : (s.sent bs).fault = s.fault := by obtain ⟨_, _, _, h⟩ := sent_eq s bs; rw [h]
@[simp] theorem sent_refused : (s.sent bs).refused = s.refused := by obtain ⟨_, _, _, h⟩ := sent_eq s bs; rw [h]
@[simp] theorem sent_hreq : (s.sent bs).hreq = s.hreq := by obtain ⟨_, _, _, h⟩ := sent_eq s bs; rw [h]
@[simp] theorem sent_hrsp : (s.sent bs).hrsp = s.hrsp := by obtain ⟨_, _, _, h⟩ := sent_eq s bs; rw [h]
@[simp] theorem sent_choices : (s.sent bs).choices = s.choices := by obtain ⟨_, _, _, h⟩ := sent_eq s bs; rw [h]
end

/-- The events of a list of exchanges. -/
def xferEvents (mosi miso : List Byte) : List Event := List.zipWith .xfer mosi miso

theorem sent_trace (s : State) (bs : List Byte) : (s.sent bs).trace = s.trace ++ xferEvents bs (s.heard bs) := by
  induction bs generalizing s with
  | nil => simp [xferEvents, State.heard]
  | cons b bs ih => rw [sent_cons, ih]; simp [xferEvents, State.heard]

/-- A whole transaction touches these elements only (R100-R102). -/
theorem transacted_eq (s : State) (bs : List Byte) :
    ∃ tr q d ch, s.transacted bs =
      { s with ie := true, savedCfg := some s.busCfg, csLevel := some true, trace := tr, miso := q, dev := d,
               choices := ch } := by
  obtain ⟨tr, q, d, h⟩ := sent_eq s.selected bs
  exact ⟨tr ++ [.unsel], q, _, _, by rw [State.transacted, h]; rfl⟩

section
variable (bs : List Byte)

@[simp] theorem transacted_par : (s.transacted bs).par = s.par := by obtain ⟨_, _, _, _, h⟩ := transacted_eq s bs; rw [h]
@[simp] theorem transacted_csId : (s.transacted bs).csId = s.csId := by obtain ⟨_, _, _, _, h⟩ := transacted_eq s bs; rw [h]
@[simp] theorem transacted_expectedId : (s.transacted bs).expectedId = s.expectedId := by obtain ⟨_, _, _, _, h⟩ := transacted_eq s bs; rw [h]
@[simp] theorem transacted_savedCfg : (s.transacted bs).savedCfg = some s.busCfg := by obtain ⟨_, _, _, _, h⟩ := transacted_eq s bs; rw [h]
@[simp] theorem transacted_uidBuf : (s.transacted bs).uidBuf = s.uidBuf := by obtain ⟨_, _, _, _, h⟩ := transacted_eq s bs; rw [h]
@[simp] theorem transacted_busCfg : (s.transacted bs).busCfg = s.busCfg := by obtain ⟨_, _, _, _, h⟩ := transacted_eq s bs; rw [h]
@[simp] theorem transacted_ie : (s.transacted bs).ie = true := by obtain ⟨_, _, _, _, h⟩ := transacted_eq s bs; rw [h]
@[simp] theorem transacted_csDir : (s.transacted bs).csDir = s.csDir := by obtain ⟨_, _, _, _, h⟩ := transacted_eq s bs; rw [h]
@[simp] theorem transacted_csLevel : (s.transacted bs).csLevel = some true := by obtain ⟨_, _, _, _, h⟩ := transacted_eq s bs; rw [h]
@[simp] theorem transacted_busUp : (s.transacted bs).busUp = s.busUp := by obtain ⟨_, _, _, _, h⟩ := transacted_eq s bs; rw [h]
@[simp] theorem transacted_phase : (s.transacted bs).phase = s.phase := by obtain ⟨_, _, _, _, h⟩ := transacted_eq s bs; rw [h]
@[simp] theorem transacted_wbAddr : (s.transacted bs).wbAddr = s.wbAddr := by obtain ⟨_, _, _, _, h⟩ := transacted_eq s bs; rw [h]
@[simp] theorem transacted_wbOff : (s.transacted bs).wbOff = s.wbOff := by obtain ⟨_, _, _, _, h⟩ := transacted_eq s bs; rw [h]
@[simp] theorem transacted_wbRem : (s.transacted bs).wbRem = s.wbRem := by obtain ⟨_, _, _, _, h⟩ := transacted_eq s bs; rw [h]
@[simp] theorem transacted_wbLimit : (s.transacted bs).wbLimit = s.wbLimit := by obtain ⟨_, _, _, _, h⟩ := transacted_eq s bs; rw [h]
@[simp] theorem transacted_ctl : (s.transacted bs).ctl = s.ctl := by obtain ⟨_, _, _, _, h⟩ := transacted_eq s bs; rw [h]
@[simp] theorem transacted_fault : (s.transacted bs).fault = s.fault := by obtain ⟨_, _, _, _, h⟩ := transacted_eq s bs; rw [h]
@[simp] theorem transacted_refused : (s.transacted bs).refused = s.refused := by obtain ⟨_, _, _, _, h⟩ := transacted_eq s bs; rw [h]
@[simp] theorem transacted_hreq : (s.transacted bs).hreq = s.hreq := by obtain ⟨_, _, _, _, h⟩ := transacted_eq s bs; rw [h]
@[simp] theorem transacted_hrsp : (s.transacted bs).hrsp = s.hrsp := by obtain ⟨_, _, _, _, h⟩ := transacted_eq s bs; rw [h]
end

/-- The trace a whole transaction appends (R80). -/
theorem transacted_trace (s : State) (bs : List Byte) :
    (s.transacted bs).trace = s.trace ++ .sel :: (xferEvents bs (s.heardIn bs) ++ [.unsel]) := by
  have h := sent_trace s.selected bs
  simp only [State.transacted, State.unselected, h, State.selected_trace, State.heardIn]
  simp

/-- A transaction with an external device and a script hears the script (D15). -/
theorem sent_external {s : State} (h : s.dev.model = .external) :
    ∀ (bs script rest : List Byte), script.length = bs.length → s.miso = script ++ rest →
      s.heard bs = script ∧
        s.sent bs = { s with trace := s.trace ++ List.zipWith .xfer bs script, miso := rest } := by
  intro bs
  induction bs generalizing s with
  | nil =>
    intro script rest hl hm
    obtain rfl : script = [] := by simpa using hl
    simp at hm; subst hm; simp [State.heard]
  | cons b bs ih =>
    intro script rest hl hm
    rcases script with _ | ⟨r, script⟩
    · simp at hl
    · have e2 : s.answer b = (r, script ++ rest) := by simp [State.answer, Device.reply, h, hm, drawMiso]
      have e3 : s.dev.absorb b = s.dev := by simp [Device.absorb, h]
      have := ih (s := s.xferred b) (by simp [e3, h]) script rest (by simpa using hl) (by simp [e2])
      simp only [State.heard, State.sent]
      rw [this.1, this.2, e2]
      simp [State.xferred, e2, e3]

/-! ## Runs of several positions -/

/-- A list of known bytes sent. -/
theorem steps_tx (hf : s.fault = none) (hl : s.csLevel = some false) (hm : suspends ms = false) (bs : List Byte) :
    Steps bs.length { s with ctl := .active req (bs.map .tx ++ ms) g p } { s.sent bs with ctl := .active req ms g p } := by
  induction bs generalizing s with
  | nil => exact .refl _
  | cons b bs ih =>
    have h1 : suspends (bs.map Micro.tx ++ ms) = false := by cases bs <;> simp_all [suspends]
    have := (Steps.one (seqStep_tx (req := req) (g := g) (p := p) (b := b) hl) hf h1).trans (ih (s := s.xferred b) hf hl)
    rw [Nat.add_comm] at this
    exact this

/-- `n` receives into the local list. -/
theorem steps_rx (hf : s.fault = none) (hl : s.csLevel = some false) (hm : suspends ms = false) (n : Nat) {f : Byte}
    (hp : s.par.fillByte = f) :
    Steps n { s with ctl := .active req (rxMany n ++ ms) g p }
      { s.sent (List.replicate n f) with ctl := .active req ms (g ++ s.heard (List.replicate n f)) p } := by
  subst hp
  induction n generalizing s g with
  | zero => simpa [rxMany, State.heard] using Steps.refl _
  | succ n ih =>
    have h1 : suspends (rxMany n ++ ms) = false := by cases n <;> simp_all [suspends, rxMany, List.replicate_succ]
    have h2 := Steps.one (seqStep_rx (req := req) (g := g) (p := p) hl) hf h1
    have := h2.trans (ih (s := s.xferred s.par.fillByte) (g := g ++ [(s.answer s.par.fillByte).1]) hf hl)
    rw [Nat.add_comm] at this
    simpa [rxMany, List.replicate_succ, State.heard, List.append_assoc] using this

/-- SELECT and the opcode: a transaction opened with known bytes. -/
theorem steps_open (hf : s.fault = none) (h1 : s.csDir = .output) (h2 : s.csLevel = some true)
    (hm : suspends ms = false) (bs : List Byte) :
    Steps (bs.length + 1) { s with ctl := .active req (.sel :: (bs.map .tx ++ ms)) g p }
      { s.selected.sent bs with ctl := .active req ms g p } := by
  have h3 : suspends (bs.map Micro.tx ++ ms) = false := by cases bs <;> simp_all [suspends]
  have := (Steps.one (seqStep_sel (req := req) (g := g) (p := p) h1 h2) hf h3).trans
    (steps_tx (s := s.selected) (req := req) (g := g) (p := p) hf rfl hm bs)
  rw [Nat.add_comm] at this
  exact this

/-- UNSELECT after the exchanges of a transaction. -/
theorem steps_close (hf : s.fault = none) (hm : suspends ms = false) (bs : List Byte) :
    Steps 1 { s.selected.sent bs with ctl := .active req (.unsel :: ms) g p }
      { s.transacted bs with ctl := .active req ms g p } := by
  have := seqStep_unsel (s := s.selected.sent bs) (req := req) (ms := ms) (g := g) (p := p) (c := s.busCfg) (by simp)
    (by simp)
  exact Steps.one this (by simp [hf]) hm

/-- A whole transaction of known bytes. -/
theorem steps_transaction (hf : s.fault = none) (h1 : s.csDir = .output) (h2 : s.csLevel = some true)
    (hm : suspends ms = false) (bs : List Byte) :
    Steps (bs.length + 2) { s with ctl := .active req (.sel :: (bs.map .tx ++ .unsel :: ms)) g p }
      { s.transacted bs with ctl := .active req ms g p } :=
  (steps_open hf h1 h2 (by rfl) bs).trans (steps_close hf hm bs)

/-- A whole transaction of known bytes with `n` receives at its end. -/
theorem steps_read (hf : s.fault = none) (h1 : s.csDir = .output) (h2 : s.csLevel = some true)
    (hm : suspends ms = false) (bs : List Byte) (n : Nat) :
    Steps (bs.length + n + 2) { s with ctl := .active req (.sel :: (bs.map .tx ++ (rxMany n ++ .unsel :: ms))) g p }
      { s.transacted (bs ++ List.replicate n s.par.fillByte) with
        ctl := .active req ms (g ++ (s.heardIn (bs ++ List.replicate n s.par.fillByte)).drop bs.length) p } := by
  have h0 : suspends (rxMany n ++ .unsel :: ms) = false := by cases n <;> simp [suspends, rxMany, List.replicate_succ]
  have e1 := steps_open (s := s) (req := req) (g := g) (p := p) (ms := rxMany n ++ .unsel :: ms) hf h1 h2 h0 bs
  have e2 := steps_rx (s := s.selected.sent bs) (req := req) (g := g) (p := p) (ms := .unsel :: ms) (by simp [hf])
    (by simp) rfl n (f := s.par.fillByte) (by simp)
  have e3 := steps_close (s := s) (req := req)
    (g := g ++ (s.heardIn (bs ++ List.replicate n s.par.fillByte)).drop bs.length) (p := p) (ms := ms) hf hm
    (bs ++ List.replicate n s.par.fillByte)
  have hh : (s.heardIn (bs ++ List.replicate n s.par.fillByte)).drop bs.length =
      (s.selected.sent bs).heard (List.replicate n s.par.fillByte) := by
    rw [State.heardIn, heard_append, List.drop_left' (by simp)]
  rw [hh] at e3 ⊢
  rw [sent_append] at e3
  have := (e1.trans e2).trans e3
  rw [show bs.length + 1 + n + 1 = bs.length + n + 2 by omega] at this
  exact this

/-- The unique-ID buffer after receives into the given entries. -/
def setAll : Vector (Option Byte) 8 → List (Fin 8) → List Byte → Vector (Option Byte) 8
  | v, i :: is, b :: bs => setAll (v.set i (some b)) is bs
  | v, _, _ => v

/-- The exchanges do not see the unique-ID buffer. -/
theorem sent_withUid (s : State) (v : Vector (Option Byte) 8) (bs : List Byte) :
    State.heard { s with uidBuf := v } bs = s.heard bs ∧
      State.sent { s with uidBuf := v } bs = { s.sent bs with uidBuf := v } := by
  induction bs generalizing s with
  | nil => exact ⟨rfl, rfl⟩
  | cons b bs ih =>
    have := ih (s.xferred b)
    exact ⟨congrArg _ this.1, this.2⟩

/-- Receives into entries of the unique-ID buffer. -/
theorem steps_rxUids (hf : s.fault = none) (hl : s.csLevel = some false) (hm : suspends ms = false) {f : Byte}
    (hp : s.par.fillByte = f) (is : List (Fin 8)) :
    Steps is.length { s with ctl := .active req (is.map .rxUid ++ ms) g p }
      { s.sent (List.replicate is.length f) with
        uidBuf := setAll s.uidBuf is (s.heard (List.replicate is.length f)), ctl := .active req ms g p } := by
  induction is generalizing s with
  | nil => simpa [setAll, State.heard] using Steps.refl _
  | cons i is ih =>
    have h1 : suspends (is.map Micro.rxUid ++ ms) = false := by cases is <;> simp_all [suspends]
    have e := seqStep_rxUid (s := s) (req := req) (ms := is.map .rxUid ++ ms) (g := g) (p := p) (i := i) hl
    rw [hp] at e
    have e1 := Steps.one (t := { s.xferred f with uidBuf := s.uidBuf.set i (some (s.answer f).1) }) e hf h1
    have e2 := ih (s := { s.xferred f with uidBuf := s.uidBuf.set i (some (s.answer f).1) }) hf hl hp
    obtain ⟨u1, u2⟩ := sent_withUid (s.xferred f) (s.uidBuf.set i (some (s.answer f).1)) (List.replicate is.length f)
    rw [u1, u2] at e2
    have e3 := e1.trans e2
    rw [Nat.add_comm] at e3
    exact e3

theorem setAll_all (v : Vector (Option Byte) 8) (u : Vector Byte 8) : setAll v [0, 1, 2, 3, 4, 5, 6, 7] u.toList = u.map some := by
  have : u.toList = [u[0], u[1], u[2], u[3], u[4], u[5], u[6], u[7]] := by
    apply List.ext_getElem
    · simp
    · intro i h1 h2
      simp at h1
      have : i = 0 ∨ i = 1 ∨ i = 2 ∨ i = 3 ∨ i = 4 ∨ i = 5 ∨ i = 6 ∨ i = 7 := by omega
      rcases this with rfl | rfl | rfl | rfl | rfl | rfl | rfl | rfl <;> simp
  rw [this]
  simp only [setAll]
  ext i hi : 1
  have : i = 0 ∨ i = 1 ∨ i = 2 ∨ i = 3 ∨ i = 4 ∨ i = 5 ∨ i = 6 ∨ i = 7 := by omega
  rcases this with rfl | rfl | rfl | rfl | rfl | rfl | rfl | rfl <;> simp

/-- A poll up to its UNSELECT (R105). -/
theorem steps_poll_open (hf : s.fault = none) (h1 : s.csDir = .output) (h2 : s.csLevel = some true) :
    Steps 3 { s with ctl := .active req (.sel :: .tx 0x05#8 :: .rxPoll :: .unsel :: ms) g p }
      { s.selected.sent s.pollBytes with ctl := .active req (.unsel :: ms) g (some s.pollByte) } := by
  have e1 := steps_open (s := s) (req := req) (g := g) (p := p) (ms := .rxPoll :: .unsel :: ms) hf h1 h2 rfl [0x05#8]
  have e2 := Steps.one (seqStep_rxPoll (s := s.selected.sent [0x05#8]) (req := req) (g := g) (p := p)
    (ms := .unsel :: ms) (by simp)) (by simp [hf]) rfl
  have hb : (some ((s.selected.sent [0x05#8]).answer (s.selected.sent [0x05#8]).par.fillByte).1) = some s.pollByte := by
    simp [State.pollBytes, State.pollByte, State.heardIn, State.heard]
  rw [hb] at e2
  exact e1.trans e2

/-- One iteration of the ready-wait, up to its test (R107). -/
theorem steps_poll (hf : s.fault = none) (h1 : s.csDir = .output) (h2 : s.csLevel = some true) :
    Steps 4 { s with ctl := .active req (pollBody ++ ms) g p }
      { s.polled with ctl := .active req (.pollTest :: ms) g (some s.pollByte) } :=
  (steps_poll_open (ms := .pollTest :: ms) hf h1 h2).trans
    (steps_close (s := s) (req := req) (g := g) (p := some s.pollByte) (ms := .pollTest :: ms) hf rfl s.pollBytes)

/-- A ready-wait whose first poll reads ready (R107). -/
theorem steps_wait_ready (hf : s.fault = none) (h1 : s.csDir = .output) (h2 : s.csLevel = some true)
    (hm : suspends ms = false) (hr : s.pollsReady) :
    Steps 6 { s with ctl := .active req (.wait :: ms) g p }
      { s.polled with ctl := .active req ms g (some s.pollByte) } := by
  have e1 := Steps.one (seqStep_wait (s := s) (req := req) (ms := ms) (g := g) (p := p)) hf rfl
  have e2 := steps_poll (s := s) (req := req) (ms := ms) (g := g) (p := p) hf h1 h2
  have e3 := seqStep_pollTest (s := s.polled) (req := req) (ms := ms) (g := g) (b := s.pollByte)
  rw [hr] at e3
  exact (e1.trans e2).trans (Steps.one e3 (by simp [State.polled, hf]) hm)

/-- The write-enable transaction whose ready-wait, if any, reads ready at once (R108). -/
theorem steps_writeEnable (hf : s.fault = none) (h1 : s.csDir = .output) (h2 : s.csLevel = some true)
    (hm : suspends ms = false) (hr : s.prepollReady) :
    ∃ k q, k ≤ 9 ∧ Steps k { s with ctl := .active req (writeEnableTxn s.par ++ ms) g p }
      { s.writeEnabled with ctl := .active req ms g q } := by
  by_cases hw : s.par.wePrepoll = true
  · have e1 := steps_wait_ready (s := s) (req := req) (g := g) (p := p) (ms := .sel :: .tx 0x06#8 :: .unsel :: ms) hf h1 h2
      rfl (hr hw)
    have e2 := steps_transaction (s := s.polled) (req := req) (g := g) (p := some s.pollByte) (ms := ms)
      (by simp [State.polled, hf]) (by simp [State.polled, h1]) (by simp [State.polled]) hm [0x06#8]
    refine ⟨9, some s.pollByte, le_rfl, ?_⟩
    simpa [writeEnableTxn, State.writeEnabled, hw] using e1.trans e2
  · have e2 := steps_transaction (s := s) (req := req) (g := g) (p := p) (ms := ms) hf h1 h2 hm [0x06#8]
    exact ⟨3, p, by omega, by simpa [writeEnableTxn, State.writeEnabled, hw] using e2⟩

/-- A non-mutating ISSUE whose ready-wait reads ready at once, with the known bytes that follow its opcode (R110). -/
theorem steps_issue (hf : s.fault = none) (h1 : s.csDir = .output) (h2 : s.csLevel = some true)
    (hm : suspends ms = false) (hr : s.pollsReady) (op : Byte) (bs : List Byte) :
    Steps (bs.length + 8) { s with ctl := .active req (issue s.par op false ++ (bs.map .tx ++ ms)) g p }
      { s.polled.selected.sent (op :: bs) with ctl := .active req ms g (some s.pollByte) } := by
  have e1 := steps_wait_ready (s := s) (req := req) (g := g) (p := p) (ms := .sel :: ((op :: bs).map .tx ++ ms)) hf h1 h2
    rfl hr
  have e2 := steps_open (s := s.polled) (req := req) (g := g) (p := some s.pollByte) (ms := ms)
    (by simp [State.polled, hf]) (by simp [State.polled, h1]) (by simp [State.polled]) hm (op :: bs)
  have := e1.trans e2
  rw [show 6 + ((op :: bs).length + 1) = bs.length + 8 by simp; omega] at this
  simpa [issue] using this

/-- A mutating ISSUE whose ready-waits read ready at once, with the known bytes that follow its opcode (R110). -/
theorem steps_issue_mutating (hf : s.fault = none) (h1 : s.csDir = .output) (h2 : s.csLevel = some true)
    (hm : suspends ms = false) (hr : s.mutatingReady) (op : Byte) (bs : List Byte) :
    ∃ k q, k ≤ bs.length + 17 ∧
      Steps k { s with ctl := .active req (issue s.par op true ++ (bs.map .tx ++ ms)) g p }
        { s.mutatingIssued.selected.sent (op :: bs) with ctl := .active req ms g q } := by
  obtain ⟨k, q, hk, e1⟩ := steps_writeEnable (s := s) (req := req) (g := g) (p := p)
    (ms := .wait :: .sel :: .tx op :: (bs.map .tx ++ ms)) hf h1 h2 rfl hr.1
  have hwe : s.writeEnabled.fault = none ∧ s.writeEnabled.csDir = .output := by
    unfold State.writeEnabled State.polled; split <;> simp [hf, h1]
  have e2 : Steps (bs.length + 8)
      { s.writeEnabled with ctl := .active req (.wait :: .sel :: .tx op :: (bs.map .tx ++ ms)) g q } _ :=
    steps_issue (s := s.writeEnabled) (req := req) (g := g) (p := q) (ms := ms) hwe.1 hwe.2
      (by simp [State.writeEnabled]) hm hr.2 op bs
  have e3 : issue s.par op true ++ (bs.map .tx ++ ms) =
      writeEnableTxn s.par ++ .wait :: .sel :: .tx op :: (bs.map .tx ++ ms) := by
    simp [issue, List.append_assoc]
  rw [e3]
  exact ⟨_, _, by omega, e1.trans e2⟩

/-! ## Whole operations -/

/-- A request that its phase, its OPSEL and its lengths admit (R204). -/
theorem admits_op {i : Instr} (h3 : s.busUp = true) (h4 : s.phase = .initialized) (h : opselAdmits i = true)
    (h' : lengthAdmits i = true) : admits s i = true := by
  simp [admits, h3, h4, phaseAdmits, h, h']

theorem polled_keeps (hf : s.fault = none) (h1 : s.csDir = .output) :
    s.polled.fault = none ∧ s.polled.csDir = .output ∧ s.polled.csLevel = some true := by
  simp [State.polled, hf, h1]

theorem writeEnabled_keeps (hf : s.fault = none) (h1 : s.csDir = .output) :
    s.writeEnabled.fault = none ∧ s.writeEnabled.csDir = .output ∧ s.writeEnabled.csLevel = some true := by
  unfold State.writeEnabled State.polled; split <;> simp [hf, h1]

/-- A direct command and its return. -/
theorem drain_read (hf : s.fault = none) (h1 : s.csDir = .output) (h2 : s.csLevel = some true) (req : Instr)
    (bs : List Byte) (n : Nat) (c : Ret) (r : Response)
    (hr : responseOf c ((s.heardIn (bs ++ List.replicate n s.par.fillByte)).drop bs.length) s.uidBuf.toList = some r)
    (hk : bs.length + n + 2 < fuelOf req) :
    drain (fuelOf req) { s with ctl := .active req (.sel :: (bs.map .tx ++ (rxMany n ++ [.unsel, .ret c]))) [] p } =
      (s.transacted (bs ++ List.replicate n s.par.fillByte)).respond r := by
  have e := steps_read (s := s) (req := req) (g := []) (p := p) (ms := [.ret c]) hf h1 h2 rfl bs n
  rw [List.nil_append] at e
  exact e.returns (by simpa using hr) hk

/-- A non-mutating issue with receives, and its return (R110). -/
theorem drain_issue_read (hf : s.fault = none) (h1 : s.csDir = .output) (h2 : s.csLevel = some true)
    (hp : s.pollsReady) (req : Instr) (op : Byte) (bs : List Byte) (n : Nat) (c : Ret) (r : Response)
    (hr : responseOf c ((s.polled.heardIn (op :: bs ++ List.replicate n s.par.fillByte)).drop (bs.length + 1))
      s.uidBuf.toList = some r)
    (hk : bs.length + n + 9 < fuelOf req) :
    drain (fuelOf req)
        { s with ctl := .active req (issue s.par op false ++ (bs.map .tx ++ (rxMany n ++ [.unsel, .ret c]))) [] none } =
      (s.polled.transacted (op :: bs ++ List.replicate n s.par.fillByte)).respond r := by
  obtain ⟨q1, q2, q3⟩ := polled_keeps hf h1
  have e0 := steps_wait_ready (s := s) (req := req) (g := []) (p := none)
    (ms := .sel :: ((op :: bs).map .tx ++ (rxMany n ++ [.unsel, .ret c]))) hf h1 h2 rfl hp
  have e := steps_read (s := s.polled) (req := req) (g := []) (p := some s.pollByte) (ms := [.ret c]) q1 q2 q3 rfl
    (op :: bs) n
  have hpar : s.polled.par = s.par := by simp [State.polled]
  rw [List.nil_append, hpar] at e
  exact (e0.trans e).returns (by simpa [State.polled] using hr) (by simp only [List.length_cons]; omega)

/-- A mutating issue of known bytes, and its return (R110). -/
theorem drain_issue_mutating (hf : s.fault = none) (h1 : s.csDir = .output) (h2 : s.csLevel = some true)
    (hp : s.mutatingReady) (req : Instr) (op : Byte) (bs : List Byte) (c : Ret) (r : Response)
    (hr : responseOf c g s.uidBuf.toList = some r) (hk : bs.length + 18 < fuelOf req) :
    drain (fuelOf req) { s with ctl := .active req (issue s.par op true ++ (bs.map .tx ++ [.unsel, .ret c])) g p } =
      (s.mutatingIssued.transacted (op :: bs)).respond r := by
  obtain ⟨k, q, hk', e⟩ := steps_issue_mutating (s := s) (req := req) (g := g) (p := p) (ms := [.unsel, .ret c]) hf h1 h2
    rfl hp op bs
  have e2 := steps_close (s := s.mutatingIssued) (req := req) (g := g) (p := q) (ms := [.ret c])
    (by simp [State.mutatingIssued, State.polled, writeEnabled_keeps hf h1]) rfl (op :: bs)
  have hu : s.mutatingIssued.uidBuf = s.uidBuf := by
    unfold State.mutatingIssued State.polled State.writeEnabled State.polled; split <;> simp
  exact (e.trans e2).returns (by simpa [hu] using hr) (by omega)

/-! ## The unique ID -/

theorem definedBytes_map (l : List Byte) : definedBytes (l.map some) = some l := by
  induction l with
  | nil => rfl
  | cons b l ih => simp [definedBytes, ih]

theorem definedBytes_toList (u : Vector Byte 8) : definedBytes (u.map some).toList = some u.toList := by
  rw [Vector.toList_map]; exact definedBytes_map _

/-- The eight receives into the unique-ID buffer (R132). -/
theorem steps_rxUidAll (hf : s.fault = none) (hl : s.csLevel = some false) (hm : suspends ms = false) {u : Vector Byte 8} {fs : List Byte}
    (hfs : fs = List.replicate 8 s.par.fillByte) (hu : s.heard fs = u.toList) :
    Steps 8 { s with ctl := .active req (rxUidAll ++ ms) g p }
      { s.sent fs with uidBuf := u.map some, ctl := .active req ms g p } := by
  have e := steps_rxUids (s := s) (req := req) (g := g) (p := p) (ms := ms) hf hl hm rfl [0, 1, 2, 3, 4, 5, 6, 7]
  rw [show [(0 : Fin 8), 1, 2, 3, 4, 5, 6, 7].length = 8 from rfl, ← hfs, hu, setAll_all] at e
  exact e

/-- A transaction of known bytes with the eight receives of the unique ID at its end (R132). -/
theorem steps_readUid (hf : s.fault = none) (h1 : s.csDir = .output) (h2 : s.csLevel = some true) (hm : suspends ms = false) (bs : List Byte) {fs : List Byte}
    (hfs : fs = List.replicate 8 s.par.fillByte) {u : Vector Byte 8}
    (hu : (s.heardIn (bs ++ fs)).drop bs.length = u.toList) :
    Steps (bs.length + 10) { s with ctl := .active req (.sel :: (bs.map .tx ++ (rxUidAll ++ .unsel :: ms))) g p }
      { s.transacted (bs ++ fs) with uidBuf := u.map some, ctl := .active req ms g p } := by
  have e1 := steps_open (s := s) (req := req) (g := g) (p := p) (ms := rxUidAll ++ .unsel :: ms) hf h1 h2 rfl bs
  have hh : (s.selected.sent bs).heard fs = u.toList := by
    rw [← hu, State.heardIn, heard_append, List.drop_left' (by simp)]
  have e2 := steps_rxUidAll (s := s.selected.sent bs) (req := req) (g := g) (p := p) (ms := .unsel :: ms)
    (by simp [hf]) (by simp) rfl (by simpa using hfs) hh
  rw [← sent_append] at e2
  have ht := seqStep_unsel (s := { s.selected.sent (bs ++ fs) with uidBuf := u.map some }) (req := req) (ms := ms) (g := g) (p := p) (c := s.busCfg) (by simp) (by simp)
  exact (e1.trans e2).trans (Steps.one ht (by simp [hf]) hm)

/-- A direct UNIQUE-ID transaction and its return. -/
theorem drain_uid (hf : s.fault = none) (h1 : s.csDir = .output) (h2 : s.csLevel = some true) (req : Instr) (bs : List Byte) {fs : List Byte}
    (hfs : fs = List.replicate 8 s.par.fillByte) {u : Vector Byte 8}
    (hu : (s.heardIn (bs ++ fs)).drop bs.length = u.toList) (hk : bs.length + 10 < fuelOf req) :
    drain (fuelOf req) { s with ctl := .active req (.sel :: (bs.map .tx ++ (rxUidAll ++ [.unsel, .ret .uid]))) g p } =
      { s.transacted (bs ++ fs) with uidBuf := u.map some }.respond (.uid u.toList) :=
  (steps_readUid (s := s) (req := req) (g := g) (p := p) (ms := [.ret .uid]) hf h1 h2 rfl bs hfs hu).returns
    (t := { s.transacted (bs ++ fs) with uidBuf := u.map some }) (by simp [responseOf, definedBytes_toList]) hk

/-- A UNIQUE-ID issue and its return (R132). -/
theorem drain_issue_uid (hf : s.fault = none) (h1 : s.csDir = .output) (h2 : s.csLevel = some true) (hp : s.pollsReady) (req : Instr) (op : Byte) (bs : List Byte) {fs : List Byte}
    (hfs : fs = List.replicate 8 s.par.fillByte) {u : Vector Byte 8}
    (hu : (s.polled.heardIn (op :: bs ++ fs)).drop (bs.length + 1) = u.toList) (hk : bs.length + 17 < fuelOf req) :
    drain (fuelOf req) { s with ctl := .active req (issue s.par op false ++ (bs.map .tx ++ (rxUidAll ++ [.unsel, .ret .uid]))) g p } =
      { s.polled.transacted (op :: bs ++ fs) with uidBuf := u.map some }.respond (.uid u.toList) := by
  obtain ⟨q1, q2, q3⟩ := polled_keeps hf h1
  have e0 := steps_wait_ready (s := s) (req := req) (g := g) (p := p)
    (ms := .sel :: ((op :: bs).map .tx ++ (rxUidAll ++ [.unsel, .ret .uid]))) hf h1 h2 rfl hp
  have e1 := steps_readUid (s := s.polled) (req := req) (g := g) (p := some s.pollByte) (ms := [.ret .uid]) q1 q2 q3 rfl
    (op :: bs) (fs := fs) (by simpa [State.polled] using hfs) (u := u) hu
  exact (e0.trans e1).returns (t := { s.polled.transacted (op :: bs ++ fs) with uidBuf := u.map some })
    (by simp [responseOf, definedBytes_toList]) (by simp only [List.length_cons]; omega)

end Sys2Proof.Machine
end

