-- ==== Sys2Proof/Laws/Bursts.lean ====
section
/-! SUPPORT. Laws/Bursts.lean: the loop of WRITE_BYTES (43_program.md R152) and the splitter registers it runs over. -/

namespace Sys2Proof.Machine

/-- The state with the given splitter registers. -/
def State.withWb (s : State) (a : Option Addr) (off rem limit : Option Nat) : State :=
  { s with wbAddr := a, wbOff := off, wbRem := rem, wbLimit := limit }

section
variable {s : State} {a : Option Addr} {off rem limit : Option Nat}

theorem sent_withWb (bs : List Byte) :
    (s.withWb a off rem limit).heard bs = s.heard bs ∧
      (s.withWb a off rem limit).sent bs = (s.sent bs).withWb a off rem limit := by
  induction bs generalizing s with
  | nil => exact ⟨rfl, rfl⟩
  | cons b bs ih =>
    have := ih (s := s.xferred b)
    exact ⟨congrArg _ this.1, this.2⟩

theorem transacted_withWb (bs : List Byte) :
    (s.withWb a off rem limit).transacted bs = (s.transacted bs).withWb a off rem limit := by
  have := (sent_withWb (s := s.selected) (a := a) (off := off) (rem := rem) (limit := limit) bs).2
  show State.unselected ((s.selected.withWb a off rem limit).sent bs) s.busCfg = _
  rw [this]; rfl

theorem pollByte_withWb : (s.withWb a off rem limit).pollByte = s.pollByte := by
  have := (sent_withWb (s := s.selected) (a := a) (off := off) (rem := rem) (limit := limit) s.pollBytes).1
  show ((s.selected.withWb a off rem limit).heard s.pollBytes).getLast?.getD 0 = _
  rw [this]; rfl

theorem polled_withWb : (s.withWb a off rem limit).polled = s.polled.withWb a off rem limit :=
  transacted_withWb _

theorem writeEnabled_withWb : (s.withWb a off rem limit).writeEnabled = s.writeEnabled.withWb a off rem limit := by
  have h : (s.withWb a off rem limit).par = s.par := rfl
  unfold State.writeEnabled
  rw [h]
  split
  · rw [polled_withWb, transacted_withWb]
  · rw [transacted_withWb]

theorem mutatingIssued_withWb :
    (s.withWb a off rem limit).mutatingIssued = s.mutatingIssued.withWb a off rem limit := by
  unfold State.mutatingIssued; rw [writeEnabled_withWb, polled_withWb]

theorem again_withWb : (s.withWb a off rem limit).again = s.again.withWb a off rem limit := by
  unfold State.again; rw [polled_withWb]; rfl

theorem agains_withWb (k : Nat) :
    State.again^[k] (s.withWb a off rem limit) = (State.again^[k] s).withWb a off rem limit := by
  induction k generalizing s with
  | zero => rfl
  | succ k ih => rw [Function.iterate_succ_apply, again_withWb, ih, Function.iterate_succ_apply]

theorem waited_withWb (k : Nat) : (s.withWb a off rem limit).waited k = (s.waited k).withWb a off rem limit := by
  unfold State.waited; rw [agains_withWb, polled_withWb]

theorem waits_withWb (k : Nat) : (s.withWb a off rem limit).waits k ↔ s.waits k := by
  simp only [State.waits, agains_withWb, pollByte_withWb]

theorem writeEnabledAfter_withWb (k : Nat) :
    (s.withWb a off rem limit).writeEnabledAfter k = (s.writeEnabledAfter k).withWb a off rem limit := by
  have h : (s.withWb a off rem limit).par = s.par := rfl
  unfold State.writeEnabledAfter
  rw [h]
  split
  · rw [waited_withWb, transacted_withWb]
  · rw [transacted_withWb]

theorem mutatingAfter_withWb (k : Nat × Nat) :
    (s.withWb a off rem limit).mutatingAfter k = (s.mutatingAfter k).withWb a off rem limit := by
  unfold State.mutatingAfter; rw [writeEnabledAfter_withWb, waited_withWb]

theorem mutatingWaits_withWb (k : Nat × Nat) : (s.withWb a off rem limit).mutatingWaits k ↔ s.mutatingWaits k := by
  have h : (s.withWb a off rem limit).par = s.par := rfl
  simp only [State.mutatingWaits, writeEnabledAfter_withWb, waits_withWb, h]

theorem mutatingReady_withWb (h : s.mutatingReady) : (s.withWb a off rem limit).mutatingReady := by
  refine ⟨fun hw => ?_, ?_⟩
  · show busyOf _ = false
    rw [pollByte_withWb]; exact h.1 hw
  · show busyOf _ = false
    rw [writeEnabled_withWb, pollByte_withWb]; exact h.2
end

section
variable {s : State} {req : Instr} {ms : List Micro} {g : List Byte} {p : Option Byte}

theorem mutatingIssued_keeps (hf : s.fault = none) (h1 : s.csDir = .output) :
    s.mutatingIssued.fault = none ∧ s.mutatingIssued.csDir = .output ∧ s.mutatingIssued.csLevel = some true := by
  obtain ⟨a, b, _⟩ := writeEnabled_keeps hf h1
  exact polled_keeps a b

/-- The three address bytes from the splitter's register (R152). -/
theorem steps_txWb {a : Addr} (hf : s.fault = none) (hl : s.csLevel = some false) (ha : s.wbAddr = some a)
    (hm : suspends ms = false) :
    Steps 3 { s with ctl := .active req (.txWbHigh :: .txWbMid :: .txWbLow :: ms) g p }
      { s.sent (addrBytes a) with ctl := .active req ms g p } := by
  have e1 := Steps.one (seqStep_txWbHigh (s := s) (req := req) (ms := .txWbMid :: .txWbLow :: ms) (g := g) (p := p) hl ha) hf rfl
  have e2 := Steps.one (seqStep_txWbMid (s := s.xferred (addrHigh a)) (req := req) (ms := .txWbLow :: ms) (g := g) (p := p) hl ha) hf rfl
  have e3 := Steps.one (seqStep_txWbLow (s := (s.xferred (addrHigh a)).xferred (addrMid a)) (req := req) (ms := ms) (g := g) (p := p) hl ha) hf hm
  exact (e1.trans e2).trans e3

/-- Source bytes of a burst (R152). -/
theorem steps_txBuf {off : Nat} (hm : suspends ms = false) : ∀ (n i : Nat) {s : State}, s.fault = none → s.csLevel = some false → s.wbOff = some off → off + i + n ≤ (bufferOf req).length →
    Steps n { s with ctl := .active req ((List.range' i n).map .txBuf ++ ms) g p }
      { s.sent (((bufferOf req).drop (off + i)).take n) with ctl := .active req ms g p }
  | 0, i, s, hf, hl, ho, hn => by simpa using Steps.refl _
  | n + 1, i, s, hf, hl, ho, hn => by
    have hb : (bufferOf req)[off + i]? = some (bufferOf req)[off + i] := List.getElem?_eq_getElem _
    have h1 : suspends ((List.range' (i + 1) n).map Micro.txBuf ++ ms) = false := by
      cases n <;> simp_all [suspends, List.range'_succ]
    have e1 := Steps.one (seqStep_txBuf (s := s) (req := req) (ms := (List.range' (i + 1) n).map .txBuf ++ ms) (g := g) (p := p) hl ho hb) hf h1
    have e2 := steps_txBuf hm n (i + 1) (s := s.xferred (bufferOf req)[off + i]) hf hl ho (by omega)
    have e3 := e1.trans e2
    rw [Nat.add_comm] at e3
    rw [List.drop_eq_getElem_cons (by omega), List.take_succ_cons, List.range'_succ]
    exact e3

/-- A transaction keeps the splitter registers. -/
theorem mutatingIssued_regs : s.mutatingIssued.wbAddr = s.wbAddr ∧ s.mutatingIssued.wbOff = s.wbOff ∧ s.mutatingIssued.wbRem = s.wbRem ∧ s.mutatingIssued.wbLimit = s.wbLimit := by
  unfold State.mutatingIssued State.polled State.writeEnabled State.polled; split <;> simp

/-- What follows the opcode of a burst up to its UNSELECT: the address and the data (R152). -/
theorem steps_burst_data {a : Addr} {off n : Nat} (hf : s.fault = none) (ha : s.wbAddr = some a) (ho : s.wbOff = some off)
    (hlen : off + n ≤ (bufferOf req).length) :
    Steps (3 + n) { s.selected.sent [0x02#8] with
        ctl := .active req (.txWbHigh :: .txWbMid :: .txWbLow :: ((List.range' 0 n).map .txBuf ++ .unsel :: ms)) g p }
      { s.selected.sent (burstBytes (bufferOf req) ⟨a, off, n⟩) with ctl := .active req (.unsel :: ms) g p } := by
  have e2 := steps_txWb (s := s.selected.sent [0x02#8]) (req := req) (g := g) (p := p) (a := a)
    (ms := (List.range' 0 n).map .txBuf ++ .unsel :: ms)
    (by simp [hf]) (by simp) (by simp [ha]) (by cases n <;> simp [suspends, List.range'_succ])
  rw [← sent_append] at e2
  have e3 := steps_txBuf (req := req) (g := g) (p := p) (off := off) (ms := .unsel :: ms) rfl n 0
    (s := s.selected.sent ([0x02#8] ++ addrBytes a)) (by simp [hf]) (by simp) (by simp [ho]) (by omega)
  rw [← sent_append] at e3
  have hbb : [0x02#8] ++ addrBytes a ++ ((bufferOf req).drop (off + 0)).take n = burstBytes (bufferOf req) ⟨a, off, n⟩ := rfl
  rw [hbb] at e3
  exact e2.trans e3

/-- What follows the opcode of a burst: the address, the data, UNSELECT and the registers (R152). -/
theorem steps_burst_tail {a : Addr} {off n : Nat} (hf : s.fault = none) (ha : s.wbAddr = some a) (ho : s.wbOff = some off)
    (hlen : off + n ≤ (bufferOf req).length) (hm : suspends ms = false) :
    Steps (n + 5) { s.selected.sent [0x02#8] with
        ctl := .active req (.txWbHigh :: .txWbMid :: .txWbLow :: ((List.range' 0 n).map .txBuf ++ .unsel :: .wbNext n :: ms)) g p }
      { (s.transacted (burstBytes (bufferOf req) ⟨a, off, n⟩)).wbAdvance n with ctl := .active req ms g p } := by
  have e3 := steps_burst_data (s := s) (req := req) (ms := .wbNext n :: ms) (g := g) (p := p) hf ha ho hlen
  have e4 := steps_close (s := s) (req := req) (g := g) (p := p) (ms := .wbNext n :: ms) hf rfl (burstBytes (bufferOf req) ⟨a, off, n⟩)
  have e5 : Steps 1 { s.transacted (burstBytes (bufferOf req) ⟨a, off, n⟩) with ctl := .active req (.wbNext n :: ms) g p }
      { (s.transacted (burstBytes (bufferOf req) ⟨a, off, n⟩)).wbAdvance n with ctl := .active req ms g p } :=
    Steps.one rfl (by simp [hf]) hm
  have e := (e3.trans e4).trans e5
  rwa [show 3 + n + 1 + 1 = n + 5 by omega] at e

/-- The loop enters the body of its next burst (R152). -/
theorem seqStep_burst {rem limit n : Nat} (hr : s.wbRem = some rem) (hl : s.wbLimit = some limit)
    (hpos : 0 < rem) (hn : n = min rem limit) :
    seqStep { s with ctl := .active req (.burst :: ms) g p } =
      { s with ctl := .active req (burstBody s.par n ++ .burst :: ms) g p } := by
  have : State.burstLoop { s with ctl := .active req (.burst :: ms) g p } ms = some (burstBody s.par n ++ .burst :: ms) := by
    simp only [State.burstLoop, hr, hl]
    rw [if_neg (by omega), hn]
  simp only [seqStep, microStep, this]

theorem burstBody_append (q : Params) (n : Nat) :
    burstBody q n ++ ms = issue q 0x02#8 true ++
      (.txWbHigh :: .txWbMid :: .txWbLow :: ((List.range' 0 n).map .txBuf ++ .unsel :: .wbNext n :: ms)) := by
  simp [burstBody, List.range_eq_range', List.append_assoc]

/-- One burst of WRITE_BYTES whose ready-waits read ready at once (R152). -/
theorem steps_burst {a : Addr} {off rem limit n : Nat} (hf : s.fault = none) (h1 : s.csDir = .output) (h2 : s.csLevel = some true)
    (ha : s.wbAddr = some a) (ho : s.wbOff = some off) (hr : s.wbRem = some rem) (hl : s.wbLimit = some limit)
    (hp : s.mutatingReady) (hpos : 0 < rem) (hn : n = min rem limit) (hlen : off + rem ≤ (bufferOf req).length) :
    ∃ k q, k ≤ n + 24 ∧
      Steps k { s with ctl := .active req (.burst :: ms) g p }
        { (s.mutatingIssued.transacted (burstBytes (bufferOf req) ⟨a, off, n⟩)).wbAdvance n with
          ctl := .active req (.burst :: ms) g q } := by
  have e0 := Steps.one (seqStep_burst (s := s) (req := req) (ms := ms) (g := g) (p := p) hr hl hpos hn) hf
    (by cases h : s.par.wePrepoll <;> simp [burstBody, issue, writeEnableTxn, h, suspends])
  rw [burstBody_append] at e0
  obtain ⟨k, q, hk, e1⟩ := steps_issue_mutating (s := s) (req := req) (g := g) (p := p)
    (ms := .txWbHigh :: .txWbMid :: .txWbLow :: ((List.range' 0 n).map .txBuf ++ .unsel :: .wbNext n :: .burst :: ms))
    hf h1 h2 rfl hp 0x02#8 []
  obtain ⟨m1, m2, m3⟩ := mutatingIssued_keeps (s := s) hf h1
  obtain ⟨r1, r2, r3, r4⟩ := mutatingIssued_regs (s := s)
  have e2 := steps_burst_tail (s := s.mutatingIssued) (req := req) (ms := .burst :: ms) (g := g) (p := q) (a := a) (off := off)
    (n := n) m1 (r1.trans ha) (r2.trans ho) (by omega) rfl
  refine ⟨_, q, ?_, (e0.trans e1).trans e2⟩
  simp only [List.length_nil] at hk
  omega

theorem wbAdvance_withWb {a : Addr} {off rem limit n : Nat} :
    (s.withWb (some a) (some off) (some rem) (some limit)).wbAdvance n =
      s.withWb (some (addrPlus a n)) (some (off + n)) (some (rem - n)) (some Config.pageBytes) := rfl

theorem burstsReady_cons {data : List Byte} {b : Burst} {bs : List Burst} :
    s.burstsReady data (b :: bs) ↔ s.mutatingReady ∧ (s.mutatingIssued.transacted (burstBytes data b)).burstsReady data bs := Iff.rfl

theorem bursted_cons {data : List Byte} {b : Burst} {bs : List Burst} :
    s.bursted data (b :: bs) = (s.mutatingIssued.transacted (burstBytes data b)).bursted data bs := rfl

/-- The bursts of the loop, whose ready-waits read ready at once (R152). -/
theorem steps_bursts : ∀ {fuel : Nat} {s : State} {a : Addr} {off rem limit : Nat} {p : Option Byte},
    s.fault = none → s.csDir = .output → s.csLevel = some true → 1 ≤ limit → rem ≤ fuel →
    off + rem ≤ (bufferOf req).length → s.burstsReady (bufferOf req) (splitLoop fuel a off rem limit) →
    ∃ k q a' off' limit', k ≤ 25 * rem ∧
      Steps k { s.withWb (some a) (some off) (some rem) (some limit) with ctl := .active req (.burst :: ms) g p }
        { (s.bursted (bufferOf req) (splitLoop fuel a off rem limit)).withWb (some a') (some off') (some 0) (some limit') with
          ctl := .active req (.burst :: ms) g q }
  | 0, s, a, off, rem, limit, p, hf, h1, h2, hl, hfu, hlen, hr => by
    obtain rfl : rem = 0 := by omega
    exact ⟨0, p, a, off, limit, le_rfl, .refl _⟩
  | fuel + 1, s, a, off, rem, limit, p, hf, h1, h2, hl, hfu, hlen, hr => by
    rcases Nat.eq_zero_or_pos rem with rfl | hpos
    · rw [splitLoop_zero] at hr ⊢
      exact ⟨0, p, a, off, limit, le_rfl, .refl _⟩
    · rw [splitLoop_succ a off hpos] at hr ⊢
      rw [burstsReady_cons] at hr
      rw [bursted_cons]
      obtain ⟨hr1, hr2⟩ := hr
      obtain ⟨k, q, hk, e⟩ := steps_burst (s := s.withWb (some a) (some off) (some rem) (some limit)) (req := req) (ms := ms) (g := g) (p := p)
        hf h1 h2 rfl rfl rfl rfl (mutatingReady_withWb hr1) hpos rfl hlen
      have hconv : ((s.withWb (some a) (some off) (some rem) (some limit)).mutatingIssued.transacted (burstBytes (bufferOf req) ⟨a, off, min rem limit⟩)).wbAdvance (min rem limit) =
          (s.mutatingIssued.transacted (burstBytes (bufferOf req) ⟨a, off, min rem limit⟩)).withWb (some (addrPlus a (min rem limit))) (some (off + min rem limit)) (some (rem - min rem limit)) (some Config.pageBytes) := by
        rw [mutatingIssued_withWb, transacted_withWb, wbAdvance_withWb]
      rw [hconv] at e
      have hm := mutatingIssued_keeps hf h1
      obtain ⟨k', q', a', off', limit', hk', e'⟩ := steps_bursts (fuel := fuel) (s := s.mutatingIssued.transacted (burstBytes (bufferOf req) ⟨a, off, min rem limit⟩))
        (a := addrPlus a (min rem limit)) (off := off + min rem limit) (rem := rem - min rem limit) (limit := Config.pageBytes) (p := q)
        (by simp [hm]) (by simp [hm]) (by simp) (by decide) (by omega) (by omega) hr2
      exact ⟨k + k', q', a', off', limit', by omega, e.trans e'⟩
end

/-- WRITE_BYTES whose ready-waits read ready at once sends the bursts of SPLIT (R152, R154). -/
theorem drain_writeBytes {s : State} (hf : s.fault = none) (h1 : s.csDir = .output) (h2 : s.csLevel = some true) (a : Addr) (data : List Byte)
    (hr : s.burstsReady data (split a data.length)) :
    drain (fuelOf (.writeBytes a data.length data)) { s with ctl := .active (.writeBytes a data.length data) (progWriteBytes a data.length) [] none } =
      ((s.bursted data (split a data.length)).withWb none none none none).respond .none := by
  have e0 : Steps 1 { s with ctl := .active (.writeBytes a data.length data) (progWriteBytes a data.length) [] none }
      { s.withWb (some a) (some 0) (some data.length) (some (firstLimit a)) with ctl := .active (.writeBytes a data.length data) [.burst, .wbClear, .ret .none] [] none } :=
    Steps.one (t := s.withWb (some a) (some 0) (some data.length) (some (firstLimit a))) rfl hf rfl
  obtain ⟨k, q, a', off', limit', hk, e⟩ := steps_bursts (req := .writeBytes a data.length data) (ms := [.wbClear, .ret .none]) (g := []) (p := none) (fuel := data.length) (a := a) (off := 0) (rem := data.length)
    hf h1 h2 (firstLimit_bounds a).1 le_rfl (by simp [bufferOf]) hr
  have hb : (s.bursted data (split a data.length)).fault = none := by
    have : ∀ (bs : List Burst) (s : State), s.fault = none → s.csDir = .output → (s.bursted data bs).fault = none := by
      intro bs
      induction bs with
      | nil => intro s h _; exact h
      | cons b bs ih =>
        intro s h h'
        have hm := mutatingIssued_keeps h h'
        exact ih _ (by simp [hm]) (by simp [hm])
    exact this _ _ hf h1
  have e1 := e0.trans e
  generalize hB : s.bursted (bufferOf (.writeBytes a data.length data)) (splitLoop data.length a 0 data.length (firstLimit a)) = B at e1
  have hB' : s.bursted data (split a data.length) = B := hB
  rw [hB'] at hb ⊢
  have e2 : Steps 1 { B.withWb (some a') (some off') (some 0) (some limit') with ctl := .active (.writeBytes a data.length data) [.burst, .wbClear, .ret .none] [] q }
      { B.withWb (some a') (some off') (some 0) (some limit') with ctl := .active (.writeBytes a data.length data) [.wbClear, .ret .none] [] q } :=
    Steps.one (t := B.withWb (some a') (some off') (some 0) (some limit')) rfl hb rfl
  have e3 : Steps 1 { B.withWb (some a') (some off') (some 0) (some limit') with ctl := .active (.writeBytes a data.length data) [.wbClear, .ret .none] [] q }
      { B.withWb none none none none with ctl := .active (.writeBytes a data.length data) [.ret .none] [] q } :=
    Steps.one (t := B.withWb none none none none) rfl hb rfl
  exact ((e1.trans e2).trans e3).returns (t := B.withWb none none none none) rfl (by simp only [fuelOf, byteCount]; omega)

end Sys2Proof.Machine
end

