-- ==== Sys2Proof/Laws/Turn.lean ====
section
/-! SUPPORT. Laws/Turn.lean: what the device's own step and its turn do (00_scope.md R6, 20_memory.md R69), one lemma per
field, and that a device which is not working takes none. -/

namespace Sys2Proof.Machine

variable (s : State)

@[simp] theorem State.drawn_par : s.drawn.par = s.par := rfl
@[simp] theorem State.drawn_csId : s.drawn.csId = s.csId := rfl
@[simp] theorem State.drawn_expectedId : s.drawn.expectedId = s.expectedId := rfl
@[simp] theorem State.drawn_savedCfg : s.drawn.savedCfg = s.savedCfg := rfl
@[simp] theorem State.drawn_uidBuf : s.drawn.uidBuf = s.uidBuf := rfl
@[simp] theorem State.drawn_busCfg : s.drawn.busCfg = s.busCfg := rfl
@[simp] theorem State.drawn_ie : s.drawn.ie = s.ie := rfl
@[simp] theorem State.drawn_csDir : s.drawn.csDir = s.csDir := rfl
@[simp] theorem State.drawn_csLevel : s.drawn.csLevel = s.csLevel := rfl
@[simp] theorem State.drawn_busUp : s.drawn.busUp = s.busUp := rfl
@[simp] theorem State.drawn_phase : s.drawn.phase = s.phase := rfl
@[simp] theorem State.drawn_wbAddr : s.drawn.wbAddr = s.wbAddr := rfl
@[simp] theorem State.drawn_wbOff : s.drawn.wbOff = s.wbOff := rfl
@[simp] theorem State.drawn_wbRem : s.drawn.wbRem = s.wbRem := rfl
@[simp] theorem State.drawn_wbLimit : s.drawn.wbLimit = s.wbLimit := rfl
@[simp] theorem State.drawn_ctl : s.drawn.ctl = s.ctl := rfl
@[simp] theorem State.drawn_fault : s.drawn.fault = s.fault := rfl
@[simp] theorem State.drawn_refused : s.drawn.refused = s.refused := rfl
@[simp] theorem State.drawn_trace : s.drawn.trace = s.trace := rfl
@[simp] theorem State.drawn_hreq : s.drawn.hreq = s.hreq := rfl
@[simp] theorem State.drawn_hrsp : s.drawn.hrsp = s.hrsp := rfl
@[simp] theorem State.drawn_dev : s.drawn.dev = s.dev := rfl
@[simp] theorem State.drawn_miso : s.drawn.miso = s.miso := rfl

@[simp] theorem State.completed_par : s.completed.par = s.par := rfl
@[simp] theorem State.completed_csId : s.completed.csId = s.csId := rfl
@[simp] theorem State.completed_expectedId : s.completed.expectedId = s.expectedId := rfl
@[simp] theorem State.completed_savedCfg : s.completed.savedCfg = s.savedCfg := rfl
@[simp] theorem State.completed_uidBuf : s.completed.uidBuf = s.uidBuf := rfl
@[simp] theorem State.completed_busCfg : s.completed.busCfg = s.busCfg := rfl
@[simp] theorem State.completed_ie : s.completed.ie = s.ie := rfl
@[simp] theorem State.completed_csDir : s.completed.csDir = s.csDir := rfl
@[simp] theorem State.completed_csLevel : s.completed.csLevel = s.csLevel := rfl
@[simp] theorem State.completed_busUp : s.completed.busUp = s.busUp := rfl
@[simp] theorem State.completed_phase : s.completed.phase = s.phase := rfl
@[simp] theorem State.completed_wbAddr : s.completed.wbAddr = s.wbAddr := rfl
@[simp] theorem State.completed_wbOff : s.completed.wbOff = s.wbOff := rfl
@[simp] theorem State.completed_wbRem : s.completed.wbRem = s.wbRem := rfl
@[simp] theorem State.completed_wbLimit : s.completed.wbLimit = s.wbLimit := rfl
@[simp] theorem State.completed_ctl : s.completed.ctl = s.ctl := rfl
@[simp] theorem State.completed_fault : s.completed.fault = s.fault := rfl
@[simp] theorem State.completed_refused : s.completed.refused = s.refused := rfl
@[simp] theorem State.completed_trace : s.completed.trace = s.trace := rfl
@[simp] theorem State.completed_hreq : s.completed.hreq = s.hreq := rfl
@[simp] theorem State.completed_hrsp : s.completed.hrsp = s.hrsp := rfl
@[simp] theorem State.completed_dev : s.completed.dev = s.dev.complete s.par := rfl
@[simp] theorem State.completed_miso : s.completed.miso = s.miso := rfl
@[simp] theorem State.completed_choices : s.completed.choices = s.drawn.choices := rfl
@[simp] theorem State.completed_turns : s.completed.turns = s.drawn.turns := rfl

@[simp] theorem State.turned_par : s.turned.par = s.par := rfl
@[simp] theorem State.turned_csId : s.turned.csId = s.csId := rfl
@[simp] theorem State.turned_expectedId : s.turned.expectedId = s.expectedId := rfl
@[simp] theorem State.turned_savedCfg : s.turned.savedCfg = s.savedCfg := rfl
@[simp] theorem State.turned_uidBuf : s.turned.uidBuf = s.uidBuf := rfl
@[simp] theorem State.turned_busCfg : s.turned.busCfg = s.busCfg := rfl
@[simp] theorem State.turned_ie : s.turned.ie = s.ie := rfl
@[simp] theorem State.turned_csDir : s.turned.csDir = s.csDir := rfl
@[simp] theorem State.turned_csLevel : s.turned.csLevel = s.csLevel := rfl
@[simp] theorem State.turned_busUp : s.turned.busUp = s.busUp := rfl
@[simp] theorem State.turned_phase : s.turned.phase = s.phase := rfl
@[simp] theorem State.turned_wbAddr : s.turned.wbAddr = s.wbAddr := rfl
@[simp] theorem State.turned_wbOff : s.turned.wbOff = s.wbOff := rfl
@[simp] theorem State.turned_wbRem : s.turned.wbRem = s.wbRem := rfl
@[simp] theorem State.turned_wbLimit : s.turned.wbLimit = s.wbLimit := rfl
@[simp] theorem State.turned_ctl : s.turned.ctl = s.ctl := rfl
@[simp] theorem State.turned_fault : s.turned.fault = s.fault := rfl
@[simp] theorem State.turned_refused : s.turned.refused = s.refused := rfl
@[simp] theorem State.turned_trace : s.turned.trace = s.trace := rfl
@[simp] theorem State.turned_hreq : s.turned.hreq = s.hreq := rfl
@[simp] theorem State.turned_hrsp : s.turned.hrsp = s.hrsp := rfl
@[simp] theorem State.turned_dev : s.turned.dev = (if s.completes then s.dev.complete s.par else s.dev) := rfl
@[simp] theorem State.turned_miso : s.turned.miso = s.miso := rfl
@[simp] theorem State.turned_choices : s.turned.choices = s.drawn.choices := rfl
@[simp] theorem State.turned_turns : s.turned.turns = s.drawn.turns := rfl

variable {s}

/-- A device that is not working has no turn (R6). -/
theorem completes_of_not_working (h : s.dev.working = false) : s.completes = false := by rw [State.completes, h]; rfl

theorem drawn_of_not_working (h : s.dev.working = false) : s.drawn = s := by simp [State.drawn, h]

theorem turned_of_not_working (h : s.dev.working = false) : s.turned = s := by
  simp [State.turned, completes_of_not_working h, drawn_of_not_working h]

/-- Nothing pending, nothing to complete (R69). -/
theorem working_of_pending {d : Device} (h : d.pending = none) : d.working = false := by
  unfold Device.working; split <;> simp [h]

theorem complete_pending (d : Device) (p : Params) : (d.complete p).pending = none := by
  unfold Device.complete; split
  · rfl
  · assumption

/-- The device's own step ends its work (R69). -/
theorem completed_not_working : s.completed.dev.working = false := working_of_pending (complete_pending _ _)

theorem turned_of_completes (h : s.completes = true) : s.turned = s.completed := by
  simp [State.turned, State.completed, h]

theorem turned_of_not_completes (h : s.completes = false) : s.turned = s.drawn := by simp [State.turned, h]; rfl

/-- The device after its turn. -/
theorem turned_dev_or : s.turned.dev = s.dev ∨ s.turned.dev = s.dev.complete s.par := by
  rw [State.turned_dev]; split
  · exact .inr rfl
  · exact .inl rfl

/-! The steps of the machine (R6). -/

/-- A step at rest is the device's own, when its turn is that (R69). -/
theorem step_completes (hf : s.fault = none) (hs : s.settled = true) (h : s.completes = true) : step s = .next s.completed := by
  simp [step, deviceTurn, hf, hs, h]

/-- Else it is that of the other agents. -/
theorem step_others (hf : s.fault = none) (hs : s.settled = true) (h : s.completes = false) : step s = othersStep s.drawn := by
  simp [step, deviceTurn, hf, hs, h]

/-- Between primitives the request goes on at once (log 22). -/
theorem step_unsettled (hf : s.fault = none) (hs : s.settled = false) : step s = othersStep s := by
  simp [step, hf, hs]

theorem settled_of_idle (hc : s.ctl = .idle) : s.settled = true := by simp [State.settled, hc]

theorem settled_of_waitAgain {req : Instr} {ms : List Micro} {g : List Byte} {p : Option Byte}
    (hc : s.ctl = .active req (.waitAgain :: ms) g p) : s.settled = true := by simp [State.settled, hc]

theorem othersStep_active {req : Instr} {todo : List Micro} {g : List Byte} {p : Option Byte}
    (hc : s.ctl = .active req todo g p) : othersStep s = .next (drain (fuelOf req) s) := by
  simp [othersStep, hc, resume]

theorem othersStep_move {m : HostMove} {rest : List HostMove} (hc : s.ctl = .idle) (hq : s.hreq = m :: rest) :
    othersStep s = hostMove m { s with hreq := rest } := by simp [othersStep, hc, hq]

theorem othersStep_rest (hc : s.ctl = .idle) (hq : s.hreq = []) : othersStep s = .next s := by simp [othersStep, hc, hq]

end Sys2Proof.Machine
end

