-- ==== Sys2Proof/Laws/Exec.lean ====
section
/-! SUPPORT. Laws/Exec.lean: every meaning is one program over the shared run: which one, said once. -/

namespace Sys2Proof.Machine

/-- The pseudocode of an instruction. -/
def progOf (p : Params) : Instr → List Micro
  | .writeEnable => [.sel, .tx 0x06#8, .unsel, .ret .none]
  | .statusRead => [.sel, .tx 0x05#8, .rx, .unsel, .ret .byte]
  | .statusWrite v => [.sel, .tx 0x01#8, .tx v, .unsel, .ret .none]
  | .arrayRead a n => [.sel, .tx 0x0B#8] ++ txAddr a ++ txDummy p 1 ++ rxMany n ++ [.unsel, .ret .bytes]
  | .arrayReadLowFreq a n => [.sel, .tx 0x03#8] ++ txAddr a ++ rxMany n ++ [.unsel, .ret .bytes]
  | .byteOrPageProgram a data => [.sel, .tx 0x02#8] ++ txAddr a ++ data.map .tx ++ [.unsel, .ret .none]
  | .blockErase4K a => [.sel, .tx 0x20#8] ++ txAddr a ++ [.unsel, .ret .none]
  | .blockErase32K a => [.sel, .tx 0x52#8] ++ txAddr a ++ [.unsel, .ret .none]
  | .chipEraseCmd => [.sel, .tx 0x60#8, .unsel, .ret .none]
  | .jedecId => readIdTxn ++ [.ret .word]
  | .uniqueId => [.sel, .tx 0x4B#8] ++ txDummy p 4 ++ rxUidAll ++ [.unsel, .ret .uid]
  | .deepPowerDown => [.sel, .tx 0xB9#8, .unsel, .ret .none]
  | .releaseFromPowerDown => [.sel, .tx 0xAB#8, .unsel, .ret .none]
  | .readStatus => progReadStatus
  | .busy => progBusy
  | .readDeviceId => progReadDeviceId
  | .readUniqueId => progReadUniqueId p
  | .readByte a => progReadByte p a
  | .readBytes a len => progReadBytes p a len
  | .writeByte a v => progWriteByte p a v
  | .writeBytes a len _ => progWriteBytes a len
  | .eraseBlock4K a => progEraseBlock4K p a
  | .eraseBlock32K a => progEraseBlock32K p a
  | .chipErase => progChipErase p
  | .sleep => progSleep p
  | .wakeup => progWakeup p
  | .endOp => progEnd
  | .initializeOp => progInitialize p
  | .reserved => [.ret .none]

/-- No instruction begins at the suspension point (R112). -/
theorem suspends_progOf (p : Params) (i : Instr) : suspends (progOf p i) = false := by
  cases i <;>
    first
    | rfl
    | (simp only [progOf, progWriteByte, progEraseBlock4K, progEraseBlock32K, progChipErase, issue, writeEnableTxn]
       cases p.wePrepoll <;> rfl)

/-- The whole of exec: a program burst of no size the spec gives is refused; a host request is admitted or refused; a
wire transaction runs. -/
theorem exec_eq (i : Instr) (s : State) :
    exec i s =
      if hostLayer i = true then hostRequest i (progOf s.par i) s
      else if i.wf s.par = true then wireTransaction i (progOf s.par i) s else .refused .burstSizeUndefined := by
  cases i <;> rfl

/-- Whatever exec answers next comes from an idle, unfaulted state, and is the refused request or a run of the
program. -/
theorem exec_next {i : Instr} {s t : State} (h : exec i s = .next t) :
    s.fault = none ∧ s.ctl = .idle ∧
      ((t = s.refuse ∧ admits s i = false ∧ hostLayer i = true) ∨
        (t = drain (fuelOf i) { s with ctl := .active i (progOf s.par i) [] none } ∧
          (hostLayer i = true → admits s i = true) ∧ (hostLayer i = false → i.wf s.par = true))) := by
  rw [exec_eq] at h
  split at h
  · rename_i hl
    simp only [hostRequest, whenIdle] at h
    split at h
    · cases h
    · rename_i hf
      split at h
      · cases h
      · rename_i hc
        cases ha : admits s i <;> simp only [ha] at h <;> cases h
        · exact ⟨hf, hc, .inl ⟨rfl, rfl, hl⟩⟩
        · exact ⟨hf, hc, .inr ⟨rfl, fun _ => rfl, fun h => absurd hl (by simp [h])⟩⟩
  · rename_i hl
    split at h
    · rename_i hw
      simp only [wireTransaction, whenIdle] at h
      split at h
      · cases h
      · rename_i hf
        split at h
        · cases h
        · rename_i hc
          cases h
          exact ⟨hf, hc, .inr ⟨rfl, fun h => absurd h hl, fun _ => hw⟩⟩
    · cases h

/-- A step of an idle block without a move, when the device does not act (log 21). -/
theorem step_idle {s : State} (hf : s.fault = none) (hc : s.ctl = .idle) (hq : s.hreq = []) (h : s.completes = false) :
    step s = .next s.drawn := by
  rw [step_others hf (settled_of_idle hc) h, othersStep_rest (s := s.drawn) hc hq]

/-- A step of an idle block with a move, when the device does not act (R6). -/
theorem step_move {s : State} {m : HostMove} {rest : List HostMove} (hf : s.fault = none) (hc : s.ctl = .idle)
    (hq : s.hreq = m :: rest) (h : s.completes = false) : step s = hostMove m { s.drawn with hreq := rest } := by
  rw [step_others hf (settled_of_idle hc) h, othersStep_move (s := s.drawn) hc hq]

/-- All that the other agents' step can be (R6): the active request goes on, an idle block rests, or the host moves. -/
theorem othersStep_next {s t : State} (h : othersStep s = .next t) :
    (∃ i, t = drain (fuelOf i) s) ∨ t = s ∨
      (s.ctl = .idle ∧ ∃ m rest, s.hreq = m :: rest ∧ hostMove m { s with hreq := rest } = .next t) := by
  unfold othersStep at h
  split at h
  · cases h; exact .inl ⟨_, rfl⟩
  · split at h
    · cases h; exact .inr (.inl rfl)
    · exact .inr (.inr ⟨by assumption, _, _, by assumption, h⟩)

/-- All that a step can be (R6): the device's own, or that of the other agents, behind the device's turn or, between
primitives, without one. -/
theorem step_next {s t : State} (h : step s = .next t) :
    s.fault = none ∧ (t = s.completed ∨ othersStep s.drawn = .next t ∨ othersStep s = .next t) := by
  unfold step deviceTurn at h
  split at h
  · cases h
  · rename_i hf
    refine ⟨hf, ?_⟩
    split at h
    · split at h
      · cases h; exact .inl rfl
      · exact .inr (.inl h)
    · exact .inr (.inr h)

end Sys2Proof.Machine
end

