-- ==== Sys2Proof/Laws/Moves.lean ====
section
/-! SUPPORT. Laws/Moves.lean: what one step of the sequencer can do (10_state.md R31), said once: the precondition of each
position, the state it leaves, and that without the precondition it only raises a fault (60 R206). -/

namespace Sys2Proof.Machine

/-- When position `m` raises no fault. -/
def Can (s : State) (req : Instr) (g : List Byte) (p : Option Byte) : Micro → Prop
  | .sel => s.csDir = .output ∧ s.csLevel = some true
  | .unsel => s.csLevel = some false ∧ s.savedCfg.isSome
  | .tx _ | .rx | .rxUid _ | .rxPoll => s.csLevel = some false
  | .txWbHigh | .txWbMid | .txWbLow => s.csLevel = some false ∧ s.wbAddr.isSome
  | .txBuf i => s.csLevel = some false ∧ ∃ off, s.wbOff = some off ∧ off + i < (bufferOf req).length
  | .pollTest => p.isSome
  | .burst => s.wbRem.isSome ∧ s.wbLimit.isSome
  | .idTest => 2 ≤ g.length
  | .ret k => (responseOf k g s.uidBuf.toList).isSome
  | _ => True

/-- What position `m` leaves, `ms` being what follows it. -/
def Moves (s : State) (req : Instr) (ms : List Micro) (g : List Byte) (p : Option Byte) (m : Micro) (t : State) : Prop :=
  let next : Ctl := .active req ms g p
  match m with
  | .sel => t = { s.selected with ctl := next }
  | .unsel => ∃ c, s.savedCfg = some c ∧ t = { s.unselected c with ctl := next }
  | .tx b => t = { s.xferred b with ctl := next }
  | .txWbHigh | .txWbMid | .txWbLow | .txBuf _ => ∃ b, t = { s.xferred b with ctl := next }
  | .rx =>
    t = { s.xferred s.par.fillByte with ctl := .active req ms (g ++ [(s.answer s.par.fillByte).1]) p }
  | .rxUid i =>
    t = { s.xferred s.par.fillByte with
          uidBuf := s.uidBuf.set i (some (s.answer s.par.fillByte).1), ctl := next }
  | .rxPoll =>
    t = { s.xferred s.par.fillByte with ctl := .active req ms g (some (s.answer s.par.fillByte).1) }
  | .wait | .waitAgain => t = { s with ctl := .active req (pollBody ++ ms) g p }
  | .pollTest => ∃ b, p = some b ∧ t = { s with ctl := .active req (if busyOf b then .waitAgain :: ms else ms) g p }
  | .wbInit a len =>
    t = { s with wbAddr := some a, wbOff := some 0, wbRem := some len, wbLimit := some (firstLimit a), ctl := next }
  | .burst =>
    ∃ rem limit, s.wbRem = some rem ∧ s.wbLimit = some limit ∧
      t = { s with
            ctl := .active req (if rem = 0 then ms else burstBody s.par (min rem limit) ++ .burst :: ms) g p }
  | .wbNext n => t = { s.wbAdvance n with ctl := next }
  | .wbClear => t = { s with wbAddr := none, wbOff := none, wbRem := none, wbLimit := none, ctl := next }
  | .cfgSave => t = { s.cfgSaved with ctl := next }
  | .pinOutput => t = { s.pinMadeOutput with ctl := next }
  | .pinHigh => t = { s.pinMadeHigh with ctl := next }
  | .setInitialized => t = { s with phase := .initialized, ctl := next }
  | .probe => t = { s with ctl := .active req (if s.expectedId = 0 then ms else readIdTxn ++ .idTest :: ms) g p }
  | .idTest =>
    ∃ w : Word16, t = { s with ctl := .active req (if w = s.expectedId then ms else [.ret (.bool false)]) g p }
  | .busEnd => t = { s.busEnded with ctl := next }
  | .ret k => ∃ r, responseOf k g s.uidBuf.toList = some r ∧ t = s.respond r

section
variable {s : State} {req : Instr} {m : Micro} {ms : List Micro} {g : List Byte} {p : Option Byte}

theorem select_cases : (¬(s.csDir = .output ∧ s.csLevel = some true) ∧ ∃ r, select s = .error r) ∨ select s = .ok s.selected := by
  unfold select
  by_cases h : s.csDir = .output
  · rcases hl : s.csLevel with _ | _ | _ <;> simp [h]
  · simp [h]

theorem unselect_cases :
    (¬(s.csLevel = some false ∧ s.savedCfg.isSome) ∧ ∃ r, unselect s = .error r) ∨
      ∃ c, s.savedCfg = some c ∧ unselect s = .ok (s.unselected c) := by
  unfold unselect
  by_cases h : s.csLevel = some false
  · rcases hl : s.savedCfg with _ | c <;> simp [h]
  · simp [h]

theorem xfer_cases (b : Byte) :
    (¬s.csLevel = some false ∧ ∃ r, xfer b s = .error r) ∨ xfer b s = .ok ((s.answer b).1, s.xferred b) := by
  unfold xfer
  by_cases h : s.csLevel = some false <;> simp [h]

theorem tx_cases (b : Byte) : (¬s.csLevel = some false ∧ ∃ r, tx b s = .error r) ∨ tx b s = .ok (s.xferred b) := by
  rcases xfer_cases (s := s) b with ⟨h, r, e⟩ | e
  · exact .inl ⟨h, r, by simp only [tx, e, Except.map]⟩
  · exact .inr (by simp only [tx, e, Except.map])

theorem txDefined_cases (o : Option Byte) :
    (¬(s.csLevel = some false ∧ o.isSome) ∧ ∃ r, txDefined o s = .error r) ∨ ∃ b, txDefined o s = .ok (s.xferred b) := by
  rcases o with _ | b
  · exact .inl ⟨by simp, _, rfl⟩
  · rcases tx_cases (s := s) b with ⟨h, r, e⟩ | e
    · exact .inl ⟨fun h' => h h'.1, r, e⟩
    · exact .inr ⟨b, e⟩

/-- One step of the sequencer: a fault and nothing else where the precondition fails, and otherwise its move. -/
theorem seqStep_moves (hc : s.ctl = .active req (m :: ms) g p) :
    (¬Can s req g p m ∧ ∃ r, seqStep s = s.raise r) ∨ Moves s req ms g p m (seqStep s) := by
  have hs : seqStep s = microStep req m ms g p s := by simp [seqStep, hc]
  rw [hs]
  cases m with
  | sel =>
    rcases select_cases (s := s) with ⟨h, r, e⟩ | e
    · exact .inl ⟨h, r, by simp only [microStep, e, State.goOn]⟩
    · exact .inr (by simp only [Moves, microStep, e, State.goOn])
  | unsel =>
    rcases unselect_cases (s := s) with ⟨h, r, e⟩ | ⟨c, hc, e⟩
    · exact .inl ⟨h, r, by simp only [microStep, e, State.goOn]⟩
    · exact .inr ⟨c, hc, by simp only [microStep, e, State.goOn]⟩
  | tx b =>
    rcases tx_cases (s := s) b with ⟨h, r, e⟩ | e
    · exact .inl ⟨h, r, by simp only [microStep, e, State.goOn]⟩
    · exact .inr (by simp only [Moves, microStep, e, State.goOn])
  | txWbHigh =>
    rcases txDefined_cases (s := s) (s.wbAddr.map addrHigh) with ⟨h, r, e⟩ | ⟨b, e⟩
    · exact .inl ⟨fun hcan => h ⟨hcan.1, by simpa using hcan.2⟩, r, by simp only [microStep, e, State.goOn]⟩
    · exact .inr ⟨b, by simp only [microStep, e, State.goOn]⟩
  | txWbMid =>
    rcases txDefined_cases (s := s) (s.wbAddr.map addrMid) with ⟨h, r, e⟩ | ⟨b, e⟩
    · exact .inl ⟨fun hcan => h ⟨hcan.1, by simpa using hcan.2⟩, r, by simp only [microStep, e, State.goOn]⟩
    · exact .inr ⟨b, by simp only [microStep, e, State.goOn]⟩
  | txWbLow =>
    rcases txDefined_cases (s := s) (s.wbAddr.map addrLow) with ⟨h, r, e⟩ | ⟨b, e⟩
    · exact .inl ⟨fun hcan => h ⟨hcan.1, by simpa using hcan.2⟩, r, by simp only [microStep, e, State.goOn]⟩
    · exact .inr ⟨b, by simp only [microStep, e, State.goOn]⟩
  | txBuf i =>
    rcases txDefined_cases (s := s) (s.bufferByte req i) with ⟨h, r, e⟩ | ⟨b, e⟩
    · refine .inl ⟨fun hcan => h ⟨hcan.1, ?_⟩, r, by simp only [microStep, e, State.goOn]⟩
      obtain ⟨off, h1, h2⟩ := hcan.2
      simp [State.bufferByte, h1, h2]
    · exact .inr ⟨b, by simp only [microStep, e, State.goOn]⟩
  | rx =>
    rcases xfer_cases (s := s) s.par.fillByte with ⟨h, r, e⟩ | e
    · exact .inl ⟨h, r, by simp only [microStep, rx, e]⟩
    · exact .inr (by simp only [Moves, microStep, rx, e])
  | rxUid i =>
    rcases xfer_cases (s := s) s.par.fillByte with ⟨h, r, e⟩ | e
    · exact .inl ⟨h, r, by simp only [microStep, rx, e]⟩
    · exact .inr (by simp only [Moves, microStep, rx, e]; rfl)
  | rxPoll =>
    rcases xfer_cases (s := s) s.par.fillByte with ⟨h, r, e⟩ | e
    · exact .inl ⟨h, r, by simp only [microStep, rx, e]⟩
    · exact .inr (by simp only [Moves, microStep, rx, e])
  | wait => exact .inr rfl
  | waitAgain => exact .inr rfl
  | pollTest =>
    rcases p with _ | b
    · exact .inl ⟨by simp [Can], _, rfl⟩
    · exact .inr ⟨b, rfl, rfl⟩
  | wbInit a len => exact .inr rfl
  | burst =>
    rcases h1 : s.wbRem with _ | rem
    · exact .inl ⟨by simp [Can, h1], .undefinedValue, by simp only [microStep, State.burstLoop, h1]⟩
    · rcases h2 : s.wbLimit with _ | limit
      · exact .inl ⟨by simp [Can, h2], .undefinedValue, by simp only [microStep, State.burstLoop, h1, h2]⟩
      · refine .inr ⟨rem, limit, h1, h2, ?_⟩
        simp only [microStep, State.burstLoop, h1, h2]
        by_cases hr : rem = 0 <;> simp [hr]
  | wbNext n => exact .inr rfl
  | wbClear => exact .inr rfl
  | cfgSave => exact .inr rfl
  | pinOutput => exact .inr rfl
  | pinHigh => exact .inr rfl
  | setInitialized => exact .inr rfl
  | probe => exact .inr rfl
  | idTest =>
    rcases g with _ | ⟨a, _ | ⟨d, rest⟩⟩
    · exact .inl ⟨by simp [Can], _, rfl⟩
    · exact .inl ⟨by simp [Can], _, rfl⟩
    · exact .inr ⟨packId a d, rfl⟩
  | busEnd => exact .inr rfl
  | ret k =>
    rcases h : responseOf k g s.uidBuf.toList with _ | r
    · exact .inl ⟨by simp [Can, h], .undefinedValue, by simp only [microStep, h]⟩
    · exact .inr ⟨r, h, by simp only [microStep, h]⟩

end

end Sys2Proof.Machine
end

