-- ==== Sys2Proof/Laws/Frame.lean ====
section
/-! SUPPORT. Laws/Frame.lean: what a sequencer step leaves as it was, and which positions an instruction's program may
reach, so that a frame of an instruction is one induction over its run. -/

namespace Sys2Proof.Machine

/-! ## What the device keeps -/

/-- The device's identity and its model. -/
def Device.same (d d' : Device) : Prop := d'.model = d.model ∧ d'.mfr = d.mfr ∧ d'.devId = d.devId ∧ d'.uid = d.uid

theorem Device.same_trans {d d' d'' : Device} (h : d.same d') (h' : d'.same d'') : d.same d'' :=
  ⟨h'.1.trans h.1, h'.2.1.trans h.2.1, h'.2.2.1.trans h.2.2.1, h'.2.2.2.trans h.2.2.2⟩

theorem Device.same_select (d : Device) : d.same d.select := by
  unfold Device.select; split <;> exact ⟨rfl, rfl, rfl, rfl⟩

theorem Device.same_absorb (d : Device) (b : Byte) : d.same (d.absorb b) := by
  unfold Device.absorb; split <;> exact ⟨rfl, rfl, rfl, rfl⟩

theorem Device.same_complete (d : Device) (p : Params) : d.same (d.complete p) := by
  unfold Device.complete; split <;> exact ⟨rfl, rfl, rfl, rfl⟩

theorem Device.same_effect (d : Device) (p : Params) (t : Txn) (op : Byte) : d.same (d.effect p t op) := by
  unfold Device.effect
  split
  · exact ⟨rfl, rfl, rfl, rfl⟩
  · exact ⟨rfl, rfl, rfl, rfl⟩
  · exact ⟨rfl, rfl, rfl, rfl⟩
  · split
    · split
      · exact Device.same_complete d p
      · exact ⟨rfl, rfl, rfl, rfl⟩
    · exact ⟨rfl, rfl, rfl, rfl⟩

theorem Device.same_close (d : Device) (p : Params) (a : Bool) : d.same (d.close p a) := by
  unfold Device.close
  split
  · dsimp only
    split
    · split
      · unfold Device.openEffect
        split
        · exact ⟨rfl, rfl, rfl, rfl⟩
        · split
          · exact Device.same_effect { d with txn := none } p _ _
          · exact ⟨rfl, rfl, rfl, rfl⟩
      · exact Device.same_effect { d with txn := none } p _ _
    · exact ⟨rfl, rfl, rfl, rfl⟩
  · exact ⟨rfl, rfl, rfl, rfl⟩

theorem Device.same_unselect (d : Device) (p : Params) (tr : List Event) (script : List Bool) :
    d.same (d.unselect p tr script).1 := by
  unfold Device.unselect
  split
  · exact ⟨rfl, rfl, rfl, rfl⟩
  · generalize (if d.needsChoice = true then drawChoice script tr 0 else (true, script)) = a
    dsimp only
    by_cases h1 : (d.close p a.1).pending.isSome = true
    · rw [if_pos h1]
      by_cases h2 : (drawChoice a.2 tr 1).1 = true
      · simp only [h2, if_true]
        exact Device.same_trans (Device.same_close d p _) (Device.same_complete _ p)
      · simp only [h2]
        exact Device.same_close d p _
    · rw [if_neg h1]
      exact Device.same_close d p _

/-! ## Which positions a program may reach -/

/-- A position that touches the splitter registers. -/
def splitterPosition : Micro → Bool
  | .wbInit _ _ | .wbNext _ | .wbClear => true
  | _ => false

/-- The positions an instruction may reach. -/
def mayReach (i : Instr) : Micro → Bool
  | .busEnd =>
    match i with
    | .endOp => true
    | _ => false
  | .setInitialized | .pinOutput | .pinHigh | .cfgSave | .probe | .idTest =>
    match i with
    | .initializeOp => true
    | _ => false
  | .rxUid _ =>
    match i with
    | .readUniqueId | .uniqueId => true
    | _ => false
  | .wbInit _ _ | .burst | .wbNext _ | .wbClear =>
    match i with
    | .writeBytes _ _ _ => true
    | _ => false
  | _ => true

theorem mayReach_issue (i : Instr) (p : Params) (op : Byte) (b : Bool) : (issue p op b).all (mayReach i) = true := by
  unfold issue writeEnableTxn; cases b <;> cases p.wePrepoll <;> rfl

/-- An instruction's program keeps to its positions. -/
theorem progOf_mayReach (p : Params) (i : Instr) : (progOf p i).all (mayReach i) = true := by
  have h1 : ∀ op b, (issue p op b).all (mayReach i) = true := mayReach_issue i p
  cases i <;> simp [progOf, progReadStatus, progBusy, progReadDeviceId, progReadUniqueId, progReadByte, progReadBytes,
      progWriteByte, progWriteBytes, progEraseBlock4K, progEraseBlock32K, progChipErase, progSleep, progWakeup, progEnd,
      progInitialize, wakeupBody, unprotectBody, readIdTxn, txAddr, txDummy, rxMany, rxUidAll, mayReach,
      -List.all_eq_true] at h1 ⊢ <;> simp [h1, mayReach]

/-- What one step of the sequencer changes at most, by its position. -/
structure StepFrame (s : State) (req : Instr) (m : Micro) (ms : List Micro) (t : State) : Prop where
  par : t.par = s.par
  csId : t.csId = s.csId
  expectedId : t.expectedId = s.expectedId
  hreq : t.hreq = s.hreq
  dev : s.dev.same t.dev
  busUp : m ≠ .busEnd → t.busUp = s.busUp
  phase : m ≠ .busEnd → m ≠ .setInitialized → t.phase = s.phase
  csDir : m ≠ .pinOutput → t.csDir = s.csDir
  uidBuf : (∀ i, m ≠ .rxUid i) → t.uidBuf = s.uidBuf
  splitter : splitterPosition m = false →
    t.wbAddr = s.wbAddr ∧ t.wbOff = s.wbOff ∧ t.wbRem = s.wbRem ∧ t.wbLimit = s.wbLimit
  trace : ∃ ev, t.trace = s.trace ++ ev
  refused : t.refused = s.refused
  next : (t.ctl = .idle ∧ ∃ r, t.hrsp = s.hrsp ++ [r]) ∨
    ∃ todo g p, t.ctl = .active req todo g p ∧ t.hrsp = s.hrsp ∧ ∀ i, (m :: ms).all (mayReach i) = true → todo.all (mayReach i) = true

section
variable {s t : State} {req : Instr} {m : Micro} {ms : List Micro} {g : List Byte} {p : Option Byte}

theorem StepFrame.of_goes {todo : List Micro} {g' : List Byte} {p' : Option Byte}
    (h : ∀ i, (m :: ms).all (mayReach i) = true → todo.all (mayReach i) = true) :
    StepFrame s req m ms { s with ctl := .active req todo g' p' } :=
  ⟨rfl, rfl, rfl, rfl, ⟨rfl, rfl, rfl, rfl⟩, fun _ => rfl, fun _ _ => rfl, fun _ => rfl, fun _ => rfl, fun _ => ⟨rfl, rfl, rfl, rfl⟩,
    ⟨[], by simp⟩, rfl, .inr ⟨_, _, _, rfl, rfl, h⟩⟩

theorem mayReach_tail (i : Instr) (h : (m :: ms).all (mayReach i) = true) : ms.all (mayReach i) = true := by
  simp only [List.all_cons, Bool.and_eq_true] at h; exact h.2

theorem StepFrame.of_xfer (b : Byte) {g' : List Byte} {p' : Option Byte} :
    StepFrame s req m ms { s.xferred b with ctl := .active req ms g' p' } :=
  ⟨rfl, rfl, rfl, rfl, Device.same_absorb _ _, fun _ => rfl, fun _ _ => rfl, fun _ => rfl, fun _ => rfl, fun _ => ⟨rfl, rfl, rfl, rfl⟩,
    ⟨_, rfl⟩, rfl, .inr ⟨_, _, _, rfl, rfl, mayReach_tail⟩⟩

theorem Moves.frame (h : Moves s req ms g p m t) : StepFrame s req m ms t := by
  cases m with
  | sel =>
    subst h
    exact ⟨rfl, rfl, rfl, rfl, Device.same_select _, fun _ => rfl, fun _ _ => rfl, fun _ => rfl, fun _ => rfl, fun _ => ⟨rfl, rfl, rfl, rfl⟩,
      ⟨_, rfl⟩, rfl, .inr ⟨_, _, _, rfl, rfl, mayReach_tail⟩⟩
  | unsel =>
    obtain ⟨c, -, rfl⟩ := h
    exact ⟨rfl, rfl, rfl, rfl, Device.same_unselect _ _ _ _, fun _ => rfl, fun _ _ => rfl, fun _ => rfl, fun _ => rfl, fun _ => ⟨rfl, rfl, rfl, rfl⟩,
      ⟨_, rfl⟩, rfl, .inr ⟨_, _, _, rfl, rfl, mayReach_tail⟩⟩
  | tx b => subst h; exact .of_xfer b
  | txWbHigh => obtain ⟨b, rfl⟩ := h; exact .of_xfer b
  | txWbMid => obtain ⟨b, rfl⟩ := h; exact .of_xfer b
  | txWbLow => obtain ⟨b, rfl⟩ := h; exact .of_xfer b
  | txBuf i => obtain ⟨b, rfl⟩ := h; exact .of_xfer b
  | rx => subst h; exact .of_xfer _
  | rxPoll => subst h; exact .of_xfer _
  | rxUid i =>
    subst h
    exact ⟨rfl, rfl, rfl, rfl, Device.same_absorb _ _, fun _ => rfl, fun _ _ => rfl, fun _ => rfl, fun h => absurd rfl (h i), fun _ => ⟨rfl, rfl, rfl, rfl⟩,
      ⟨_, rfl⟩, rfl, .inr ⟨_, _, _, rfl, rfl, mayReach_tail⟩⟩
  | wait => subst h; exact .of_goes fun i hi => by simpa [pollBody, mayReach] using mayReach_tail i hi
  | waitAgain => subst h; exact .of_goes fun i hi => by simpa [pollBody, mayReach] using mayReach_tail i hi
  | pollTest =>
    obtain ⟨b, -, rfl⟩ := h
    refine .of_goes fun i hi => ?_
    have := mayReach_tail i hi
    split
    · simpa [mayReach] using this
    · exact this
  | wbInit a len =>
    subst h
    exact ⟨rfl, rfl, rfl, rfl, ⟨rfl, rfl, rfl, rfl⟩, fun _ => rfl, fun _ _ => rfl, fun _ => rfl, fun _ => rfl, (fun h => by cases h),
      ⟨[], (List.append_nil _).symm⟩, rfl, .inr ⟨_, _, _, rfl, rfl, mayReach_tail⟩⟩
  | burst =>
    obtain ⟨rem, limit, -, -, rfl⟩ := h
    refine .of_goes fun i hi => ?_
    split
    · exact mayReach_tail i hi
    · have h1 := mayReach_issue i s.par 0x02#8 true
      simp only [List.all_cons, Bool.and_eq_true] at hi
      have h2 : mayReach i (.wbNext (min rem limit)) = true := by
        have := hi.1
        cases i <;> first | rfl | cases this
      simp only [burstBody, List.all_append, List.all_cons, List.all_nil, Bool.and_true, Bool.and_eq_true]
      exact ⟨⟨⟨⟨h1, rfl, rfl, rfl⟩, by simp [mayReach]⟩, rfl, h2⟩, hi⟩
  | wbNext n =>
    subst h
    exact ⟨rfl, rfl, rfl, rfl, ⟨rfl, rfl, rfl, rfl⟩, fun _ => rfl, fun _ _ => rfl, fun _ => rfl, fun _ => rfl, (fun h => by cases h),
      ⟨[], (List.append_nil _).symm⟩, rfl, .inr ⟨_, _, _, rfl, rfl, mayReach_tail⟩⟩
  | wbClear =>
    subst h
    exact ⟨rfl, rfl, rfl, rfl, ⟨rfl, rfl, rfl, rfl⟩, fun _ => rfl, fun _ _ => rfl, fun _ => rfl, fun _ => rfl, (fun h => by cases h),
      ⟨[], (List.append_nil _).symm⟩, rfl, .inr ⟨_, _, _, rfl, rfl, mayReach_tail⟩⟩
  | cfgSave =>
    subst h
    exact ⟨rfl, rfl, rfl, rfl, ⟨rfl, rfl, rfl, rfl⟩, fun _ => rfl, fun _ _ => rfl, fun _ => rfl, fun _ => rfl, fun _ => ⟨rfl, rfl, rfl, rfl⟩,
      ⟨_, rfl⟩, rfl, .inr ⟨_, _, _, rfl, rfl, mayReach_tail⟩⟩
  | pinOutput =>
    subst h
    exact ⟨rfl, rfl, rfl, rfl, ⟨rfl, rfl, rfl, rfl⟩, fun _ => rfl, fun _ _ => rfl, fun h => absurd rfl h, fun _ => rfl, fun _ => ⟨rfl, rfl, rfl, rfl⟩,
      ⟨_, rfl⟩, rfl, .inr ⟨_, _, _, rfl, rfl, mayReach_tail⟩⟩
  | pinHigh =>
    subst h
    exact ⟨rfl, rfl, rfl, rfl, ⟨rfl, rfl, rfl, rfl⟩, fun _ => rfl, fun _ _ => rfl, fun _ => rfl, fun _ => rfl, fun _ => ⟨rfl, rfl, rfl, rfl⟩,
      ⟨_, rfl⟩, rfl, .inr ⟨_, _, _, rfl, rfl, mayReach_tail⟩⟩
  | setInitialized =>
    subst h
    exact ⟨rfl, rfl, rfl, rfl, ⟨rfl, rfl, rfl, rfl⟩, fun _ => rfl, fun _ h => absurd rfl h, fun _ => rfl, fun _ => rfl, fun _ => ⟨rfl, rfl, rfl, rfl⟩,
      ⟨[], (List.append_nil _).symm⟩, rfl, .inr ⟨_, _, _, rfl, rfl, mayReach_tail⟩⟩
  | probe =>
    subst h
    refine .of_goes fun i hi => ?_
    have h2 : mayReach i .idTest = true := by
      simp only [List.all_cons, Bool.and_eq_true] at hi
      have := hi.1
      cases i <;> first | rfl | cases this
    have := mayReach_tail i hi
    split
    · exact this
    · rw [List.all_append, List.all_cons, h2, this]; rfl
  | idTest =>
    obtain ⟨w, rfl⟩ := h
    refine .of_goes fun i hi => ?_
    split
    · exact mayReach_tail i hi
    · rfl
  | busEnd =>
    subst h
    exact ⟨rfl, rfl, rfl, rfl, ⟨rfl, rfl, rfl, rfl⟩, fun h => absurd rfl h, fun h => absurd rfl h, fun _ => rfl, fun _ => rfl, fun _ => ⟨rfl, rfl, rfl, rfl⟩,
      ⟨_, rfl⟩, rfl, .inr ⟨_, _, _, rfl, rfl, mayReach_tail⟩⟩
  | ret k =>
    obtain ⟨r, -, rfl⟩ := h
    exact ⟨rfl, rfl, rfl, rfl, ⟨rfl, rfl, rfl, rfl⟩, fun _ => rfl, fun _ _ => rfl, fun _ => rfl, fun _ => rfl, fun _ => ⟨rfl, rfl, rfl, rfl⟩,
      ⟨[], (List.append_nil _).symm⟩, rfl, .inl ⟨rfl, r, rfl⟩⟩

end

/-- The part of the frame that a run carries. -/
structure Framed (i : Instr) (s t : State) : Prop where
  par : t.par = s.par
  csId : t.csId = s.csId
  expectedId : t.expectedId = s.expectedId
  hreq : t.hreq = s.hreq
  dev : s.dev.same t.dev
  busUp : mayReach i .busEnd = false → t.busUp = s.busUp
  phase : mayReach i .busEnd = false → mayReach i .setInitialized = false → t.phase = s.phase
  csDir : mayReach i .pinOutput = false → t.csDir = s.csDir
  uidBuf : mayReach i (.rxUid 0) = false → t.uidBuf = s.uidBuf
  splitter : mayReach i .wbClear = false →
    t.wbAddr = s.wbAddr ∧ t.wbOff = s.wbOff ∧ t.wbRem = s.wbRem ∧ t.wbLimit = s.wbLimit
  trace : ∃ ev, t.trace = s.trace ++ ev
  refused : t.refused = s.refused
  next : (t.ctl = .idle ∧ ∃ rs, t.hrsp = s.hrsp ++ rs ∧ rs.length ≤ 1) ∨
    ∃ req todo g p, t.ctl = .active req todo g p ∧ t.hrsp = s.hrsp ∧ todo.all (mayReach i) = true

/-- A run carries it. -/
theorem Framed.step {i : Instr} {s t : State} (h : Framed i s t) : Framed i s (seqStep t) := by
  rcases h.next with ⟨hk, -⟩ | ⟨req, todo, g, p, hk, hh, ha⟩
  · rw [show seqStep t = t by simp [seqStep, hk]]; exact h
  rcases todo with _ | ⟨m, ms⟩
  · rw [show seqStep t = { t with ctl := .idle } by simp [seqStep, hk]]
    exact ⟨h.par, h.csId, h.expectedId, h.hreq, h.dev, h.busUp, h.phase, h.csDir, h.uidBuf, h.splitter, h.trace, h.refused, .inl ⟨rfl, [], by simpa using hh, by simp⟩⟩
  rcases seqStep_moves hk with ⟨-, r, e⟩ | hm
  · rw [e]
    exact ⟨h.par, h.csId, h.expectedId, h.hreq, h.dev, h.busUp, h.phase, h.csDir, h.uidBuf, h.splitter, h.trace, h.refused, .inr ⟨req, m :: ms, g, p, hk, hh, ha⟩⟩
  have f := hm.frame
  generalize seqStep t = u at *
  have hm' : mayReach i m = true := by simp only [List.all_cons, Bool.and_eq_true] at ha; exact ha.1
  have no : ∀ m', mayReach i m' = false → m ≠ m' := by rintro m' h1 rfl; rw [h1] at hm'; cases hm'
  refine ⟨f.par.trans h.par, f.csId.trans h.csId, f.expectedId.trans h.expectedId, f.hreq.trans h.hreq,
    Device.same_trans h.dev f.dev, fun h1 => (f.busUp (no _ h1)).trans (h.busUp h1),
    fun h1 h2 => (f.phase (no _ h1) (no _ h2)).trans (h.phase h1 h2), fun h1 => (f.csDir (no _ h1)).trans (h.csDir h1),
    fun h1 => (f.uidBuf fun j => no _ h1).trans (h.uidBuf h1), fun h1 => ?_, ?_, f.refused.trans h.refused, ?_⟩
  · have hsp : splitterPosition m = false := by
      cases m <;> first | rfl | (have hw : mayReach i .wbClear = true := hm'; rw [h1] at hw; cases hw)
    obtain ⟨a, b, c, d⟩ := f.splitter hsp
    obtain ⟨a', b', c', d'⟩ := h.splitter h1
    exact ⟨a.trans a', b.trans b', c.trans c', d.trans d'⟩
  · obtain ⟨e1, h1⟩ := h.trace
    obtain ⟨e2, h2⟩ := f.trace
    exact ⟨e1 ++ e2, by rw [h2, h1, List.append_assoc]⟩
  · rcases f.next with ⟨h1, r, h2⟩ | ⟨todo, g', p', h1, h2, h3⟩
    · exact .inl ⟨h1, [r], by rw [h2, hh], by simp⟩
    · exact .inr ⟨req, todo, g', p', h1, h2.trans hh, h3 i ha⟩

/-- The run of an instruction from its start. -/
theorem framed_run (i : Instr) (s : State) (n : Nat) :
    Framed i s (drain n { s with ctl := .active i (progOf s.par i) [] none }) :=
  drain_keeps (P := Framed i s) (fun _ h => h.step) _ _
    ⟨rfl, rfl, rfl, rfl, ⟨rfl, rfl, rfl, rfl⟩, fun _ => rfl, fun _ _ => rfl, fun _ => rfl, fun _ => rfl,
      fun _ => ⟨rfl, rfl, rfl, rfl⟩, ⟨[], (List.append_nil _).symm⟩, rfl, .inr ⟨i, _, _, _, rfl, rfl, progOf_mayReach _ _⟩⟩

end Sys2Proof.Machine
end

