-- ==== Sys2Proof/Laws/Memory.lean ====
section
/-! SUPPORT. Laws/Memory.lean: the flash array: read after write, the untouched cells, and the canonical form. -/

namespace Sys2Proof.Machine

open Host (Cell)

/-- A cell below every listed one reads erased. -/
theorem Memory.read_below {m : List Cell} {a : Nat} (h : ∀ c ∈ m, a < c.1) : Memory.read m a = Memory.erased := by
  induction m with
  | nil => rfl
  | cons c rest ih =>
    obtain ⟨k, v⟩ := c
    have hk : a < k := h (k, v) (by simp)
    simp only [Memory.read]
    rw [if_neg (by omega)]
    exact ih fun c hc => h c (by simp [hc])

/-- Read after write, at the written cell and at every other. -/
theorem Memory.read_write {m : List Cell} (hm : Memory.wf m) (a b : Nat) (v : Byte) :
    Memory.read (Memory.write m a v) b = if b = a then v else Memory.read m b := by
  induction m with
  | nil =>
    by_cases hv : v = Memory.erased <;> by_cases hb : b = a <;>
      simp [Memory.write, Memory.read, hv, hb, eq_comm]
    intro h; exact absurd h.symm hb
  | cons c rest ih =>
    obtain ⟨k, w⟩ := c
    obtain ⟨hs, hne⟩ := hm
    rw [List.pairwise_cons] at hs
    have hrest : Memory.wf rest := ⟨hs.2, fun c hc => hne c (by simp [hc])⟩
    simp only [Memory.write]
    by_cases h1 : a < k
    · have hbelow : ∀ x, x < k → Memory.read ((k, w) :: rest) x = Memory.erased := fun x hx =>
        Memory.read_below (fun c hc => by
          rcases List.mem_cons.1 hc with rfl | hc
          · exact hx
          · exact lt_trans hx (hs.1 c hc))
      rw [if_pos h1]
      by_cases hv : v = Memory.erased
      · rw [if_pos hv]
        by_cases hb : b = a
        · subst hb; rw [if_pos rfl, hbelow b h1, hv]
        · rw [if_neg hb]
      · rw [if_neg hv]
        by_cases hb : b = a
        · subst hb; simp [Memory.read]
        · rw [if_neg hb]
          conv_lhs => rw [Memory.read]
          rw [if_neg (fun h => hb h.symm)]
    · rw [if_neg h1]
      by_cases h2 : a = k
      · subst h2
        rw [if_pos rfl]
        by_cases hv : v = Memory.erased
        · rw [if_pos hv]
          by_cases hb : b = a
          · subst hb; rw [if_pos rfl, Memory.read_below hs.1, hv]
          · rw [if_neg hb]
            conv_rhs => rw [Memory.read]
            rw [if_neg (fun h => hb h.symm)]
        · rw [if_neg hv]
          by_cases hb : b = a
          · subst hb; simp [Memory.read]
          · simp [Memory.read, hb, Ne.symm hb]
      · rw [if_neg h2]
        simp only [Memory.read]
        by_cases hb : k = b
        · subst hb; rw [if_pos rfl, if_pos rfl, if_neg (fun h => h2 h.symm)]
        · rw [if_neg hb, if_neg hb, ih hrest]

/-- Every listed cell after a write was listed or is the written one. -/
theorem Memory.mem_write {m : List Cell} {a : Nat} {v : Byte} {c : Cell} (h : c ∈ Memory.write m a v) :
    c ∈ m ∨ c.1 = a := by
  induction m with
  | nil =>
    simp only [Memory.write] at h
    split at h <;> simp_all
  | cons d rest ih =>
    obtain ⟨k, w⟩ := d
    simp only [Memory.write] at h
    split at h
    · split at h
      · exact .inl h
      · rcases List.mem_cons.1 h with rfl | h
        · exact .inr rfl
        · exact .inl h
    · split at h
      · split at h
        · exact .inl (List.mem_cons_of_mem _ h)
        · rcases List.mem_cons.1 h with rfl | h
          · exact .inr rfl
          · exact .inl (List.mem_cons_of_mem _ h)
      · rcases List.mem_cons.1 h with rfl | h
        · exact .inl (by simp)
        · rcases ih h with h | h
          · exact .inl (List.mem_cons_of_mem _ h)
          · exact .inr h

/-- A write keeps the canonical form. -/
theorem Memory.wf_write {m : List Cell} (hm : Memory.wf m) (a : Nat) (v : Byte) : Memory.wf (Memory.write m a v) := by
  induction m with
  | nil =>
    simp only [Memory.write]
    split
    · exact hm
    · rename_i hv; exact ⟨by simp, by simpa using hv⟩
  | cons c rest ih =>
    obtain ⟨k, w⟩ := c
    obtain ⟨hs, hne⟩ := hm
    have hs' := List.pairwise_cons.1 hs
    have hrest : Memory.wf rest := ⟨hs'.2, fun c hc => hne c (by simp [hc])⟩
    have hfull : Memory.wf ((k, w) :: rest) := ⟨hs, hne⟩
    simp only [Memory.write]
    split
    · rename_i h1
      split
      · exact hfull
      · rename_i hv
        refine ⟨List.pairwise_cons.2 ⟨fun c hc => ?_, hs⟩, fun c hc => ?_⟩
        · rcases List.mem_cons.1 hc with rfl | hc
          · exact h1
          · exact lt_trans h1 (hs'.1 c hc)
        · rcases List.mem_cons.1 hc with rfl | hc
          · exact hv
          · exact hne c hc
    · rename_i h1
      split
      · rename_i h2
        split
        · exact hrest
        · rename_i hv
          refine ⟨List.pairwise_cons.2 ⟨fun c hc => ?_, hs'.2⟩, fun c hc => ?_⟩
          · rw [h2]; exact hs'.1 c hc
          · rcases List.mem_cons.1 hc with rfl | hc
            · exact hv
            · exact hne c (by simp [hc])
      · rename_i h2
        have ih' := ih hrest
        refine ⟨List.pairwise_cons.2 ⟨fun c hc => ?_, ih'.1⟩, fun c hc => ?_⟩
        · rcases Memory.mem_write hc with hc | hc
          · exact hs'.1 c hc
          · rw [hc]; simp only; omega
        · rcases List.mem_cons.1 hc with rfl | hc
          · exact hne (k, w) (by simp)
          · exact ih'.2 c hc

/-- An erase keeps the canonical form. -/
theorem Memory.wf_erase {m : List Cell} (hm : Memory.wf m) (base size : Nat) : Memory.wf (Memory.erase m base size) :=
  ⟨hm.1.filter _, fun c hc => hm.2 c (List.mem_of_mem_filter hc)⟩

/-- A read after an erase. -/
theorem Memory.read_erase {m : List Cell} (hm : Memory.wf m) (base size b : Nat) :
    Memory.read (Memory.erase m base size) b =
      if base ≤ b ∧ b < base + size then Memory.erased else Memory.read m b := by
  induction m with
  | nil => simp [Memory.erase, Memory.read]
  | cons c rest ih =>
    obtain ⟨k, w⟩ := c
    have hs := List.pairwise_cons.1 hm.1
    have hrest : Memory.wf rest := ⟨hs.2, fun c hc => hm.2 c (by simp [hc])⟩
    have ih' := ih hrest
    unfold Memory.erase at ih' ⊢
    rw [List.filter_cons]
    by_cases hk : base ≤ k ∧ k < base + size
    · rw [if_neg (by simp [hk]), ih']
      by_cases hb : k = b
      · subst hb; rw [if_pos hk, if_pos hk]
      · simp [Memory.read, hb]
    · rw [if_pos (by simp only [Bool.not_eq_true', Bool.and_eq_false_iff, decide_eq_false_iff_not]; omega)]
      simp only [Memory.read]
      by_cases hb : k = b
      · subst hb; simp [hk]
      · rw [if_neg hb, if_neg hb, ih']

/-- Programming one cell keeps the canonical form. -/
theorem Memory.wf_program {m : List Cell} (hm : Memory.wf m) (a : Nat) (d : Byte) : Memory.wf (Memory.program m a d) :=
  Memory.wf_write hm _ _

/-- Programming one cell ANDs it and leaves every other (R52). -/
theorem Memory.read_program {m : List Cell} (hm : Memory.wf m) (a b : Nat) (d : Byte) :
    Memory.read (Memory.program m a d) b = if b = a then Memory.read m a &&& d else Memory.read m b :=
  Memory.read_write hm _ _ _

/-- Programming a burst keeps the canonical form. -/
theorem programPage_wf (base start : Nat) (data : List Byte) :
    ∀ (i : Nat) {m : List Cell}, Memory.wf m → Memory.wf (programPage base start i data m) := by
  induction data with
  | nil => intro i m hm; exact hm
  | cons d ds ih => intro i m hm; exact ih (i + 1) (Memory.wf_program hm _ _)

/-- Programming a burst lists cells of its page only. -/
theorem mem_programPage {base start : Nat} {c : Cell} (data : List Byte) :
    ∀ {i : Nat} {m : List Cell}, c ∈ programPage base start i data m →
      c ∈ m ∨ (base ≤ c.1 ∧ c.1 < base + Config.pageBytes) := by
  induction data with
  | nil => intro i m h; exact .inl h
  | cons d ds ih =>
    intro i m h
    rcases ih h with h | h
    · rcases Memory.mem_write h with h | h
      · exact .inl h
      · right
        have := Nat.mod_lt (start + i) (show 0 < Config.pageBytes by decide)
        omega
    · exact .inr h

/-- The cells a burst does not reach. -/
theorem programPage_read_other {base start : Nat} (data : List Byte) :
    ∀ {i : Nat} {m : List Cell} (x : Nat), Memory.wf m →
      (∀ j, i ≤ j → j < i + data.length → x ≠ base + (start + j) % Config.pageBytes) →
      Memory.read (programPage base start i data m) x = Memory.read m x := by
  induction data with
  | nil => intro i m x _ _; rfl
  | cons d ds ih =>
    intro i m x hm h
    simp only [programPage]
    rw [ih x (Memory.wf_program hm _ _) (fun j h1 h2 => h j (by omega) (by simp only [List.length_cons]; omega)),
      Memory.read_program hm, if_neg (h i le_rfl (by simp))]

/-- The cells a burst of at most a page programs: `old AND d` (R52, R72). -/
theorem programPage_read_hit {base start : Nat} (data : List Byte) :
    ∀ {i : Nat} {m : List Cell} (j : Nat), Memory.wf m → (hj : j < data.length) → i + data.length ≤ Config.pageBytes + i →
      Memory.read (programPage base start i data m) (base + (start + i + j) % Config.pageBytes) =
        Memory.read m (base + (start + i + j) % Config.pageBytes) &&& data[j] := by
  induction data with
  | nil => intro i m j _ hj; simp at hj
  | cons d ds ih =>
    intro i m j hm hj hlen
    have hp : Config.pageBytes = 256 := rfl
    simp only [List.length_cons] at hlen hj
    simp only [programPage]
    cases j with
    | zero =>
      rw [programPage_read_other ds _ (Memory.wf_program hm _ _)]
      · simp [Memory.read_program hm]
      · intro k h1 h2 h3
        rw [hp] at h3 hlen
        omega
    | succ j =>
      have := ih (i := i + 1) (m := Memory.program m (base + (start + i) % Config.pageBytes) d) j
        (Memory.wf_program hm _ _) (by omega) (by omega)
      rw [show start + i + (j + 1) = start + (i + 1) + j by omega, this]
      rw [Memory.read_program hm, if_neg]
      · simp
      · rw [hp] at hlen ⊢
        omega

end Sys2Proof.Machine
end

