-- ==== Sys2Proof/Laws/Resume.lean ====
section
/-! SUPPORT. Laws/Resume.lean: requests that go on over several steps (10_state.md R31, 40 R107, R112), the device's
turns between them (20 R69): every state such a request reaches is some moves of the sequencer and the device from its
start, and a run of moves that ends the request is one of steps. Then the ready-waits that poll busy any finite number
of times. -/

namespace Sys2Proof.Machine

/-! ## Moves of the sequencer and the device -/

/-- Suspended in a ready-wait after a poll that read busy (R112). -/
def State.suspended (s : State) : Bool :=
  match s.ctl with
  | .active _ ms _ _ => suspends ms
  | .idle => false

/-- The sequencer's step, behind the device's turn where the request is suspended (R69, R107). -/
def tick (s : State) : State := seqStep (if s.suspended then s.turned else s)

/-- Some number of such moves lead from `s` to `t`. -/
def Runs (s t : State) : Prop := ∃ n, tick^[n] s = t

theorem Runs.refl (s : State) : Runs s s := ⟨0, rfl⟩

theorem tick_of_not_suspended {s : State} (hs : s.suspended = false) : tick s = seqStep s := by simp [tick, hs]

theorem tick_of_suspended {s : State} (hs : s.suspended = true) : tick s = seqStep s.turned := by simp [tick, hs]

theorem Runs.one {s t : State} (h : seqStep s = t) (hs : s.suspended = false := by exact rfl) : Runs s t :=
  ⟨1, (tick_of_not_suspended hs).trans h⟩

theorem Runs.trans {s t u : State} : Runs s t → Runs t u → Runs s u
  | ⟨n, h⟩, ⟨m, h'⟩ => ⟨m + n, by rw [Function.iterate_add_apply, h, h']⟩

/-- An active request without a fault is settled where it is suspended (R112). -/
theorem settled_active {s : State} (hf : s.fault = none) (hc : s.ctl ≠ .idle) : s.settled = s.suspended := by
  unfold State.settled State.suspended
  rw [hf]
  rcases hk : s.ctl with _ | ⟨req, _ | ⟨m, ms⟩, g, p⟩
  · exact absurd hk hc
  · rfl
  · cases m <;> rfl

theorem not_suspended_of_unsettled {s : State} (h : s.settled = false) : s.suspended = false := by
  have hf : s.fault = none := by
    rcases hf : s.fault with _ | r
    · rfl
    · simp [State.settled, hf] at h
  by_cases hc : s.ctl = .idle
  · simp [State.suspended, hc]
  · rw [← settled_active hf hc]; exact h

theorem Steps.iterate {k : Nat} {s t : State} (h : Steps k s t) : seqStep^[k] s = t := by
  induction h with
  | refl => rfl
  | step _ _ ih => rw [Function.iterate_succ_apply, ih]

theorem Steps.runs {k : Nat} {s t : State} (h : Steps k s t) (hs : s.suspended = false := by exact rfl) : Runs s t := by
  induction h with
  | refl s => exact .refl s
  | step h1 _ ih => exact (Runs.one rfl hs).trans (ih (not_suspended_of_unsettled h1))

theorem seqStep_idle {s : State} (h : s.ctl = .idle) : seqStep s = s := by simp [seqStep, h]

theorem tick_idle {s : State} (h : s.ctl = .idle) : tick s = s := by
  rw [tick_of_not_suspended (by simp [State.suspended, h]), seqStep_idle h]

theorem ticks_idle {s : State} (h : s.ctl = .idle) (n : Nat) : tick^[n] s = s := Function.iterate_fixed (tick_idle h) n

/-- No position clears a fault or raises one on its way (R203). -/
theorem Moves.fault {s t : State} {req : Instr} {m : Micro} {ms : List Micro} {g : List Byte} {p : Option Byte}
    (h : Moves s req ms g p m t) : t.fault = s.fault := by
  cases m <;>
    first
    | (cases h; rfl)
    | (obtain ⟨_, rfl⟩ := h; rfl)
    | (obtain ⟨_, _, rfl⟩ := h; rfl)
    | (obtain ⟨_, _, _, _, rfl⟩ := h; rfl)

/-- A fault stays (R203). -/
theorem seqStep_fault {s : State} {r : Fault} (h : s.fault = some r) : (seqStep s).fault = some r := by
  rcases hk : s.ctl with _ | ⟨req, _ | ⟨m, ms⟩, g, p⟩
  · rw [seqStep_idle hk, h]
  · simp [seqStep, hk, h]
  · rcases seqStep_moves hk with ⟨-, r', e⟩ | hm
    · simp [e, State.raise, h]
    · rw [hm.fault, h]

theorem tick_fault {s : State} {r : Fault} (h : s.fault = some r) : (tick s).fault = some r := by
  unfold tick; split <;> exact seqStep_fault h

/-- Where no fault is, there was none before (R203). -/
theorem iterate_fault {f : State → State} (hF : ∀ {s r}, State.fault s = some r → (f s).fault = some r) {s : State} {n : Nat}
    (h : (f^[n] s).fault = none) : s.fault = none := by
  rcases hf : s.fault with _ | r
  · rfl
  · have : (f^[n] s).fault = some r := by
      clear h
      induction n generalizing s with
      | zero => exact hf
      | succ n ih => exact ih (hF hf)
    rw [this] at h; cases h

/-- A drain is some number of sequencer steps. -/
theorem drain_iterate : ∀ (n : Nat) (s : State), ∃ m, drain n s = seqStep^[m] s
  | 0, s => ⟨0, rfl⟩
  | n + 1, s => by
    rw [drain]
    split
    · exact ⟨1, rfl⟩
    · obtain ⟨m, h⟩ := drain_iterate n (seqStep s)
      exact ⟨m + 1, h⟩

/-- A drain is at least one move; its first one is given. -/
theorem drain_ticks : ∀ (n : Nat) {s u : State}, seqStep u = tick s → ∃ m, 0 < m ∧ drain (n + 1) u = tick^[m] s
  | 0, s, u, h => ⟨1, by omega, by rw [drain]; split <;> exact h⟩
  | n + 1, s, u, h => by
    rw [drain]
    split
    · exact ⟨1, by omega, h⟩
    · rename_i hs
      obtain ⟨m, -, e⟩ := drain_ticks n (s := seqStep u) (u := seqStep u)
        (tick_of_not_suspended (not_suspended_of_unsettled (by simpa using hs))).symm
      exact ⟨m + 1, by omega, by rw [e, h]; rfl⟩

theorem drain_fuelOf (i : Instr) {s u : State} (h : seqStep u = tick s) : ∃ m, 0 < m ∧ drain (fuelOf i) u = tick^[m] s := by
  obtain ⟨n, e⟩ : ∃ n, fuelOf i = n + 1 := ⟨fuelOf i - 1, by unfold fuelOf; omega⟩
  rw [e]; exact drain_ticks n h

/-! ## Runs of moves as runs of steps -/

/-- A step of an active request in which the device does not act is at least one move. -/
theorem step_ticks {s : State} (hf : s.fault = none) (hc : s.ctl ≠ .idle) (hd : s.suspended = true → s.completes = false) :
    ∃ m, 0 < m ∧ step s = .next (tick^[m] s) := by
  rcases hk : s.ctl with _ | ⟨req, todo, g, p⟩
  · exact absurd hk hc
  have hset := settled_active hf hc
  rcases hs : s.suspended with _ | _
  · obtain ⟨m, h1, h2⟩ := drain_fuelOf req (tick_of_not_suspended hs).symm
    exact ⟨m, h1, by rw [step_unsettled hf (hset.trans hs), othersStep_active hk, h2]⟩
  · obtain ⟨m, h1, h2⟩ := drain_fuelOf req (s := s) (u := s.drawn)
      (by rw [tick_of_suspended hs, turned_of_not_completes (hd hs)])
    exact ⟨m, h1, by rw [step_others hf (hset.trans hs) (hd hs), othersStep_active (s := s.drawn) hk, h2]⟩

/-- The next move does not see whether the device's own step was a step of the machine. -/
theorem tick_completed {s : State} (hs : s.suspended = true) (hd : s.completes = true) : tick s.completed = tick s := by
  rw [tick_of_suspended (s := s.completed) hs, tick_of_suspended hs, turned_of_not_working completed_not_working,
    turned_of_completes hd]

/-- A run of moves that ends the request is a run of steps. -/
theorem runsOn_of_ticks (n : Nat) : ∀ {s : State}, (tick^[n] s).ctl = .idle → (tick^[n] s).fault = none →
    RunsOn s (tick^[n] s) := by
  induction n using Nat.strong_induction_on with
  | _ n ih =>
    intro s hc hf
    by_cases hi : s.ctl = .idle
    · rw [ticks_idle hi]; exact .here _
    have hs := iterate_fault tick_fault hf
    have key : ∀ {u : State}, u.fault = none → u.ctl ≠ .idle → (u.suspended = true → u.completes = false) →
        tick^[n] u = tick^[n] s → RunsOn u (tick^[n] s) := by
      intro u hfu hu hd hn
      obtain ⟨m, hm, e⟩ := step_ticks hfu hu hd
      rw [← hn] at hc hf ⊢
      rcases Nat.le_total m n with h | h
      · obtain ⟨k, rfl⟩ := Nat.exists_eq_add_of_le' h
        rw [Function.iterate_add_apply] at hc hf ⊢
        exact .further hu e (ih k (by omega) hc hf)
      · obtain ⟨k, rfl⟩ := Nat.exists_eq_add_of_le' h
        rw [Function.iterate_add_apply, ticks_idle hc] at e
        exact .further hu e (.here _)
    by_cases hd : s.suspended = true ∧ s.completes = true
    · refine .further hi (step_completes hs ((settled_active hs hi).trans hd.1) hd.2)
        (key (u := s.completed) hs hi (fun _ => completes_of_not_working completed_not_working) ?_)
      rcases n with _ | n
      · exact absurd hc hi
      · rw [Function.iterate_succ_apply, Function.iterate_succ_apply, tick_completed hd.1 hd.2]
    · exact key hs hi (fun h => by simpa [h] using hd) rfl

/-- An instruction that runs and whose moves lead to an idle, unfaulted state completes there. -/
theorem completes_of_runs {i : Instr} {s t : State}
    (he : exec i s = .next (drain (fuelOf i) { s with ctl := .active i (progOf s.par i) [] none }))
    (h : Runs { s with ctl := .active i (progOf s.par i) [] none } t) (hc : t.ctl = .idle) (hf : t.fault = none) : Completes i s t := by
  obtain ⟨n, rfl⟩ := h
  obtain ⟨m, -, e⟩ := drain_fuelOf i (tick_of_not_suspended (s := { s with ctl := .active i (progOf s.par i) [] none })
    (suspends_progOf s.par i)).symm
  rw [e] at he
  refine ⟨⟨_, he, ?_⟩, hc⟩
  rcases Nat.le_total m n with h | h
  · obtain ⟨k, rfl⟩ := Nat.exists_eq_add_of_le' h
    rw [Function.iterate_add_apply] at hc hf ⊢
    exact runsOn_of_ticks k hc hf
  · obtain ⟨k, rfl⟩ := Nat.exists_eq_add_of_le' h
    rw [Function.iterate_add_apply, ticks_idle hc]
    exact .here _

/-! ## Whatever running an instruction reaches -/

/-- A move: the sequencer's step, or at a suspended request the device's turn (R69, R107). -/
inductive Goes : State → State → Prop where
  | seq (s : State) : Goes s (seqStep s)
  | drawn {s : State} : s.suspended = true → Goes s s.drawn
  | completed {s : State} : s.suspended = true → Goes s s.completed

/-- Any number of moves. -/
abbrev Leads : State → State → Prop := Relation.ReflTransGen Goes

theorem leads_drain : ∀ (n : Nat) (s : State), Leads s (drain n s)
  | 0, s => .refl
  | n + 1, s => by
    rw [drain]
    split
    · exact .single (.seq s)
    · exact .head (.seq s) (leads_drain n _)

/-- Where a step of an active request leads (R69, R107). -/
theorem leads_step {s t : State} (hc : s.ctl ≠ .idle) (h : step s = .next t) : Leads s t := by
  have hf : s.fault = none := by
    unfold step at h
    split at h
    · cases h
    · assumption
  rcases hk : s.ctl with _ | ⟨req, todo, g, p⟩
  · exact absurd hk hc
  have hset := settled_active hf hc
  rcases hs : s.suspended with _ | _
  · rw [step_unsettled hf (hset.trans hs), othersStep_active hk] at h
    cases h; exact leads_drain _ _
  · rcases hd : s.completes with _ | _
    · rw [step_others hf (hset.trans hs) hd, othersStep_active (s := s.drawn) hk] at h
      cases h; exact .head (.drawn hs) (leads_drain _ _)
    · rw [step_completes hf (hset.trans hs) hd] at h
      cases h; exact .single (.completed hs)

theorem RunsOn.leads {t u : State} (h : RunsOn t u) : Leads t u := by
  induction h with
  | here t => exact .refl
  | further hc hs _ ih => exact (leads_step hc hs).trans ih

/-- From an idle block nothing further is reached by a request. -/
theorem RunsOn.idle {t u : State} (h : RunsOn t u) (hc : t.ctl = .idle) : u = t := by
  cases h with
  | here => rfl
  | further h _ _ => exact absurd hc h

/-- Whatever running an instruction reaches is the refused request, or some moves from its start. -/
theorem reaches_leads {i : Instr} {s u : State} (h : Reaches i s u) :
    u = s.refuse ∨ Leads { s with ctl := .active i (progOf s.par i) [] none } u := by
  obtain ⟨t, he, hr⟩ := h
  obtain ⟨-, hi, ⟨rfl, -, -⟩ | ⟨rfl, -, -⟩⟩ := exec_next he
  · exact .inl (hr.idle hi)
  · exact .inr ((leads_drain _ _).trans hr.leads)

/-- A property that every move keeps holds wherever moves lead. -/
theorem Leads.keeps {P : State → Prop} (hP : ∀ s t, P s → Goes s t → P t) {s t : State} (h : Leads s t) (hs : P s) : P t := by
  induction h with
  | refl => exact hs
  | tail _ hg ih => exact hP _ _ ih hg

/-! ## What transactions touch -/

/-- `t` is `s` but for what transactions and the device's turns write (R100-R102, R69). -/
def Touches (s t : State) : Prop :=
  ∃ ie sc cl tr q d ch n,
    t = { s with ie := ie, savedCfg := sc, csLevel := cl, trace := tr, miso := q, dev := d, choices := ch, turns := n }

theorem Touches.refl (s : State) : Touches s s := ⟨_, _, _, _, _, _, _, _, rfl⟩

theorem Touches.trans {s t u : State} : Touches s t → Touches t u → Touches s u
  | ⟨_, _, _, _, _, _, _, _, h⟩, ⟨ie, sc, cl, tr, q, d, ch, n, h'⟩ => ⟨ie, sc, cl, tr, q, d, ch, n, by rw [h', h]⟩

theorem touches_transacted (s : State) (bs : List Byte) : Touches s (s.transacted bs) := by
  obtain ⟨tr, q, d, ch, h⟩ := transacted_eq s bs
  exact ⟨_, _, _, tr, q, d, ch, _, h⟩

theorem touches_drawn (s : State) : Touches s s.drawn := ⟨_, _, _, _, _, _, _, _, rfl⟩

theorem touches_completed (s : State) : Touches s s.completed := ⟨_, _, _, _, _, _, _, _, rfl⟩

theorem touches_turned (s : State) : Touches s s.turned := ⟨_, _, _, _, _, _, _, _, rfl⟩

theorem touches_agains (s : State) (k : Nat) : Touches s (State.again^[k] s) := by
  induction k generalizing s with
  | zero => exact .refl s
  | succ k ih => exact ((touches_transacted s _).trans (touches_turned _)).trans (ih s.again)

theorem touches_waited (s : State) (k : Nat) : Touches s (s.waited k) := (touches_agains s k).trans (touches_transacted _ _)

theorem touches_writeEnabledAfter (s : State) (k : Nat) : Touches s (s.writeEnabledAfter k) := by
  unfold State.writeEnabledAfter
  split
  · exact (touches_waited s _).trans (touches_transacted _ _)
  · exact touches_transacted _ _

theorem touches_mutatingAfter (s : State) (k : Nat × Nat) : Touches s (s.mutatingAfter k) :=
  (touches_writeEnabledAfter s _).trans (touches_waited _ _)

theorem waited_csLevel (s : State) (k : Nat) : (s.waited k).csLevel = some true := transacted_csLevel _

section
variable {s t : State}

theorem Touches.par (h : Touches s t) : t.par = s.par := by obtain ⟨_, _, _, _, _, _, _, _, rfl⟩ := h; rfl
theorem Touches.expectedId (h : Touches s t) : t.expectedId = s.expectedId := by obtain ⟨_, _, _, _, _, _, _, _, rfl⟩ := h; rfl
theorem Touches.uidBuf (h : Touches s t) : t.uidBuf = s.uidBuf := by obtain ⟨_, _, _, _, _, _, _, _, rfl⟩ := h; rfl
theorem Touches.csDir (h : Touches s t) : t.csDir = s.csDir := by obtain ⟨_, _, _, _, _, _, _, _, rfl⟩ := h; rfl
theorem Touches.busUp (h : Touches s t) : t.busUp = s.busUp := by obtain ⟨_, _, _, _, _, _, _, _, rfl⟩ := h; rfl
theorem Touches.phase (h : Touches s t) : t.phase = s.phase := by obtain ⟨_, _, _, _, _, _, _, _, rfl⟩ := h; rfl
theorem Touches.ctl (h : Touches s t) : t.ctl = s.ctl := by obtain ⟨_, _, _, _, _, _, _, _, rfl⟩ := h; rfl
theorem Touches.fault (h : Touches s t) : t.fault = s.fault := by obtain ⟨_, _, _, _, _, _, _, _, rfl⟩ := h; rfl
theorem Touches.hrsp (h : Touches s t) : t.hrsp = s.hrsp := by obtain ⟨_, _, _, _, _, _, _, _, rfl⟩ := h; rfl
theorem Touches.wb (h : Touches s t) :
    t.wbAddr = s.wbAddr ∧ t.wbOff = s.wbOff ∧ t.wbRem = s.wbRem ∧ t.wbLimit = s.wbLimit := by
  obtain ⟨_, _, _, _, _, _, _, _, rfl⟩ := h; exact ⟨rfl, rfl, rfl, rfl⟩
end

/-! ## Ready-waits -/

section
variable {s : State} {req : Instr} {ms : List Micro} {g : List Byte} {p : Option Byte}

/-- A suspended request goes on behind the device's turn (R69, R107). -/
theorem runs_waitAgain : Runs { s with ctl := .active req (.waitAgain :: ms) g p }
    { s.turned with ctl := .active req (pollBody ++ ms) g p } :=
  ⟨1, (tick_of_suspended (s := { s with ctl := .active req (.waitAgain :: ms) g p }) rfl).trans rfl⟩

/-- The loop of a ready-wait, from the start of its body (R107). -/
theorem runs_pollBody {k : Nat} (hf : s.fault = none) (h1 : s.csDir = .output) (h2 : s.csLevel = some true) (hw : s.waits k) :
    ∃ q, Runs { s with ctl := .active req (pollBody ++ ms) g p } { s.waited k with ctl := .active req ms g q } := by
  have e1 := (steps_poll (s := s) (req := req) (ms := ms) (g := g) (p := p) hf h1 h2).runs
  have e2 := Runs.one (seqStep_pollTest (s := s.polled) (req := req) (ms := ms) (g := g) (b := s.pollByte))
  induction k generalizing s p with
  | zero =>
    rw [show busyOf s.pollByte = false from hw.2] at e2
    exact ⟨_, e1.trans e2⟩
  | succ k ih =>
    rw [show busyOf s.pollByte = true from hw.1 0 (by omega), if_pos rfl] at e2
    obtain ⟨q1, q2, q3⟩ := polled_keeps hf h1
    obtain ⟨q, e⟩ := ih (s := s.again) (p := some s.pollByte) q1 q2 q3 ⟨fun j hj => hw.1 (j + 1) (by omega), hw.2⟩
      (steps_poll (s := s.again) (req := req) (ms := ms) (g := g) (p := some s.pollByte) q1 q2 q3).runs
      (Runs.one seqStep_pollTest)
    exact ⟨q, ((e1.trans e2).trans runs_waitAgain).trans e⟩

/-- A ready-wait that ends (R107). -/
theorem runs_wait {k : Nat} (hf : s.fault = none) (h1 : s.csDir = .output) (h2 : s.csLevel = some true) (hw : s.waits k) :
    ∃ q, Runs { s with ctl := .active req (.wait :: ms) g p } { s.waited k with ctl := .active req ms g q } := by
  obtain ⟨q, e⟩ := runs_pollBody (req := req) (ms := ms) (g := g) (p := p) hf h1 h2 hw
  exact ⟨q, (Runs.one seqStep_wait).trans e⟩

/-- The write-enable transaction of a mutating issue and the ready-waits about it (R108, R110). -/
theorem runs_mutatingWaits {k : Nat × Nat} (hf : s.fault = none) (h1 : s.csDir = .output) (h2 : s.csLevel = some true)
    (hw : s.mutatingWaits k) :
    ∃ q, Runs { s with ctl := .active req (writeEnableTxn s.par ++ .wait :: ms) g p }
      { s.mutatingAfter k with ctl := .active req ms g q } := by
  have key : ∃ q, Runs { s with ctl := .active req (writeEnableTxn s.par ++ .wait :: ms) g p }
      { s.writeEnabledAfter k.1 with ctl := .active req (.wait :: ms) g q } := by
    by_cases hp : s.par.wePrepoll = true
    · obtain ⟨q, e⟩ := runs_wait (s := s) (req := req) (ms := .sel :: .tx 0x06#8 :: .unsel :: .wait :: ms) (g := g) (p := p)
        hf h1 h2 (hw.1 hp)
      have t := touches_waited s k.1
      have e2 := (steps_transaction (s := s.waited k.1) (req := req) (g := g) (p := q) (ms := .wait :: ms)
        (t.fault.trans hf) (t.csDir.trans h1) (waited_csLevel s _) rfl [0x06#8]).runs
      exact ⟨q, by simpa [writeEnableTxn, State.writeEnabledAfter, hp] using e.trans e2⟩
    · have e2 := (steps_transaction (s := s) (req := req) (g := g) (p := p) (ms := .wait :: ms) hf h1 h2 rfl [0x06#8]).runs
      exact ⟨p, by simpa [writeEnableTxn, State.writeEnabledAfter, hp] using e2⟩
  obtain ⟨q, e⟩ := key
  have t := touches_writeEnabledAfter s k.1
  obtain ⟨q', e'⟩ := runs_wait (s := s.writeEnabledAfter k.1) (req := req) (ms := ms) (g := g) (p := q) (t.fault.trans hf)
    (t.csDir.trans h1) (transacted_csLevel _) hw.2
  exact ⟨q', e.trans e'⟩

theorem issue_mutating (p : Params) (op : Byte) (ms : List Micro) :
    issue p op true ++ ms = writeEnableTxn p ++ .wait :: .sel :: .tx op :: ms := by
  simp [issue, List.append_assoc]

/-- A run that reaches a `return`. -/
theorem Runs.returns {s t : State} {c : Ret} {r : Response} (h : Runs s { t with ctl := .active req (.ret c :: ms) g p })
    (hr : responseOf c g t.uidBuf.toList = some r) : Runs s (t.respond r) := h.trans (.one (seqStep_ret hr))

/-- A non-mutating issue with receives, and its return (R110). -/
theorem runs_issue_read {k : Nat} (hf : s.fault = none) (h1 : s.csDir = .output) (h2 : s.csLevel = some true) (hw : s.waits k)
    (op : Byte) (bs : List Byte) (n : Nat) (c : Ret) (r : Response)
    (hr : responseOf c (((s.waited k).heardIn (op :: bs ++ List.replicate n s.par.fillByte)).drop (bs.length + 1))
      s.uidBuf.toList = some r) :
    Runs { s with ctl := .active req (issue s.par op false ++ (bs.map .tx ++ (rxMany n ++ [.unsel, .ret c]))) [] p }
      (((s.waited k).transacted (op :: bs ++ List.replicate n s.par.fillByte)).respond r) := by
  obtain ⟨q, e0⟩ := runs_wait (s := s) (req := req) (g := []) (p := p)
    (ms := .sel :: ((op :: bs).map .tx ++ (rxMany n ++ [.unsel, .ret c]))) hf h1 h2 hw
  have t : Touches s (s.waited k) := touches_waited s k
  have hl := waited_csLevel s k
  generalize s.waited k = w at *
  have e := (steps_read (s := w) (req := req) (g := []) (p := q) (ms := [.ret c]) (t.fault.trans hf) (t.csDir.trans h1) hl
    rfl (op :: bs) n).runs
  generalize hfb : s.par.fillByte = f at hr ⊢
  rw [show w.par.fillByte = f by rw [t.par]; exact hfb] at e
  exact (e0.trans e).returns (by rw [transacted_uidBuf, t.uidBuf]; exact hr)

/-- A UNIQUE-ID issue and its return (R132). -/
theorem runs_issue_uid {k : Nat} (hf : s.fault = none) (h1 : s.csDir = .output) (h2 : s.csLevel = some true) (hw : s.waits k)
    (op : Byte) (bs : List Byte) {fs : List Byte} (hfs : fs = List.replicate 8 s.par.fillByte) {u : Vector Byte 8}
    (hu : ((s.waited k).heardIn (op :: bs ++ fs)).drop (bs.length + 1) = u.toList) :
    Runs { s with ctl := .active req (issue s.par op false ++ (bs.map .tx ++ (rxUidAll ++ [.unsel, .ret .uid]))) g p }
      ({ (s.waited k).transacted (op :: bs ++ fs) with uidBuf := u.map some }.respond (.uid u.toList)) := by
  obtain ⟨q, e0⟩ := runs_wait (s := s) (req := req) (g := g) (p := p)
    (ms := .sel :: ((op :: bs).map .tx ++ (rxUidAll ++ [.unsel, .ret .uid]))) hf h1 h2 hw
  have t : Touches s (s.waited k) := touches_waited s k
  have hl := waited_csLevel s k
  generalize s.waited k = w at *
  have e1 := (steps_readUid (s := w) (req := req) (g := g) (p := q) (ms := [.ret .uid]) (t.fault.trans hf)
    (t.csDir.trans h1) hl rfl (op :: bs) (fs := fs) (by rw [hfs, t.par]) (u := u) hu).runs
  exact (e0.trans e1).returns (t := { w.transacted (op :: bs ++ fs) with uidBuf := u.map some })
    (by simp [responseOf, definedBytes_toList])

/-- A mutating issue of known bytes, and its return (R110). -/
theorem runs_issue_mutating {k : Nat × Nat} (hf : s.fault = none) (h1 : s.csDir = .output) (h2 : s.csLevel = some true)
    (hw : s.mutatingWaits k) (op : Byte) (bs : List Byte) (c : Ret) (r : Response)
    (hr : responseOf c g s.uidBuf.toList = some r) :
    Runs { s with ctl := .active req (issue s.par op true ++ (bs.map .tx ++ [.unsel, .ret c])) g p }
      (((s.mutatingAfter k).transacted (op :: bs)).respond r) := by
  rw [issue_mutating]
  obtain ⟨q, e0⟩ := runs_mutatingWaits (s := s) (req := req) (g := g) (p := p)
    (ms := .sel :: .tx op :: (bs.map .tx ++ [.unsel, .ret c])) hf h1 h2 hw
  have t := touches_mutatingAfter s k
  have hl : (s.mutatingAfter k).csLevel = some true := waited_csLevel _ _
  generalize s.mutatingAfter k = w at *
  have e1 := (steps_transaction (s := w) (req := req) (g := g) (p := q) (ms := [.ret c]) (t.fault.trans hf)
    (t.csDir.trans h1) hl rfl (op :: bs)).runs
  exact (e0.trans e1).returns (by rw [transacted_uidBuf, t.uidBuf]; exact hr)

/-! ## The bursts of WRITE_BYTES (R152) -/

/-- One burst, whatever its ready-waits take. -/
theorem runs_burst {a : Addr} {off n : Nat} {k : Nat × Nat} (hf : s.fault = none) (h1 : s.csDir = .output)
    (h2 : s.csLevel = some true) (ha : s.wbAddr = some a) (ho : s.wbOff = some off)
    (hw : s.mutatingWaits k) (hlen : off + n ≤ (bufferOf req).length) (hm : suspends ms = false) :
    ∃ q, Runs { s with ctl := .active req (burstBody s.par n ++ ms) g p }
      { ((s.mutatingAfter k).transacted (burstBytes (bufferOf req) ⟨a, off, n⟩)).wbAdvance n with
        ctl := .active req ms g q } := by
  rw [burstBody_append, issue_mutating]
  obtain ⟨q, e0⟩ := runs_mutatingWaits (s := s) (req := req) (g := g) (p := p)
    (ms := .sel :: .tx 0x02#8 :: .txWbHigh :: .txWbMid :: .txWbLow ::
      ((List.range' 0 n).map .txBuf ++ .unsel :: .wbNext n :: ms)) hf h1 h2 hw
  have t := touches_mutatingAfter s k
  have hc : (s.mutatingAfter k).csLevel = some true := waited_csLevel _ _
  generalize s.mutatingAfter k = w at *
  have e1 := (steps_open (s := w) (req := req) (g := g) (p := q)
    (ms := .txWbHigh :: .txWbMid :: .txWbLow :: ((List.range' 0 n).map .txBuf ++ .unsel :: .wbNext n :: ms))
    (t.fault.trans hf) (t.csDir.trans h1) hc rfl [0x02#8])
  have e2 := (steps_burst_tail (s := w) (req := req) (ms := ms) (g := g) (p := q) (t.fault.trans hf) (t.wb.1.trans ha)
    (t.wb.2.1.trans ho) (n := n) hlen hm)
  have e := (e1.trans e2).runs rfl
  exact ⟨q, e0.trans e⟩

/-- The loop's bursts, whatever their ready-waits take. -/
theorem runs_bursts : ∀ {fuel : Nat} {s : State} {a : Addr} {off rem limit : Nat} {p : Option Byte} {ks : List (Nat × Nat)},
    s.fault = none → s.csDir = .output → s.csLevel = some true → 1 ≤ limit → rem ≤ fuel →
    off + rem ≤ (bufferOf req).length → s.burstsWait (bufferOf req) (splitLoop fuel a off rem limit) ks →
    ∃ q a' off' limit',
      Runs { s.withWb (some a) (some off) (some rem) (some limit) with ctl := .active req (.burst :: ms) g p }
        { (s.burstedAfter (bufferOf req) (splitLoop fuel a off rem limit) ks).withWb (some a') (some off') (some 0) (some limit') with
          ctl := .active req (.burst :: ms) g q }
  | 0, s, a, off, rem, limit, p, ks, hf, h1, h2, hl, hfu, hlen, hr => by
    obtain rfl : rem = 0 := by omega
    exact ⟨p, a, off, limit, .refl _⟩
  | fuel + 1, s, a, off, rem, limit, p, ks, hf, h1, h2, hl, hfu, hlen, hr => by
    rcases Nat.eq_zero_or_pos rem with rfl | hpos
    · rw [splitLoop_zero] at hr ⊢
      exact ⟨p, a, off, limit, by cases ks <;> exact .refl _⟩
    · rw [splitLoop_succ a off hpos] at hr ⊢
      rcases ks with _ | ⟨k, ks⟩
      · exact hr.elim
      obtain ⟨hr1, hr2⟩ := hr
      have t := touches_mutatingAfter s k
      obtain ⟨q, e⟩ := runs_burst (s := s.withWb (some a) (some off) (some rem) (some limit)) (req := req) (ms := .burst :: ms)
        (g := g) (p := p) (k := k) hf h1 h2 rfl rfl ((mutatingWaits_withWb k).2 hr1) (n := min rem limit) (by omega) rfl
      rw [mutatingAfter_withWb, transacted_withWb, wbAdvance_withWb] at e
      have e0 := Runs.one (seqStep_burst (s := s.withWb (some a) (some off) (some rem) (some limit)) (req := req) (ms := ms)
        (g := g) (p := p) rfl rfl hpos rfl) rfl
      obtain ⟨q', a', off', limit', e'⟩ := runs_bursts (fuel := fuel)
        (s := (s.mutatingAfter k).transacted (burstBytes (bufferOf req) ⟨a, off, min rem limit⟩))
        (a := addrPlus a (min rem limit)) (off := off + min rem limit) (rem := rem - min rem limit) (limit := Config.pageBytes)
        (p := q) (ks := ks) (by rw [transacted_fault, t.fault, hf]) (by rw [transacted_csDir, t.csDir, h1])
        (transacted_csLevel _) (by decide) (by omega) (by omega) hr2
      exact ⟨q', a', off', limit', (e0.trans e).trans e'⟩

theorem touches_burstedAfter (data : List Byte) : ∀ (s : State) (bs : List Burst) (ks : List (Nat × Nat)),
    Touches s (s.burstedAfter data bs ks)
  | s, [], _ => by unfold State.burstedAfter; exact .refl s
  | s, _ :: _, [] => .refl s
  | s, _ :: bs, k :: ks =>
    ((touches_mutatingAfter s k).trans (touches_transacted _ _)).trans (touches_burstedAfter data _ bs ks)

/-- WRITE_BYTES whose ready-waits end sends the bursts of SPLIT (R152, R154). -/
theorem runs_writeBytes {s : State} (hf : s.fault = none) (h1 : s.csDir = .output) (h2 : s.csLevel = some true) (a : Addr)
    (data : List Byte) {ks : List (Nat × Nat)} (hr : s.burstsWait data (split a data.length) ks) :
    Runs { s with ctl := .active (.writeBytes a data.length data) (progWriteBytes a data.length) [] none }
      (((s.burstedAfter data (split a data.length) ks).withWb none none none none).respond .none) := by
  obtain ⟨q, a', off', limit', e⟩ := runs_bursts (req := .writeBytes a data.length data) (ms := [.wbClear, .ret .none]) (g := [])
    (p := none) (fuel := data.length) (a := a) (off := 0) (rem := data.length) (ks := ks) hf h1 h2 (firstLimit_bounds a).1
    le_rfl (by simp [bufferOf]) hr
  have e0 : Runs { s with ctl := .active (.writeBytes a data.length data) (progWriteBytes a data.length) [] none }
      { s.withWb (some a) (some 0) (some data.length) (some (firstLimit a)) with
        ctl := .active (.writeBytes a data.length data) [.burst, .wbClear, .ret .none] [] none } := .one rfl rfl
  have e1 := e0.trans e
  generalize hB : s.burstedAfter (bufferOf (.writeBytes a data.length data)) (splitLoop data.length a 0 data.length (firstLimit a)) ks = B at e1
  have hB' : s.burstedAfter data (split a data.length) ks = B := hB
  rw [hB']
  exact e1.trans ⟨3, rfl⟩
end

end Sys2Proof.Machine
end

