-- ==== Sys2Proof/Laws/Array.lean ====
section
/-! SUPPORT. Laws/Array.lean: the reference device's state through a run: it stays consistent (20_memory.md R68, R69), and
a run whose opcodes neither program nor erase leaves every cell as it was. -/

namespace Sys2Proof.Machine

open Host (Cell)

/-! ## Consistency -/

/-- The unit of a cell lies inside the chip (R51). -/
theorem unitBase_lt {k j x : Nat} (hj : j ≤ k) (hx : x < 2 ^ k) : unitBase (2 ^ j) x + 2 ^ j ≤ 2 ^ k := by
  unfold unitBase
  obtain ⟨d, rfl⟩ := Nat.exists_eq_add_of_le hj
  rw [Nat.pow_add] at hx ⊢
  have h1 : x / 2 ^ j < 2 ^ d := Nat.div_lt_of_lt_mul hx
  calc x / 2 ^ j * 2 ^ j + 2 ^ j = (x / 2 ^ j + 1) * 2 ^ j := by ring
    _ ≤ 2 ^ d * 2 ^ j := Nat.mul_le_mul_right _ h1
    _ = 2 ^ j * 2 ^ d := Nat.mul_comm _ _

theorem apply_wf {p : Params} (hp : p.wf) (op : DevOp) {m : List Cell} (h1 : Memory.wf m) (h2 : ∀ c ∈ m, c.1 < p.chipBytes) :
    Memory.wf (op.apply p m) ∧ ∀ c ∈ op.apply p m, c.1 < p.chipBytes := by
  cases op with
  | program a data =>
    refine ⟨programPage_wf _ _ _ _ h1, fun c hc => ?_⟩
    rcases mem_programPage data hc with hc | hc
    · exact h2 c hc
    · have hx : cellOf p a 0 < 2 ^ p.chipBits := Nat.mod_lt _ (Nat.two_pow_pos _)
      have := unitBase_lt (k := p.chipBits) (j := 8) (by have := hp.1; omega) hx
      have e : Config.pageBytes = 2 ^ 8 := rfl
      rw [e] at hc
      show c.1 < 2 ^ p.chipBits
      omega
  | eraseSector a => exact ⟨Memory.wf_erase h1 _ _, fun c hc => h2 c (List.mem_of_mem_filter hc)⟩
  | eraseBlock a => exact ⟨Memory.wf_erase h1 _ _, fun c hc => h2 c (List.mem_of_mem_filter hc)⟩
  | eraseChip => exact ⟨Memory.wf_erase h1 _ _, fun c hc => h2 c (List.mem_of_mem_filter hc)⟩
  | statusWrite v => exact ⟨h1, h2⟩

section
variable {d : Device} {p : Params}

theorem Device.wf_complete (hp : p.wf) (h : d.wf p) : (d.complete p).wf p := by
  unfold Device.complete
  split
  · rename_i op hop
    obtain ⟨h1, h2, -⟩ := h
    have := apply_wf hp op h1 h2
    exact ⟨this.1, this.2, rfl⟩
  · exact h

theorem Device.wf_effect (hp : p.wf) (h : d.wf p) (t : Txn) (op : Byte) : (d.effect p t op).wf p := by
  unfold Device.effect
  split
  · exact h
  · exact h
  · exact h
  · split
    · split
      · have := Device.wf_complete hp h
        exact ⟨this.1, this.2.1, rfl⟩
      · exact h
    · exact h

theorem Device.wf_close (hp : p.wf) (h : d.wf p) (a : Bool) : (d.close p a).wf p := by
  have h' : Device.wf { d with txn := none } p := h
  unfold Device.close
  split
  · dsimp only
    split
    · split
      · unfold Device.openEffect
        split
        · exact h
        · split
          · exact Device.wf_effect hp h' _ _
          · exact h
      · exact Device.wf_effect hp h' _ _
    · exact h
  · exact h

theorem Device.wf_unselect (hp : p.wf) (h : d.wf p) (tr : List Event) (script : List Bool) : (d.unselect p tr script).1.wf p := by
  unfold Device.unselect
  split
  · exact h
  · generalize (if d.needsChoice = true then drawChoice script tr 0 else (true, script)) = a
    have hc := Device.wf_close hp h a.1
    dsimp only
    by_cases h1 : (d.close p a.1).pending.isSome = true
    · rw [if_pos h1]
      by_cases h2 : (drawChoice a.2 tr 1).1 = true
      · simp only [h2, if_true]
        exact Device.wf_complete hp hc
      · simp only [h2]
        exact hc
    · rw [if_neg h1]
      exact hc

theorem Device.wf_select (h : d.wf p) : d.select.wf p := by unfold Device.select; split <;> exact h

theorem Device.wf_absorb (h : d.wf p) (b : Byte) : (d.absorb b).wf p := by unfold Device.absorb; split <;> exact h
end

/-- Every step of the sequencer keeps the device consistent. -/
theorem seqStep_wf {s : State} (h : s.wf) : (seqStep s).wf := by
  rcases hk : s.ctl with _ | ⟨req, _ | ⟨m, ms⟩, g, p⟩
  · rw [show seqStep s = s by simp [seqStep, hk]]; exact h
  · rw [show seqStep s = { s with ctl := .idle } by simp [seqStep, hk]]; exact h
  rcases seqStep_moves hk with ⟨-, r, e⟩ | hm
  · rw [e]; exact h
  obtain ⟨h1, h2⟩ := h
  generalize seqStep s = t at *
  cases m with
  | sel => subst hm; exact ⟨h1, Device.wf_select h2⟩
  | unsel => obtain ⟨c, -, rfl⟩ := hm; exact ⟨h1, Device.wf_unselect h1 h2 _ _⟩
  | tx b => subst hm; exact ⟨h1, Device.wf_absorb h2 _⟩
  | txWbHigh => obtain ⟨b, rfl⟩ := hm; exact ⟨h1, Device.wf_absorb h2 _⟩
  | txWbMid => obtain ⟨b, rfl⟩ := hm; exact ⟨h1, Device.wf_absorb h2 _⟩
  | txWbLow => obtain ⟨b, rfl⟩ := hm; exact ⟨h1, Device.wf_absorb h2 _⟩
  | txBuf i => obtain ⟨b, rfl⟩ := hm; exact ⟨h1, Device.wf_absorb h2 _⟩
  | rx => subst hm; exact ⟨h1, Device.wf_absorb h2 _⟩
  | rxUid i => subst hm; exact ⟨h1, Device.wf_absorb h2 _⟩
  | rxPoll => subst hm; exact ⟨h1, Device.wf_absorb h2 _⟩
  | wait => subst hm; exact ⟨h1, h2⟩
  | waitAgain => subst hm; exact ⟨h1, h2⟩
  | pollTest => obtain ⟨b, -, rfl⟩ := hm; exact ⟨h1, h2⟩
  | wbInit a len => subst hm; exact ⟨h1, h2⟩
  | burst => obtain ⟨_, _, -, -, rfl⟩ := hm; exact ⟨h1, h2⟩
  | wbNext n => subst hm; exact ⟨h1, h2⟩
  | wbClear => subst hm; exact ⟨h1, h2⟩
  | cfgSave => subst hm; exact ⟨h1, h2⟩
  | pinOutput => subst hm; exact ⟨h1, h2⟩
  | pinHigh => subst hm; exact ⟨h1, h2⟩
  | setInitialized => subst hm; exact ⟨h1, h2⟩
  | probe => subst hm; exact ⟨h1, h2⟩
  | idTest => obtain ⟨w, rfl⟩ := hm; exact ⟨h1, h2⟩
  | busEnd => subst hm; exact ⟨h1, h2⟩
  | ret k => obtain ⟨r, -, rfl⟩ := hm; exact ⟨h1, h2⟩

/-- Any instruction keeps the device consistent. -/
theorem exec_wf {i : Instr} {s t : State} (h : s.wf) (he : exec i s = .next t) : t.wf := by
  obtain ⟨-, -, ⟨rfl, -, -⟩ | ⟨rfl, -⟩⟩ := exec_next he
  · exact h
  · exact drain_keeps (P := State.wf) (fun _ => seqStep_wf) _ _ h

/-- The device's turn keeps the device consistent (R69). -/
theorem drawn_wf {s : State} (h : s.wf) : s.drawn.wf := h

theorem completed_wf {s : State} (h : s.wf) : s.completed.wf := ⟨h.1, Device.wf_complete h.1 h.2⟩

/-! ## Runs that leave the array alone -/

/-- An opcode that neither programs nor erases. -/
def harmless (op : Byte) : Bool := !mutating op || op == 0x01#8

/-- An operation that changes no cell. -/
def DevOp.quiet : DevOp → Bool
  | .statusWrite _ => true
  | _ => false

/-- Where a run stands between bus actions. -/
inductive Place where
  | outside
  | atOpcode
  | inside

/-- What is left of a run keeps to harmless opcodes. -/
def quiet : Place → List Micro → Bool
  | _, [] => true
  | .outside, m :: ms =>
    match m with
    | .sel => quiet .atOpcode ms
    | .wait | .waitAgain | .pollTest | .busEnd | .ret _ | .cfgSave | .pinOutput | .pinHigh | .setInitialized | .probe | .idTest =>
      quiet .outside ms
    | _ => false
  | .atOpcode, m :: ms =>
    match m with
    | .tx b => harmless b && quiet .inside ms
    | _ => false
  | .inside, m :: ms =>
    match m with
    | .tx _ | .rx | .rxUid _ | .rxPoll => quiet .inside ms
    | .unsel => quiet .outside ms
    | _ => false

/-- The device at such a place. -/
def Device.quietAt (d : Device) : Place → Prop
  | .outside => True
  | .atOpcode => d.model = .reference → ∀ t, d.txn = some t → t.opcode = none
  | .inside => d.model = .reference → ∀ t, d.txn = some t → ∃ op, t.opcode = some op ∧ harmless op = true

/-- The device has the cells `m`, and nothing pending that would change them. -/
def Device.holds (d : Device) (m : List Cell) : Prop := d.mem = m ∧ ∀ op, d.pending = some op → op.quiet = true

section
variable {d : Device} {p : Params} {m : List Cell}

theorem Device.holds_complete (h : d.holds m) : (d.complete p).holds m := by
  unfold Device.complete
  split
  · rename_i op hop
    have := h.2 op hop
    refine ⟨?_, by simp⟩
    cases op <;> first | exact h.1 | cases this
  · exact h

theorem operation_quiet {t : Txn} {op : Byte} {o : DevOp} (h : harmless op = true) (ho : t.operation op = some o) : o.quiet = true := by
  by_cases h1 : op = 0x01#8
  · subst h1
    simp only [Txn.operation] at ho
    obtain ⟨v, -, rfl⟩ := Option.map_eq_some_iff.1 ho
    rfl
  · have hm : mutating op = false := by
      unfold harmless at h
      cases hh : mutating op
      · rfl
      · rw [hh] at h; simp [h1] at h
    have : t.operation op = none := by
      unfold Txn.operation
      unfold mutating at hm
      split <;> rename_i he <;> simp [he] at hm ⊢
    rw [this] at ho; cases ho

theorem Device.holds_effect (h : d.holds m) (t : Txn) {op : Byte} (hop : harmless op = true) : (d.effect p t op).holds m := by
  unfold Device.effect
  split
  · exact h
  · exact h
  · exact h
  · split
    · rename_i o ho
      split
      · refine ⟨(Device.holds_complete h).1, fun o' ho' => ?_⟩
        cases ho'
        exact operation_quiet hop ho
      · exact h
    · exact h

theorem Device.holds_close (h : d.holds m)
    (hq : ∀ t, d.txn = some t → ∃ op, t.opcode = some op ∧ harmless op = true) (a : Bool) : (d.close p a).holds m := by
  have h' : Device.holds { d with txn := none } m := h
  unfold Device.close
  split
  · rename_i t ht
    obtain ⟨op, ho, hop⟩ := hq t ht
    dsimp only
    split
    · rename_i op' ho'
      rw [ho] at ho'; cases ho'
      split
      · unfold Device.openEffect
        split
        · exact h
        · split
          · exact Device.holds_effect h' _ hop
          · exact h
      · exact Device.holds_effect h' _ hop
    · exact h
  · exact h

theorem Device.holds_unselect (h : d.holds m) (hq : d.quietAt .inside) (tr : List Event) (script : List Bool) :
    (d.unselect p tr script).1.holds m := by
  unfold Device.unselect
  split
  · exact h
  · generalize (if d.needsChoice = true then drawChoice script tr 0 else (true, script)) = a
    have hc := Device.holds_close (p := p) h (hq ‹_›) a.1
    dsimp only
    by_cases h1 : (d.close p a.1).pending.isSome = true
    · rw [if_pos h1]
      by_cases h2 : (drawChoice a.2 tr 1).1 = true
      · simp only [h2, if_true]
        exact Device.holds_complete hc
      · simp only [h2]
        exact hc
    · rw [if_neg h1]
      exact hc

theorem Device.holds_select (h : d.holds m) : d.select.holds m := by unfold Device.select; split <;> exact h

theorem Device.holds_absorb (h : d.holds m) (b : Byte) : (d.absorb b).holds m := by
  unfold Device.absorb; split <;> exact h

theorem Device.quietAt_select (d : Device) : d.select.quietAt .atOpcode := by
  intro hm t ht
  unfold Device.select at ht hm
  split at ht
  · cases ht; rfl
  · rename_i he
    rw [he] at hm; simp only at hm; rw [he] at hm; cases hm

theorem Device.quietAt_opcode {b : Byte} (hb : harmless b = true) (h : d.quietAt .atOpcode) : (d.absorb b).quietAt .inside := by
  intro hm t ht
  have hm' : d.model = .reference := by rw [← hm]; exact (Device.same_absorb d b).1.symm
  unfold Device.absorb at ht
  split at ht
  · rename_i t' _ h'
    cases ht
    refine ⟨b, ?_, hb⟩
    simp only [Txn.absorb, h hm' t' h']
  · rename_i hn
    exact absurd ht (fun ht => hn t hm' ht)

theorem Device.quietAt_more (b : Byte) (h : d.quietAt .inside) : (d.absorb b).quietAt .inside := by
  intro hm t ht
  have hm' : d.model = .reference := by rw [← hm]; exact (Device.same_absorb d b).1.symm
  unfold Device.absorb at ht
  split at ht
  · rename_i t' _ h'
    cases ht
    obtain ⟨op, ho, hop⟩ := h hm' t' h'
    refine ⟨op, ?_, hop⟩
    simp only [Txn.absorb, ho]
    split <;> first | exact ho | rfl
  · exact h hm' t ht
end

/-- A run of harmless opcodes, and the cells it began with. -/
def QuietRun (m : List Cell) (s : State) : Prop :=
  s.dev.holds m ∧ (s.ctl = .idle ∨ ∃ req todo g p pl, s.ctl = .active req todo g p ∧ quiet pl todo = true ∧ s.dev.quietAt pl)

theorem QuietRun.step {m : List Cell} {s : State} (h : QuietRun m s) : QuietRun m (seqStep s) := by
  obtain ⟨hd, hk | ⟨req, todo, g, p, pl, hk, hq, hp⟩⟩ := h
  · rw [show seqStep s = s by simp [seqStep, hk]]; exact ⟨hd, .inl hk⟩
  rcases todo with _ | ⟨x, ms⟩
  · rw [show seqStep s = { s with ctl := .idle } by simp [seqStep, hk]]; exact ⟨hd, .inl rfl⟩
  rcases seqStep_moves hk with ⟨-, r, e⟩ | hm
  · rw [e]; exact ⟨hd, .inr ⟨req, x :: ms, g, p, pl, hk, hq, hp⟩⟩
  generalize seqStep s = t at *
  cases pl with
  | outside =>
    cases x with
    | sel => subst hm; exact ⟨Device.holds_select hd, .inr ⟨_, _, _, _, .atOpcode, rfl, hq, Device.quietAt_select _⟩⟩
    | wait => subst hm; exact ⟨hd, .inr ⟨_, _, _, _, .outside, rfl, hq, trivial⟩⟩
    | waitAgain => subst hm; exact ⟨hd, .inr ⟨_, _, _, _, .outside, rfl, hq, trivial⟩⟩
    | pollTest =>
      obtain ⟨b, -, rfl⟩ := hm
      refine ⟨hd, .inr ⟨_, _, _, _, .outside, rfl, ?_, trivial⟩⟩
      split <;> exact hq
    | busEnd => subst hm; exact ⟨hd, .inr ⟨_, _, _, _, .outside, rfl, hq, trivial⟩⟩
    | ret k => obtain ⟨r, -, rfl⟩ := hm; exact ⟨hd, .inl rfl⟩
    | cfgSave => subst hm; exact ⟨hd, .inr ⟨_, _, _, _, .outside, rfl, hq, trivial⟩⟩
    | pinOutput => subst hm; exact ⟨hd, .inr ⟨_, _, _, _, .outside, rfl, hq, trivial⟩⟩
    | pinHigh => subst hm; exact ⟨hd, .inr ⟨_, _, _, _, .outside, rfl, hq, trivial⟩⟩
    | setInitialized => subst hm; exact ⟨hd, .inr ⟨_, _, _, _, .outside, rfl, hq, trivial⟩⟩
    | probe =>
      subst hm
      refine ⟨hd, .inr ⟨_, _, _, _, .outside, rfl, ?_, trivial⟩⟩
      split <;> exact hq
    | idTest =>
      obtain ⟨w, rfl⟩ := hm
      refine ⟨hd, .inr ⟨_, _, _, _, .outside, rfl, ?_, trivial⟩⟩
      split
      · exact hq
      · rfl
    | _ => cases hq
  | atOpcode =>
    cases x with
    | tx b =>
      have hq' : harmless b = true ∧ quiet .inside ms = true := by
        have hq' : (harmless b && quiet .inside ms) = true := hq
        simpa using hq'
      subst hm; exact ⟨Device.holds_absorb hd _, .inr ⟨_, _, _, _, .inside, rfl, hq'.2, Device.quietAt_opcode hq'.1 hp⟩⟩
    | _ => cases hq
  | inside =>
    cases x with
    | tx b => subst hm; exact ⟨Device.holds_absorb hd _, .inr ⟨_, _, _, _, .inside, rfl, hq, Device.quietAt_more _ hp⟩⟩
    | rx => subst hm; exact ⟨Device.holds_absorb hd _, .inr ⟨_, _, _, _, .inside, rfl, hq, Device.quietAt_more _ hp⟩⟩
    | rxUid i => subst hm; exact ⟨Device.holds_absorb hd _, .inr ⟨_, _, _, _, .inside, rfl, hq, Device.quietAt_more _ hp⟩⟩
    | rxPoll => subst hm; exact ⟨Device.holds_absorb hd _, .inr ⟨_, _, _, _, .inside, rfl, hq, Device.quietAt_more _ hp⟩⟩
    | unsel => obtain ⟨c, -, rfl⟩ := hm; exact ⟨Device.holds_unselect hd hp _ _, .inr ⟨_, _, _, _, .outside, rfl, hq, trivial⟩⟩
    | _ => cases hq

theorem quiet_rxMany (n : Nat) (ms : List Micro) : quiet .inside (rxMany n ++ ms) = quiet .inside ms := by
  induction n with
  | zero => rfl
  | succ n ih => exact ih

/-- The operations and commands that neither program nor erase. -/
def readsOnly : Instr → Bool
  | .readStatus | .busy | .readDeviceId | .readUniqueId | .readByte _ | .readBytes _ _ | .sleep | .wakeup | .endOp
  | .initializeOp | .reserved | .writeEnable | .statusRead | .statusWrite _ | .arrayRead _ _ | .arrayReadLowFreq _ _ | .jedecId | .uniqueId
  | .deepPowerDown | .releaseFromPowerDown => true
  | _ => false

theorem quiet_progOf (p : Params) (i : Instr) (h : readsOnly i = true) : quiet .outside (progOf p i) = true := by
  cases i <;> try cases h
  case arrayRead a n =>
    have e : progOf p (.arrayRead a n) = ([.sel, .tx 0x0B#8] ++ txAddr a ++ txDummy p 1) ++ (rxMany n ++ [.unsel, .ret .bytes]) := by
      simp [progOf]
    rw [e]; exact quiet_rxMany n _
  case arrayReadLowFreq a n =>
    have e : progOf p (.arrayReadLowFreq a n) = ([.sel, .tx 0x03#8] ++ txAddr a) ++ (rxMany n ++ [.unsel, .ret .bytes]) := by
      simp [progOf]
    rw [e]; exact quiet_rxMany n _
  case readBytes a n =>
    have e : progOf p (.readBytes a n) = (issue p 0x0B#8 false ++ txAddr a ++ txDummy p 1) ++ (rxMany n ++ [.unsel, .ret .bytes]) := by
      simp [progOf, progReadBytes]
    rw [e]; exact quiet_rxMany n _
  case initializeOp =>
    unfold progOf progInitialize wakeupBody unprotectBody issue writeEnableTxn
    cases p.wePrepoll <;> rfl
  all_goals rfl

/-- A move keeps such a run: at a suspended request the device may complete what changes no cell. -/
theorem QuietRun.goes {m : List Cell} {s t : State} (h : QuietRun m s) (hg : Goes s t) : QuietRun m t := by
  cases hg with
  | seq => exact h.step
  | drawn hs => exact h
  | completed hs =>
    obtain ⟨hd, hk | ⟨req, todo, g, p, pl, hk, hq, -⟩⟩ := h
    · simp [State.suspended, hk] at hs
    · refine ⟨Device.holds_complete hd, .inr ⟨req, todo, g, p, .outside, hk, ?_, trivial⟩⟩
      rw [State.suspended, hk] at hs
      rcases todo with _ | ⟨x, ms⟩
      · cases hs
      · cases x with
        | waitAgain => cases pl <;> first | exact hq | cases hq
        | _ => cases hs

end Sys2Proof.Machine
end

