-- ==== Sys2Proof/Laws/Decode.lean ====
section
/-! SUPPORT. Laws/Decode.lean: one inversion lemma per wire format (30_encoding.md R82): what an accepted payload is. -/

namespace Sys2Proof

open Machine

theorem eq_replicate_of_all {f : Byte} {l : List Byte} (h : l.all (· == f) = true) : l = List.replicate l.length f := by
  rw [List.eq_replicate_iff]; simpa using h

theorem decodeNone_ok {i j : Instr} {l} (h : decodeNone i l = .ok j) : l = [] ∧ j = i := by
  cases l <;> simp_all [decodeNone]

theorem decodeFill_ok {f n i j} {l} (h : decodeFill f n i l = .ok j) : l = List.replicate n f ∧ j = i := by
  unfold decodeFill at h
  split at h
  · split at h
    · rename_i h1 h2; cases h; subst h1; exact ⟨eq_replicate_of_all h2, rfl⟩
    · cases h
  · cases h

theorem decodeByte_ok {mk j} {l} (h : decodeByte mk l = .ok j) : ∃ w, l = [w] ∧ j = mk w := by
  unfold decodeByte at h
  split at h
  · cases h; exact ⟨_, rfl, rfl⟩
  · cases h

theorem decodeAddr_ok {mk j} {l} (h : decodeAddr mk l = .ok j) : ∃ a, l = addrBytes a ∧ j = mk a := by
  unfold decodeAddr at h
  split at h
  · cases h; exact ⟨_, (addrBytes_addrOfBytes ..).symm, rfl⟩
  · cases h

theorem decodeAddrRead_ok {f mk j} {l} (h : decodeAddrRead f mk l = .ok j) : ∃ a n, l = addrBytes a ++ List.replicate n f ∧ j = mk a n := by
  unfold decodeAddrRead at h
  split at h
  · split at h
    · rename_i h2; cases h; exact ⟨_, _, by rw [addrBytes_addrOfBytes]; simpa using eq_replicate_of_all h2, rfl⟩
    · cases h
  · cases h

theorem decodeAddrDummyRead_ok {f mk j} {l} (h : decodeAddrDummyRead f mk l = .ok j) : ∃ a n, l = addrBytes a ++ List.replicate (n + 1) f ∧ j = mk a n := by
  unfold decodeAddrDummyRead at h
  split at h
  · split at h
    · rename_i h2; cases h; exact ⟨_, _, by rw [addrBytes_addrOfBytes]; simpa using eq_replicate_of_all h2, rfl⟩
    · cases h
  · cases h

theorem decodeAddrData_ok {mk j} {l} (h : decodeAddrData mk l = .ok j) : ∃ a d, l = addrBytes a ++ d ∧ burstFits d = true ∧ j = mk a d := by
  unfold decodeAddrData at h
  split at h
  · split at h
    · rename_i h2; cases h; exact ⟨_, _, by rw [addrBytes_addrOfBytes]; rfl, h2, rfl⟩
    · cases h
  · cases h

end Sys2Proof
end

