-- ==== Sys2Proof/Laws/Device.lean ====
section
/-! SUPPORT. Laws/Device.lean: whole transactions as the reference device sees them (20_memory.md R68-R77): what its
decoder holds, what it answers, and what an Unsel does. -/

namespace Sys2Proof.Machine

/-- A fresh transaction (R69). -/
def Txn.fresh : Txn := { opcode := none, count := 0, addr := 0, data := [], wel := false, free := false }

/-- The transaction after the given bytes (R68, R69). -/
def Txn.after (d : Device) (t : Txn) (bs : List Byte) : Txn := bs.foldl (Txn.absorb d) t

theorem sent_dev_eq (s : State) (bs : List Byte) : (s.sent bs).dev = bs.foldl Device.absorb s.dev := by
  induction bs generalizing s with
  | nil => rfl
  | cons b bs ih => exact ih _

theorem absorb_fold {d : Device} (hm : d.model = .reference) (bs : List Byte) : ∀ t, bs.foldl Device.absorb { d with txn := some t } = { d with txn := some (t.after d bs) } := by
  induction bs with
  | nil => intro t; rfl
  | cons b bs ih =>
    intro t
    have : Device.absorb { d with txn := some t } b = { d with txn := some (Txn.absorb d t b) } := by
      simp only [Device.absorb, hm]; rfl
    rw [List.foldl_cons, this, ih]; rfl

/-- The device inside a transaction of a reference device. -/
theorem selected_sent_dev {s : State} (hm : s.dev.model = .reference) (bs : List Byte) :
    (s.selected.sent bs).dev = { s.dev with txn := some (Txn.fresh.after s.dev bs) } := by
  rw [sent_dev_eq, ← absorb_fold hm]
  simp [Device.select, hm, Txn.fresh]

/-- The transaction after its opcode. -/
def Txn.opened (d : Device) (op : Byte) : Txn :=
  { opcode := some op, count := 1, addr := 0, data := [], wel := d.wel, free := d.openCase op }

theorem Txn.after_opcode (d : Device) (op : Byte) (bs : List Byte) : Txn.fresh.after d (op :: bs) = (Txn.opened d op).after d bs := rfl

/-- Bytes after the address positions, or of a command that has none. -/
theorem Txn.after_data (d : Device) {op : Byte} (bs : List Byte) : ∀ {t : Txn}, t.opcode = some op → (takesAddress op = true → 4 ≤ t.count) →
    t.after d bs = { t with count := t.count + bs.length, data := t.data ++ bs } := by
  induction bs with
  | nil => intro t _ _; simp [Txn.after]
  | cons b bs ih =>
    intro t h1 h2
    have h3 : (takesAddress op && decide (t.count ≤ 3)) = false := by
      cases h : takesAddress op
      · rfl
      · have := h2 h; simp; omega
    have : Txn.absorb d t b = { t with count := t.count + 1, data := t.data ++ [b] } := by
      simp only [Txn.absorb, h1, h3]; rfl
    show Txn.after d (Txn.absorb d t b) bs = _
    rw [this, ih (t := { t with count := t.count + 1, data := t.data ++ [b] }) h1 (by intro h; have := h2 h; simp only; omega)]
    simp only [List.length_cons, List.append_assoc, List.cons_append, List.nil_append]
    congr 1; omega

theorem addr_shift (a : Addr) : ((((0 : Addr) <<< 8 ||| (addrHigh a).setWidth 24) <<< 8 ||| (addrMid a).setWidth 24) <<< 8 ||| (addrLow a).setWidth 24) = a := by
  ext i hi
  simp [addrHigh, addrMid, addrLow]
  rcases Nat.lt_or_ge i 8 with h | h
  · simp [h, BitVec.getLsbD_eq_getElem hi]
  · rcases Nat.lt_or_ge (i - 8) 8 with h' | h'
    · rw [show 8 + (i - 8) = i by omega]
      simp [h', show ¬ i < 8 by omega, BitVec.getLsbD_eq_getElem hi]
    · rw [show 16 + (i - 8 - 8) = i by omega]
      simp [show ¬ (i - 8) < 8 by omega, show ¬ i < 8 by omega, show i - 8 - 8 < 8 by omega, BitVec.getLsbD_eq_getElem hi]

theorem Txn.absorb_addr (d : Device) {op : Byte} {t : Txn} (b : Byte) (h : takesAddress op = true) (h1 : t.opcode = some op) (h2 : t.count ≤ 3) :
    Txn.absorb d t b = { t with count := t.count + 1, addr := (t.addr <<< 8) ||| b.setWidth 24 } := by
  simp [Txn.absorb, h1, h, h2]

/-- The address positions (R71). -/
theorem Txn.after_addr (d : Device) {op : Byte} (h : takesAddress op = true) (a : Addr) (bs : List Byte) :
    Txn.fresh.after d (op :: (addrBytes a ++ bs)) = { Txn.opened d op with addr := a, count := 4 + bs.length, data := bs } := by
  have h1 : Txn.fresh.after d (op :: (addrBytes a ++ bs)) = Txn.after d { Txn.opened d op with addr := a, count := 4 } bs := by
    have : Txn.fresh.after d (op :: addrBytes a) = { Txn.opened d op with addr := a, count := 4 } := by
      rw [Txn.after_opcode]
      have e1 := Txn.absorb_addr d (t := Txn.opened d op) (addrHigh a) h rfl (show 1 ≤ 3 by decide)
      have e2 := Txn.absorb_addr d (t := { Txn.opened d op with count := 2, addr := (0 : Addr) <<< 8 ||| (addrHigh a).setWidth 24 })
        (addrMid a) h rfl (show 2 ≤ 3 by decide)
      have e3 := Txn.absorb_addr d (t := { Txn.opened d op with count := 3, addr := ((0 : Addr) <<< 8 ||| (addrHigh a).setWidth 24) <<< 8 ||| (addrMid a).setWidth 24 })
        (addrLow a) h rfl (show 3 ≤ 3 by decide)
      show Txn.absorb d (Txn.absorb d (Txn.absorb d (Txn.opened d op) (addrHigh a)) (addrMid a)) (addrLow a) = _
      rw [e1]
      rw [show (Txn.opened d op).count + 1 = 2 from rfl, show (Txn.opened d op).addr = 0 from rfl, e2]
      simp only
      rw [e3]
      simp only
      rw [addr_shift]
    rw [← this]; exact List.foldl_append
  rw [h1, Txn.after_data d (op := op) bs rfl (fun _ => le_rfl)]
  simp [Txn.opened]

/-- The address positions alone. -/
theorem Txn.after_addr_only (d : Device) {op : Byte} (h : takesAddress op = true) (a : Addr) :
    Txn.fresh.after d (op :: addrBytes a) = { Txn.opened d op with addr := a, count := 4, data := [] } := by
  have := Txn.after_addr d h a []
  rwa [List.append_nil] at this

/-- A command that has no address positions (R82). -/
theorem Txn.after_plain (d : Device) {op : Byte} (h : takesAddress op = false) (bs : List Byte) :
    Txn.fresh.after d (op :: bs) = { Txn.opened d op with count := 1 + bs.length, data := bs } := by
  rw [Txn.after_opcode, Txn.after_data d (op := op) bs rfl (by simp [h])]
  simp [Txn.opened]

/-- The device after a whole transaction of a reference device (R69). -/
theorem transacted_dev {s : State} (hm : s.dev.model = .reference) (bs : List Byte) :
    ∃ tr, ((s.transacted bs).dev, (s.transacted bs).choices) =
      Device.unselect { s.dev with txn := some (Txn.fresh.after s.dev bs) } s.par tr s.choices := by
  refine ⟨(s.selected.sent bs).trace, ?_⟩
  rw [← selected_sent_dev hm]
  simp [State.transacted, State.unselected]

/-- An Unsel that ends a transaction of no open case (R69). -/
theorem unselect_honoured {d d1 : Device} {p : Params} {t : Txn} {op : Byte} (hm : d.model = .reference)
    (ht : d.txn = some t) (ho : t.opcode = some op) (hfree : t.free = false)
    (he : Device.effect { d with txn := none } p t op = d1) (tr : List Event) (script : List Bool) :
    d.unselect p tr script =
      if d1.pending.isSome then
        (if (drawChoice script tr 1).1 then d1.complete p else d1, (drawChoice script tr 1).2)
      else (d1, script) := by
  subst he
  have h1 : d.needsChoice = false := by simp [Device.needsChoice, ht, hfree]
  have h2 : d.close p true = Device.effect { d with txn := none } p t op := by simp [Device.close, ht, ho, hfree]
  simp only [Device.unselect, hm, h1, h2, Bool.false_eq_true, if_false]

/-- The device and the choices after a transaction that is no open case and leaves nothing pending. -/
theorem transacted_quiet {s : State} {d' : Device} (hm : s.dev.model = .reference) {op : Byte} (bs : List Byte) {t : Txn}
    (ht : Txn.fresh.after s.dev (op :: bs) = t) (ho : t.opcode = some op) (hfree : t.free = false)
    (he : Device.effect { s.dev with txn := none } s.par t op = d') (hp : d'.pending = none) :
    (s.transacted (op :: bs)).dev = d' ∧ (s.transacted (op :: bs)).choices = s.choices := by
  obtain ⟨tr, h⟩ := transacted_dev hm (op :: bs)
  have := unselect_honoured (d := { s.dev with txn := some t }) (d1 := d') (p := s.par) hm rfl ho hfree he tr s.choices
  rw [hp] at this
  simp only [Option.isSome_none, Bool.false_eq_true, if_false] at this
  rw [ht, this] at h
  exact ⟨congrArg Prod.fst h, congrArg Prod.snd h⟩

theorem openCase_ready {d : Device} (h1 : d.busy = false) (h2 : d.dpd = false) {op : Byte} (h : knownOpcode op = true) : d.openCase op = false := by
  simp [Device.openCase, h1, h2, h]
/-! ## What the reference device answers (R70, R71, R75) -/

theorem reply_selected {s : State} {p : Params} {t : Txn} {op : Byte} (bs : List Byte) (hm : s.dev.model = .reference)
    (ht : Txn.fresh.after s.dev (op :: bs) = t) (ho : t.opcode = some op) (hfree : t.free = false) :
    (s.selected.sent (op :: bs)).dev.reply p = s.dev.honour p t op := by
  rw [selected_sent_dev hm, ht]
  simp only [Device.reply, hm, ho, hfree]
  rfl

/-- Known bytes answered one after the other. -/
theorem heard_known {s : State} (bs : List Byte) (out : Nat → Byte) (f : Byte) (n : Nat)
    (h : ∀ k, k < n → ((s.selected.sent (bs ++ List.replicate k f)).dev.reply s.par) = .byte (out k)) :
    (s.heardIn (bs ++ List.replicate n f)).drop bs.length = (List.range n).map out := by
  induction n with
  | zero =>
    simp only [List.replicate_zero, List.append_nil, List.range_zero, List.map_nil]
    rw [List.drop_eq_nil_of_le (by simp [State.heardIn])]
  | succ n ih =>
    rw [List.replicate_succ', ← List.append_assoc, State.heardIn, heard_append, List.drop_append_of_le_length (by simp), List.range_succ, List.map_append]
    rw [← ih (fun k hk => h k (by omega))]
    congr 1
    have := h n (by omega)
    simp [State.heard, State.answer, this]

/-- A command that changes no hidden state has no effect (R62). -/
theorem effect_none {d : Device} {p t} {op : Byte} (h : effectful op = false) : Device.effect d p t op = d := by
  have h1 : op ≠ 0x06#8 := by rintro rfl; simp [effectful] at h
  unfold effectful at h
  unfold Device.effect
  split <;> rename_i heq
  · simp [heq] at h
  · simp [heq] at h
  · simp [heq] at h
  · have : t.operation op = none := by
      unfold Txn.operation
      simp only at h
      unfold mutating at h
      split <;> rename_i he <;> simp [he] at h ⊢
    rw [this]

theorem busyOf_statusByte (b : Bool) (x : Byte) : busyOf (statusByte b x) = b := by
  cases b <;> simp [busyOf, statusByte]

end Sys2Proof.Machine
end

