-- ==== Sys2Proof/Laws/Lifecycle.lean ====
section
/-! SUPPORT. Laws/Lifecycle.lean: the stages of initialize (45_power_and_lifecycle.md R186): up to its wakeup, the wakeup, the
identifier probe and the unprotect. -/

namespace Sys2Proof.Machine

variable {s w : State} {req : Instr} {ms : List Micro} {g : List Byte} {q : Option Byte}

theorem admits_initialize (h3 : s.busUp = true) (h4 : s.phase ≠ .ended) : admits s .initializeOp = true := by
  unfold admits phaseAdmits
  cases h : s.phase <;> simp_all [opselAdmits, lengthAdmits]

/-- An admitted initialize runs (R204). -/
theorem exec_initialize (h : s.admitsInitialize) :
    exec .initializeOp s = .next (drain (fuelOf .initializeOp) { s with ctl := .active .initializeOp (progInitialize s.par) [] none }) := by
  show hostRequest _ _ s = _
  rw [hostRequest_next h.1 h.2.1 (admits_initialize h.2.2.1 h.2.2.2)]

/-- The first four positions of initialize, up to its wakeup (R186). -/
theorem steps_entered (hf : s.fault = none) :
    Steps 4 { s with ctl := .active .initializeOp (progInitialize s.par) [] none }
      { initializeEntered s with
        ctl := .active .initializeOp (.wait :: .sel :: .tx 0xAB#8 :: .unsel :: .probe :: unprotectBody s.par) [] none } := by
  let ms := wakeupBody s.par ++ .probe :: unprotectBody s.par
  have e1 := Steps.one (s := { s with ctl := .active .initializeOp (.cfgSave :: .pinOutput :: .pinHigh :: .setInitialized :: ms) [] none }) (t := s.cfgSaved) (ms := .pinOutput :: .pinHigh :: .setInitialized :: ms) (req := .initializeOp) (g := []) (p := none) rfl hf rfl
  have e2 := Steps.one (s := { s.cfgSaved with ctl := .active .initializeOp (.pinOutput :: .pinHigh :: .setInitialized :: ms) [] none }) (t := s.cfgSaved.pinMadeOutput) (ms := .pinHigh :: .setInitialized :: ms) (req := .initializeOp) (g := []) (p := none) rfl hf rfl
  have e3 := Steps.one (s := { s.cfgSaved.pinMadeOutput with ctl := .active .initializeOp (.pinHigh :: .setInitialized :: ms) [] none }) (t := s.cfgSaved.pinMadeOutput.pinMadeHigh) (ms := .setInitialized :: ms) (req := .initializeOp) (g := []) (p := none) rfl hf rfl
  have e4 := Steps.one (s := { s.cfgSaved.pinMadeOutput.pinMadeHigh with ctl := .active .initializeOp (.setInitialized :: ms) [] none }) (t := initializeEntered s) (ms := ms) (req := .initializeOp) (g := []) (p := none) (by simp [seqStep, microStep, initializeEntered, State.cfgSaved, State.pinMadeOutput, State.pinMadeHigh]) hf rfl
  exact ((e1.trans e2).trans e3).trans e4

/-- initialize up to its probe, the wakeup's ready-wait ending at its first poll (R186). -/
theorem steps_awake (hf : s.fault = none) (hp : (initializeEntered s).pollsReady) :
    Steps 13 { s with ctl := .active .initializeOp (progInitialize s.par) [] none }
      { initializeAwake s with ctl := .active .initializeOp (.probe :: unprotectBody s.par) [] (some (initializeEntered s).pollByte) } := by
  have e5 := steps_wait_ready (s := initializeEntered s) (req := .initializeOp) (g := []) (p := none)
    (ms := .sel :: ([0xAB#8].map .tx ++ .unsel :: .probe :: unprotectBody s.par)) hf rfl rfl rfl hp
  obtain ⟨q1, q2, q3⟩ := polled_keeps (s := initializeEntered s) hf rfl
  have e6 := steps_transaction (s := (initializeEntered s).polled) (req := .initializeOp) (g := [])
    (p := some (initializeEntered s).pollByte) (ms := .probe :: unprotectBody s.par) q1 q2 q3 rfl [0xAB#8]
  exact ((steps_entered hf).trans e5).trans e6

/-- The same, the wakeup's ready-wait reading busy `k` times. -/
theorem runs_awake {k : Nat} (hf : s.fault = none) (hw : (initializeEntered s).waits k) :
    ∃ q, Runs { s with ctl := .active .initializeOp (progInitialize s.par) [] none }
      { initializeAwakeAfter s k with ctl := .active .initializeOp (.probe :: unprotectBody s.par) [] q } := by
  obtain ⟨q, e5⟩ := runs_wait (s := initializeEntered s) (req := .initializeOp) (g := []) (p := none)
    (ms := .sel :: .tx 0xAB#8 :: .unsel :: .probe :: unprotectBody s.par) hf rfl rfl hw
  have t := touches_waited (initializeEntered s) k
  have e6 := (steps_transaction (s := (initializeEntered s).waited k) (req := .initializeOp) (g := []) (p := q)
    (ms := .probe :: unprotectBody s.par) (t.fault.trans hf) t.csDir (waited_csLevel _ _) rfl [0xAB#8]).runs
  exact ⟨q, ((steps_entered hf).runs.trans e5).trans e6⟩

theorem touches_awakeAfter (s : State) (k : Nat) : Touches (initializeEntered s) (initializeAwakeAfter s k) :=
  (touches_waited _ k).trans (touches_transacted _ _)

/-- What is as it was at the start of initialize once the device is awake. -/
theorem awake_keeps (hf : s.fault = none) :
    (initializeAwake s).fault = none ∧ (initializeAwake s).csDir = .output ∧ (initializeAwake s).csLevel = some true ∧
      (initializeAwake s).par = s.par ∧ (initializeAwake s).expectedId = s.expectedId := by
  simp [initializeAwake, State.polled, initializeEntered, hf]

theorem suspends_unprotect (P : Params) : suspends (unprotectBody P) = false := by
  cases h : P.wePrepoll <;> simp [unprotectBody, issue, writeEnableTxn, h, suspends]

/-- No identifier expected: the probe is skipped (R186). -/
theorem seqStep_probe_skip (h : s.expectedId = 0) :
    seqStep { s with ctl := .active req (.probe :: ms) g q } = { s with ctl := .active req ms g q } := by
  simp only [seqStep, microStep, h, if_true]

/-- The identifier probe and its two bytes (R186). -/
theorem steps_probe {x m d : Byte} {bs : List Byte} (hf : s.fault = none) (h1 : s.csDir = .output) (h2 : s.csLevel = some true)
    (h : s.expectedId ≠ 0) (hbs : bs = [0x9F#8, s.par.fillByte, s.par.fillByte]) (hh : s.heardIn bs = [x, m, d]) :
    Steps 6 { s with ctl := .active req (.probe :: ms) g q }
      { s.transacted bs with ctl := .active req (.idTest :: ms) (g ++ [m, d]) q } := by
  have e2 : Steps 1 { s with ctl := .active req (.probe :: ms) g q }
      { s with ctl := .active req (readIdTxn ++ .idTest :: ms) g q } :=
    Steps.one (t := s) (by simp only [seqStep, microStep, h, if_false]) hf rfl
  have e3 := steps_read (s := s) (req := req) (g := g) (p := q) (ms := .idTest :: ms) hf h1 h2 rfl [0x9F#8] 2
  rw [show [0x9F#8] ++ List.replicate 2 s.par.fillByte = bs by rw [hbs]; rfl, hh] at e3
  exact e2.trans e3

/-- The test of the identifier (R186). -/
theorem seqStep_idTest {m d : Byte} :
    seqStep { s with ctl := .active req (.idTest :: ms) [m, d] q } =
      { s with ctl := .active req (if packId m d = s.expectedId then ms else [.ret (.bool false)]) [m, d] q } := rfl

theorem packId_eq_iff (m d : Byte) (w : Word16) : packId m d = w ↔ 256 * m.toNat + d.toNat = w.toNat := by
  rw [← packId_toNat]
  exact ⟨congrArg _, BitVec.eq_of_toNat_eq⟩

/-- The unprotect, its ready-waits ending at their first poll (R186). -/
theorem steps_unprotect {P : Params} (hP : P = w.par) (q1 : w.fault = none) (q2 : w.csDir = .output)
    (q3 : w.csLevel = some true) (hr : w.mutatingReady) :
    ∃ k q', k ≤ 19 ∧ Steps k { w with ctl := .active req (unprotectBody P) g q }
      { w.mutatingIssued.transacted [0x01#8, 0x00#8] with ctl := .active req [.ret (.bool true)] g q' } := by
  subst hP
  obtain ⟨k, q', hk, e3⟩ := steps_issue_mutating (s := w) (req := req) (g := g) (p := q) (ms := [.unsel, .ret (.bool true)]) q1 q2 q3 rfl hr 0x01#8 [0x00#8]
  have m := mutatingIssued_keeps q1 q2
  have e4 := steps_close (s := w.mutatingIssued) (req := req) (g := g) (p := q') (ms := [.ret (.bool true)]) m.1 rfl [0x01#8, 0x00#8]
  exact ⟨_, q', by simp at hk; omega, e3.trans e4⟩

/-- The unprotect and its return, however long its ready-waits take (R186). -/
theorem runs_unprotect {k : Nat × Nat} {P : Params} (hP : P = w.par) (q1 : w.fault = none) (q2 : w.csDir = .output)
    (q3 : w.csLevel = some true) (hw : w.mutatingWaits k) :
    Runs { w with ctl := .active req (unprotectBody P) g q }
      (((w.mutatingAfter k).transacted [0x01#8, 0x00#8]).respond (.bool true)) := by
  subst hP
  exact runs_issue_mutating (s := w) q1 q2 q3 hw 0x01#8 [0x00#8] (.bool true) _ rfl

/-! ## Requests suspended at a poll that reads busy (R107, R112) -/

/-- A run that reaches a ready-wait whose first poll reads busy is suspended after that poll, as the whole drain. -/
theorem Steps.suspended {k n : Nat} {s0 : State} (h0 : Steps k s0 { s with ctl := .active req (.wait :: ms) g q })
    (hf : s.fault = none) (h1 : s.csDir = .output) (h2 : s.csLevel = some true) (hb : busyOf s.pollByte = true) (hn : k + 6 ≤ n) :
    Machine.drain n s0 = { s.polled with ctl := .active req (.waitAgain :: ms) g (some s.pollByte) } := by
  have e1 := Steps.one (seqStep_wait (s := s) (req := req) (ms := ms) (g := g) (p := q)) hf rfl
  have e2 := steps_poll (s := s) (req := req) (ms := ms) (g := g) (p := q) hf h1 h2
  have e3 := seqStep_pollTest (s := s.polled) (req := req) (ms := ms) (g := g) (b := s.pollByte)
  rw [hb, if_pos rfl] at e3
  rw [((h0.trans e1).trans e2).drain_end (by rw [e3]; simp [State.settled]) (by omega), e3]

/-- A run that reaches the write-enable of a mutating issue, suspended behind it or, with WE_PREPOLL, before it (R108, R110). -/
theorem Steps.suspended_mutating {k n : Nat} {s0 : State}
    (h0 : Steps k s0 { s with ctl := .active req (writeEnableTxn s.par ++ .wait :: ms) g q })
    (hf : s.fault = none) (h1 : s.csDir = .output) (h2 : s.csLevel = some true) (hn : k + 16 ≤ n) :
    (s.prepollReady → busyOf s.writeEnabled.pollByte = true →
      Machine.drain n s0 =
        { s.writeEnabled.polled with ctl := .active req (.waitAgain :: ms) g (some s.writeEnabled.pollByte) }) ∧
    (s.par.wePrepoll = true → busyOf s.pollByte = true →
      Machine.drain n s0 =
        { s.polled with
          ctl := .active req (.waitAgain :: .sel :: .tx 0x06#8 :: .unsel :: .wait :: ms) g (some s.pollByte) }) := by
  constructor
  · intro hp hb
    obtain ⟨k', q', hk, e⟩ := steps_writeEnable (s := s) (req := req) (g := g) (p := q) (ms := .wait :: ms) hf h1 h2 rfl hp
    obtain ⟨q1, q2, q3⟩ := writeEnabled_keeps hf h1
    exact (h0.trans e).suspended q1 q2 q3 hb (by omega)
  · intro hw hb
    have e : writeEnableTxn s.par ++ .wait :: ms = .wait :: .sel :: .tx 0x06#8 :: .unsel :: .wait :: ms := by
      simp [writeEnableTxn, hw]
    rw [e] at h0
    exact h0.suspended hf h1 h2 hb (by omega)

end Sys2Proof.Machine
end

