-- ==== Sys2Proof/Laws/ReadyDevice.lean ====
section
/-! SUPPORT. Laws/ReadyDevice.lean: the block's sequences against a ready reference device (20_memory.md R69-R73): its
polls read ready, its write-enable sets the latch, and its bursts write their range. -/

namespace Sys2Proof.Machine

open Host (Cell)

/-- A mutating command to a ready device: taken up with the latch set, and complete or not by its draw; without the latch
no effect (R69, D21). -/
theorem mutating_transaction {s : State} (h : s.deviceReady) {op : Byte} (bs : List Byte) {t : Txn} {o : DevOp}
    (ht : Txn.fresh.after s.dev (op :: bs) = t) (hopc : t.opcode = some op) (hfree : t.free = s.dev.openCase op)
    (hwel : t.wel = s.dev.wel) (hk : knownOpcode op = true) (hm : mutating op = true) (ho : t.operation op = some o) :
    (s.dev.wel = true → ∃ tr, ((s.transacted (op :: bs)).dev, (s.transacted (op :: bs)).choices) =
        (if (drawChoice s.choices tr 1).1 then { s.dev with wel := false, mem := o.apply s.par s.dev.mem, statusWritten := o.status s.dev.statusWritten }
          else { s.dev with wel := false, busy := true, pending := some o }, (drawChoice s.choices tr 1).2)) ∧
    (s.dev.wel = false → (s.transacted (op :: bs)).dev = s.dev) := by
  obtain ⟨h1, h2, h3, h4, h5⟩ := h
  have hdev : ({ s.dev with txn := none } : Device) = s.dev := by rw [← h5]
  have hfree' : t.free = false := by rw [hfree, openCase_ready h2 h4 hk]
  have heff : Device.effect s.dev s.par t op = if s.dev.wel then s.dev.start s.par o else s.dev := by
    unfold Device.effect
    unfold mutating at hm
    split <;> rename_i heq
    · simp [heq] at hm
    · simp [heq] at hm
    · simp [heq] at hm
    · rw [ho]; simp [hwel]
  refine ⟨?_, ?_⟩
  · intro hw
    obtain ⟨tr, e⟩ := transacted_dev h1 (op :: bs)
    have hst : s.dev.start s.par o = { s.dev with busy := true, pending := some o, wel := false } := by
      simp [Device.start, Device.complete, h3]
    rw [hw, if_pos rfl, hst] at heff
    have := unselect_honoured (d := { s.dev with txn := some t }) (d1 := { s.dev with busy := true, pending := some o, wel := false }) (p := s.par) h1 rfl hopc hfree'
      (by rw [← heff, ← hdev]) tr s.choices
    refine ⟨tr, ?_⟩
    rw [e, ht, this]
    simp only [Option.isSome_some, if_true, Device.complete]
    rw [← h2, ← h3]
  · intro hw
    rw [hw] at heff
    exact (transacted_quiet h1 bs ht hopc hfree' (by rw [hdev, heff]; rfl) h3).1


/-- The status byte of an awake reference device tells BUSY (R70). -/
theorem busyOf_answer {s : State} (h1 : s.dev.model = .reference) (h2 : s.dev.dpd = false) : busyOf s.pollByte = s.dev.busy := by
  have hh : s.heardIn s.pollBytes = [(s.selected.answer 0x05#8).1, ((s.selected.xferred 0x05#8).answer s.par.fillByte).1] := by
    simp [State.heardIn, State.pollBytes, State.heard]
  have hr : (s.selected.xferred 0x05#8).dev.reply s.par = .status s.dev.busy := by
    exact reply_selected [] h1 (Txn.after_plain _ rfl _) rfl (by simp [Txn.opened, Device.openCase, h2]; rfl)
  have ha : busyOf ((s.selected.xferred 0x05#8).answer s.par.fillByte).1 = s.dev.busy := by
    unfold State.answer
    rw [show (s.selected.xferred 0x05#8).dev.reply (s.selected.xferred 0x05#8).par = _ from hr]
    exact busyOf_statusByte _ _
  rw [State.pollByte, hh]
  exact ha

/-- A poll of a ready device (R62, R105). -/
theorem polled_ready {s : State} (h : s.deviceReady) : s.pollsReady ∧ s.polled.dev = s.dev ∧ s.polled.choices = s.choices := by
  obtain ⟨h1, h2, h3, h4, h5⟩ := h
  have hdev : ({ s.dev with txn := none } : Device) = s.dev := by rw [← h5]
  refine ⟨by rw [State.pollsReady, busyOf_answer h1 h4, h2], ?_⟩
  exact transacted_quiet h1 [s.par.fillByte] (Txn.after_plain _ rfl _) rfl (openCase_ready (op := 0x05#8) h2 h4 rfl)
    (by rw [effect_none rfl, hdev]) h3

/-- A write-enable transaction to a ready device (R70, R108). -/
theorem writeEnabled_ready {s : State} (h : s.deviceReady) : s.prepollReady ∧ s.writeEnabled.dev = { s.dev with wel := true } ∧ s.writeEnabled.choices = s.choices := by
  obtain ⟨p1, p2, p3⟩ := polled_ready h
  have key : ∀ u : State, u.dev = s.dev → u.choices = s.choices → (u.transacted [0x06#8]).dev = { s.dev with wel := true } ∧ (u.transacted [0x06#8]).choices = s.choices := by
    intro u hu hc
    obtain ⟨h1, h2, h3, h4, h5⟩ := h
    rw [← hu] at h1 h2 h3 h4 h5
    have := transacted_quiet (d' := { u.dev with wel := true }) h1 [] (Txn.after_plain _ rfl []) rfl (openCase_ready (op := 0x06#8) h2 h4 rfl) (by simp [Device.effect, h5]) h3
    rwa [hu, hc] at this
  refine ⟨fun _ => p1, ?_⟩
  unfold State.writeEnabled
  split
  · exact key _ p2 p3
  · exact key _ rfl rfl

/-- A mutating issue to a ready device (R110). -/
theorem mutatingIssued_ready {s : State} (h : s.deviceReady) : s.mutatingReady ∧ s.mutatingIssued.dev = { s.dev with wel := true } ∧ s.mutatingIssued.choices = s.choices := by
  obtain ⟨w1, w2, w3⟩ := writeEnabled_ready h
  have hr : s.writeEnabled.deviceReady := by
    obtain ⟨h1, h2, h3, h4, h5⟩ := h
    refine ⟨?_, ?_, ?_, ?_, ?_⟩ <;> rw [w2] <;> assumption
  obtain ⟨p1, p2, p3⟩ := polled_ready hr
  exact ⟨⟨w1, p1⟩, by rw [State.mutatingIssued, p2, w2], by rw [State.mutatingIssued, p3, w3]⟩

theorem mutatingIssued_par (s : State) : s.mutatingIssued.par = s.par := by
  unfold State.mutatingIssued State.polled State.writeEnabled State.polled; split <;> simp

/-- A mutating issue to a ready device, with its command: the operation is complete or pending, by the next choice (R69,
R110). -/
theorem issued_ready {s : State} (h : s.deviceReady) {op : Byte} (bs : List Byte) {t : Txn} {o : DevOp}
    (ht : Txn.fresh.after s.mutatingIssued.dev (op :: bs) = t) (hopc : t.opcode = some op)
    (hfree : t.free = s.mutatingIssued.dev.openCase op) (hwel : t.wel = s.mutatingIssued.dev.wel)
    (hk : knownOpcode op = true) (hm : mutating op = true) (ho : t.operation op = some o) :
    ∃ tr, ((s.mutatingIssued.transacted (op :: bs)).dev, (s.mutatingIssued.transacted (op :: bs)).choices) =
      (if (drawChoice s.choices tr 1).1 then
          { s.dev with wel := false, mem := o.apply s.par s.dev.mem, statusWritten := o.status s.dev.statusWritten }
        else { s.dev with wel := false, busy := true, pending := some o }, (drawChoice s.choices tr 1).2) := by
  obtain ⟨-, m2, m3⟩ := mutatingIssued_ready h
  have hr : s.mutatingIssued.deviceReady := by
    obtain ⟨h1, h2, h3, h4, h5⟩ := h
    refine ⟨?_, ?_, ?_, ?_, ?_⟩ <;> rw [m2] <;> assumption
  obtain ⟨tr, e⟩ := (mutating_transaction hr bs ht hopc hfree hwel hk hm ho).1 (by rw [m2])
  refine ⟨tr, ?_⟩
  rw [m3, mutatingIssued_par] at e
  rw [e, m2]

/-- One burst (R72). -/
theorem burst_ready {s : State} (h : s.deviceReady) (a : Addr) {data : List Byte} (hd : burstFits data = true) :
    ∃ tr, ((s.mutatingIssued.transacted (0x02#8 :: addrBytes a ++ data)).dev,
        (s.mutatingIssued.transacted (0x02#8 :: addrBytes a ++ data)).choices) =
      (if (drawChoice s.choices tr 1).1 then
          { s.dev with wel := false, mem := (DevOp.program a data).apply s.par s.dev.mem }
        else { s.dev with wel := false, busy := true, pending := some (.program a data) },
        (drawChoice s.choices tr 1).2) :=
  issued_ready h (op := 0x02#8) (addrBytes a ++ data) (Txn.after_addr _ rfl a data) rfl rfl rfl rfl rfl
    (by simp [Txn.operation, hd])

/-! ## Whole ranges -/

/-- The cells `m` after the first `off` bytes of `data` have been written from `base` on over the erased cells `m0`. -/
structure Written (m0 : List Cell) (base : Nat) (data : List Byte) (off : Nat) (m : List Cell) : Prop where
  wf : Memory.wf m
  done : ∀ i (h : i < data.length), i < off → Memory.read m (base + i) = data[i]
  rest : ∀ x, (x < base ∨ base + off ≤ x) → Memory.read m x = Memory.read m0 x

/-- One burst inside its page writes its bytes (R52, R72). -/
theorem Written.burst {m0 m : List Cell} {data : List Byte} {p : Params} {a : Addr} {base off n : Nat} (hp : p.wf)
    (hin : base + data.length ≤ p.chipBytes) (he : ∀ i, i < data.length → Memory.read m0 (base + i) = 0xFF#8)
    (h : Written m0 base data off m) (h1 : 1 ≤ n) (h2 : off + n ≤ data.length) (ha : a.toNat = (base + off) % 2 ^ 24) (hroom : a.toNat % 256 + n ≤ 256) :
    Written m0 base data (off + n) ((DevOp.program a ((data.drop off).take n)).apply p m) := by
  have hchip : p.chipBytes ≤ 2 ^ 24 := Nat.pow_le_pow_right (by decide) hp.2.1
  have haddr : a.toNat = base + off := by rw [ha]; omega
  have hcell : cellOf p a 0 = base + off := by
    unfold cellOf; rw [haddr]; exact Nat.mod_eq_of_lt (by omega)
  have hlen : ((data.drop off).take n).length = n := by simp; omega
  have happ : (DevOp.program a ((data.drop off).take n)).apply p m = programPage ((base + off) / 256 * 256) ((base + off) % 256) 0 ((data.drop off).take n) m := by
    simp only [DevOp.apply, hcell, unitBase, Config.pageBytes, haddr]
  rw [haddr] at hroom
  have hpos : ∀ i, i < n → (base + off) / 256 * 256 + ((base + off) % 256 + i) % 256 = base + (off + i) := by intro i hi; omega
  rw [happ]
  refine ⟨programPage_wf _ _ _ _ h.wf, ?_, ?_⟩
  · intro i hi hio
    by_cases hlt : i < off
    · rw [programPage_read_other _ _ h.wf]
      · exact h.done i hi hlt
      · intro j _ hj
        rw [hlen] at hj
        rw [show Config.pageBytes = 256 from rfl, hpos j (by omega)]
        omega
    · have hit := programPage_read_hit (base := (base + off) / 256 * 256) (start := (base + off) % 256) ((data.drop off).take n) (i := 0) (m := m) (i - off) h.wf
        (by rw [hlen]; omega) (by rw [hlen]; simp [Config.pageBytes]; omega)
      rw [Nat.add_zero, show Config.pageBytes = 256 from rfl, hpos (i - off) (by omega), show off + (i - off) = i by omega] at hit
      rw [hit, h.rest _ (by omega), he i hi]
      simp only [List.getElem_take, List.getElem_drop]
      simp only [show off + (i - off) = i by omega]
      exact BitVec.allOnes_and (w := 8)
  · intro x hx
    rw [programPage_read_other _ _ h.wf]
    · exact h.rest x (by omega)
    · intro j _ hj
      rw [hlen] at hj
      rw [show Config.pageBytes = 256 from rfl, hpos j (by omega)]
      omega

/-- What the device keeps from burst to burst, apart from being ready: with its pending operation complete, the array
holds what was sent. -/
structure Bursting (p : Params) (d0 : Device) (base : Nat) (data : List Byte) (off : Nat) (s : State) : Prop where
  par : s.par = p
  model : s.dev.model = .reference
  awake : s.dev.dpd = false
  txn : s.dev.txn = none
  busy : s.dev.busy = s.dev.pending.isSome
  cells : Written d0.mem base data off (s.dev.complete p).mem

section
variable {p : Params} {d0 : Device} {base off n : Nat} {data : List Byte} {s u : State}

theorem Bursting.ready (h : Bursting p d0 base data off s) (hb : s.dev.busy = false) : s.deviceReady := by
  refine ⟨h.model, hb, ?_, h.awake, h.txn⟩
  have := h.busy
  rw [hb] at this
  exact Option.not_isSome_iff_eq_none.1 (by rw [← this]; simp)

theorem Bursting.written (h : Bursting p d0 base data off s) (hb : s.dev.busy = false) :
    Written d0.mem base data off s.dev.mem := by
  have := h.cells
  rwa [Device.complete, (h.ready hb).2.2.1] at this

/-- The latch does not matter to it. -/
theorem Bursting.of_dev {b : Bool} (h : Bursting p d0 base data off s) (hp : u.par = s.par) (hd : u.dev = { s.dev with wel := b }) :
    Bursting p d0 base data off u := by
  refine ⟨hp.trans h.par, ?_, ?_, ?_, ?_, ?_⟩ <;> rw [hd]
  · exact h.model
  · exact h.awake
  · exact h.txn
  · exact h.busy
  · have := h.cells
    unfold Device.complete at this ⊢
    dsimp only
    split
    · rename_i op hop; simp only [hop] at this; exact this
    · rename_i hop; simp only [hop] at this; exact this

/-- A mutating issue to a ready device sets the latch and keeps it. -/
theorem Bursting.issued (h : Bursting p d0 base data off s) (hb : s.dev.busy = false) :
    Bursting p d0 base data off s.mutatingIssued ∧ s.mutatingIssued.dev.busy = false ∧ s.mutatingIssued.dev.wel = true ∧
      s.mutatingIssued.choices = s.choices := by
  obtain ⟨-, m2, m3⟩ := mutatingIssued_ready (h.ready hb)
  exact ⟨h.of_dev (mutatingIssued_par s) m2, by rw [m2]; exact hb, by rw [m2], m3⟩

/-- One burst to a ready device whose latch is set. -/
theorem Bursting.write {a : Addr} (hp : p.wf)
    (hin : base + data.length ≤ p.chipBytes) (he : ∀ i, i < data.length → Memory.read d0.mem (base + i) = 0xFF#8)
    (h : Bursting p d0 base data off s) (hb : s.dev.busy = false) (hwel : s.dev.wel = true) (h1 : 1 ≤ n) (h2 : off + n ≤ data.length)
    (ha : a.toNat = (base + off) % 2 ^ 24) (hroom : a.toNat % 256 + n ≤ 256) :
    let u := s.transacted (burstBytes data ⟨a, off, n⟩)
    Bursting p d0 base data (off + n) u ∧ ∀ rest, s.choices = true :: rest → u.dev.busy = false ∧ u.choices = rest := by
  intro u
  have hr := h.ready hb
  have hlen : ((data.drop off).take n).length = n := by simp; omega
  have hfit : burstFits ((data.drop off).take n) = true := by simp only [burstFits, hlen]; simp; omega
  obtain ⟨tr, e⟩ := (mutating_transaction hr (op := 0x02#8) (o := .program a ((data.drop off).take n))
    (addrBytes a ++ (data.drop off).take n) (Txn.after_addr _ rfl a _) rfl rfl rfl rfl rfl (by simp [Txn.operation, hfit])).1 hwel
  have e1 : u.dev = _ := congrArg Prod.fst e
  have e2 : u.choices = _ := congrArg Prod.snd e
  have hpar : u.par = p := by simp [u, h.par]
  have hw := (h.written hb).burst hp hin he h1 h2 ha hroom
  rw [h.par] at e1
  refine ⟨?_, ?_⟩
  · simp only at e1
    split at e1
    · refine ⟨hpar, by rw [e1]; exact h.model, by rw [e1]; exact h.awake, by rw [e1]; exact h.txn, by rw [e1]; exact h.busy, ?_⟩
      rw [e1, Device.complete]
      simp only [hr.2.2.1]
      exact hw
    · exact ⟨hpar, by rw [e1]; exact h.model, by rw [e1]; exact h.awake, by rw [e1]; exact h.txn, by rw [e1]; rfl, by rw [e1]; exact hw⟩
  · intro rest hc
    rw [hc] at e1 e2
    exact ⟨by rw [e1]; exact hb, e2⟩

/-- A poll of an awake device leaves it as it is, or completes its pending operation (R69, R70). -/
theorem polled_awake {s : State} (h1 : s.dev.model = .reference) (h2 : s.dev.dpd = false) (h3 : s.dev.txn = none) :
    s.polled.dev = s.dev ∨ s.polled.dev = s.dev.complete s.par := by
  obtain ⟨tr, h⟩ := transacted_dev h1 s.pollBytes
  have hdev : ({ s.dev with txn := none } : Device) = s.dev := by rw [← h3]
  have ht := Txn.after_plain s.dev (op := 0x05#8) rfl [s.par.fillByte]
  have := unselect_honoured (d := { s.dev with txn := some (Txn.fresh.after s.dev s.pollBytes) }) (d1 := s.dev) (p := s.par)
    (op := 0x05#8) h1 rfl (by rw [State.pollBytes, ht]; rfl)
    (by rw [State.pollBytes, ht]; simp [Txn.opened, Device.openCase, h2]; rfl) (by rw [effect_none rfl, ← hdev]) tr s.choices
  rw [this] at h
  have e : s.polled.dev = _ := congrArg Prod.fst h
  rw [e]
  split
  · split
    · exact .inr rfl
    · exact .inl rfl
  · exact .inl rfl

theorem Device.complete_complete (d : Device) (p : Params) : (d.complete p).complete p = d.complete p := by
  rcases h : d.pending with _ | op <;> simp [Device.complete, h]

/-- A pending operation may complete without being seen. -/
theorem Bursting.of_complete (h : Bursting p d0 base data off s) (hpar : u.par = s.par)
    (e : u.dev = s.dev ∨ u.dev = s.dev.complete s.par) : Bursting p d0 base data off u := by
  rcases e with e | e
  · exact ⟨hpar.trans h.par, by rw [e]; exact h.model, by rw [e]; exact h.awake, by rw [e]; exact h.txn, by rw [e]; exact h.busy,
      by rw [e]; exact h.cells⟩
  · rw [h.par] at e
    have key : (s.dev.complete p).model = .reference ∧ (s.dev.complete p).dpd = false ∧ (s.dev.complete p).txn = none ∧
        (s.dev.complete p).busy = (s.dev.complete p).pending.isSome := by
      have := h.model; have := h.awake; have := h.txn; have := h.busy
      unfold Device.complete; split <;> simp_all
    exact ⟨hpar.trans h.par, by rw [e]; exact key.1, by rw [e]; exact key.2.1, by rw [e]; exact key.2.2.1, by rw [e]; exact key.2.2.2,
      by rw [e, Device.complete_complete]; exact h.cells⟩

theorem Bursting.polled (h : Bursting p d0 base data off s) : Bursting p d0 base data off s.polled :=
  h.of_complete (transacted_par _) (polled_awake h.model h.awake h.txn)

theorem Bursting.turned (h : Bursting p d0 base data off s) : Bursting p d0 base data off s.turned :=
  h.of_complete rfl turned_dev_or

/-- A ready-wait that ends leaves a ready device (R107). -/
theorem Bursting.waited {k : Nat} (h : Bursting p d0 base data off s) (hw : s.waits k) :
    Bursting p d0 base data off (s.waited k) ∧ (s.waited k).dev.busy = false ∧
      (s.dev.busy = false → (s.waited k).dev = s.dev) := by
  have hk : ∀ j, Bursting p d0 base data off (State.again^[j] s) := by
    intro j
    induction j with
    | zero => exact h
    | succ j ih => rw [Function.iterate_succ_apply']; exact ih.polled.turned
  have hb : (State.again^[k] s).dev.busy = false := by
    rw [← busyOf_answer (hk k).model (hk k).awake]; exact hw.2
  have e := (polled_ready ((hk k).ready hb)).2.1
  refine ⟨(hk k).polled, by rw [State.waited, e]; exact hb, fun h0 => ?_⟩
  rw [State.waited, e]
  clear e hb hw
  induction k with
  | zero => rfl
  | succ k ih =>
    rw [Function.iterate_succ_apply']
    have hb : (State.again^[k] s).dev.busy = false := by rw [ih]; exact h0
    have hr := (hk k).ready hb
    have e := (polled_ready hr).2.1
    rw [State.again, turned_of_not_working (working_of_pending (by rw [e]; exact hr.2.2.1)), e, ih]

/-- A mutating issue with a ready-wait before its write-enable, however long its ready-waits take (R108, R110). -/
theorem Bursting.waitedMutating {k : Nat × Nat} (hp : p.wePrepoll = true) (h : Bursting p d0 base data off s) (hw : s.mutatingWaits k) :
    Bursting p d0 base data off (s.mutatingAfter k) ∧ (s.mutatingAfter k).dev.busy = false ∧ (s.mutatingAfter k).dev.wel = true := by
  have hpre : s.par.wePrepoll = true := by rw [h.par]; exact hp
  obtain ⟨b1, b2, -⟩ := h.waited (hw.1 hpre)
  have e : s.writeEnabledAfter k.1 = (s.waited k.1).transacted [0x06#8] := by simp [State.writeEnabledAfter, hpre]
  have hr := b1.ready b2
  have d := (transacted_quiet (d' := { (s.waited k.1).dev with wel := true }) hr.1 [] (Txn.after_plain _ rfl [])
    rfl (openCase_ready (op := 0x06#8) hr.2.1 hr.2.2.2.1 rfl) (by simp [Device.effect, ← hr.2.2.2.2]) hr.2.2.1).1
  rw [← e] at d
  have b3 := b1.of_dev (u := s.writeEnabledAfter k.1) (by rw [e, transacted_par]) d
  obtain ⟨b4, b5, b6⟩ := b3.waited hw.2
  exact ⟨b4, b5, by rw [State.mutatingAfter, b6 (by rw [d]; exact b2), d]⟩

end

/-- The bursts of the loop on a device that completes each at once: its ready-waits end at their first poll, and the range
is written. -/
theorem bursts_complete {p : Params} {d0 : Device} {base : Nat} {data : List Byte} (hp : p.wf)
    (hin : base + data.length ≤ p.chipBytes) (he : ∀ i, i < data.length → Memory.read d0.mem (base + i) = 0xFF#8) :
    ∀ {fuel : Nat} {s : State} {a : Addr} {off rem limit : Nat} {rest : List Bool}, SplitInv base data.length a off rem limit → rem ≤ fuel →
      Bursting p d0 base data off s → s.dev.busy = false → s.choices = List.replicate (splitLoop fuel a off rem limit).length true ++ rest →
      s.burstsReady data (splitLoop fuel a off rem limit) ∧
        Bursting p d0 base data data.length (s.bursted data (splitLoop fuel a off rem limit)) ∧
        (s.bursted data (splitLoop fuel a off rem limit)).dev.busy = false
  | 0, s, a, off, rem, limit, rest, hs, hf, h, hb, hc => by
    have := hs.sum
    obtain rfl : off = data.length := by omega
    exact ⟨trivial, h, hb⟩
  | fuel + 1, s, a, off, rem, limit, rest, hs, hf, h, hb, hc => by
    have h1 := hs.sum
    have h3 := hs.low
    have h4 := hs.room
    rcases Nat.eq_zero_or_pos rem with rfl | hr
    · rw [splitLoop_zero] at hc ⊢
      obtain rfl : off = data.length := by omega
      exact ⟨trivial, h, hb⟩
    · rw [splitLoop_succ a off hr] at hc ⊢
      rw [burstsReady_cons, bursted_cons]
      rw [List.length_cons, List.replicate_succ, List.cons_append] at hc
      obtain ⟨i1, i2, i3, i4⟩ := h.issued hb
      obtain ⟨n1, n2⟩ := i1.write (n := min rem limit) hp hin he i2 i3 (by omega) (by omega) hs.addr (by omega)
      obtain ⟨n3, n4⟩ := n2 _ (i4.trans hc)
      have hm := (mutatingIssued_ready (h.ready hb)).1
      by_cases hl : limit ≤ rem
      · have ih := bursts_complete hp hin he (fuel := fuel) (hs.next hl) (by omega) n1 n3 n4
        exact ⟨⟨hm, ih.1⟩, ih.2⟩
      · have hz : rem - min rem limit = 0 := by omega
        rw [hz, splitLoop_zero]
        have ho : off + min rem limit = data.length := by omega
        rw [ho] at n1
        exact ⟨⟨hm, trivial⟩, n1, n3⟩

/-- The bursts of the loop with WE_PREPOLL, however long their ready-waits take and whatever the device draws: the range is
written once the last operation is complete (R142). -/
theorem bursts_prepolled {p : Params} {d0 : Device} {base : Nat} {data : List Byte} (hp : p.wf) (hw : p.wePrepoll = true)
    (hin : base + data.length ≤ p.chipBytes) (he : ∀ i, i < data.length → Memory.read d0.mem (base + i) = 0xFF#8) :
    ∀ {fuel : Nat} {s : State} {a : Addr} {off rem limit : Nat} {ks : List (Nat × Nat)}, SplitInv base data.length a off rem limit →
      rem ≤ fuel → Bursting p d0 base data off s → s.burstsWait data (splitLoop fuel a off rem limit) ks →
      Bursting p d0 base data data.length (s.burstedAfter data (splitLoop fuel a off rem limit) ks)
  | 0, s, a, off, rem, limit, ks, hs, hf, h, hc => by
    have := hs.sum
    obtain rfl : off = data.length := by omega
    rw [splitLoop, State.burstedAfter]
    · exact h
    · simp
  | fuel + 1, s, a, off, rem, limit, ks, hs, hf, h, hc => by
    have h1 := hs.sum
    have h3 := hs.low
    have h4 := hs.room
    rcases Nat.eq_zero_or_pos rem with rfl | hr
    · obtain rfl : off = data.length := by omega
      rw [splitLoop_zero, State.burstedAfter]
      · exact h
      · simp
    · rw [splitLoop_succ a off hr] at hc ⊢
      rcases ks with _ | ⟨k, ks⟩
      · exact hc.elim
      obtain ⟨hc1, hc2⟩ := hc
      obtain ⟨i1, i2, i3⟩ := h.waitedMutating hw hc1
      obtain ⟨n1, -⟩ := i1.write (n := min rem limit) hp hin he i2 i3 (by omega) (by omega) hs.addr (by omega)
      rw [State.burstedAfter]
      by_cases hl : limit ≤ rem
      · exact bursts_prepolled hp hw hin he (fuel := fuel) (hs.next hl) (by omega) n1 hc2
      · have hz : rem - min rem limit = 0 := by omega
        have ho : off + min rem limit = data.length := by omega
        rw [ho] at n1
        rw [hz, splitLoop_zero, State.burstedAfter]
        · exact n1
        · simp

end Sys2Proof.Machine
end

