-- ==== Sys2Proof/Laws/Settle.lean ====
section
/-! SUPPORT. Laws/Settle.lean: the bound on one step (log 22): every program settles before its fuel runs out. -/

namespace Sys2Proof.Machine

/-- How many steps a position list takes at most before it settles, `r` being the bytes the splitter has left. -/
def cost : Nat → List Micro → Nat
  | _, [] => 0
  | _, .wbInit _ len :: ms => 1 + cost len ms
  | r, .burst :: ms => 1 + 26 * r + cost 0 ms
  | r, .wbNext n :: ms => 1 + cost (r - n) ms
  | _, .wbClear :: ms => 1 + cost 0 ms
  | r, .wait :: ms => 6 + cost r ms
  | r, .waitAgain :: ms => 6 + cost r ms
  | r, .probe :: ms => 8 + cost r ms
  | r, .idTest :: ms => 2 + cost r ms
  | r, _ :: ms => 1 + cost r ms

/-- Every loop of bursts in the list runs with a limit of at least 1, `l` being the splitter's limit. -/
def paced : Nat → List Micro → Prop
  | _, [] => True
  | _, .wbInit a _ :: ms => paced (firstLimit a) ms
  | l, .burst :: ms => 1 ≤ l ∧ paced 0 ms
  | _, .wbNext _ :: ms => paced Config.pageBytes ms
  | _, .wbClear :: ms => paced 0 ms
  | l, _ :: ms => paced l ms

/-- A position that touches no splitter register. -/
def plain : Micro → Bool
  | .wbInit _ _ | .burst | .wbNext _ | .wbClear | .wait | .waitAgain | .probe | .idTest => false
  | _ => true

theorem cost_plain {m : Micro} (h : plain m = true) (r : Nat) (ms : List Micro) : cost r (m :: ms) = 1 + cost r ms := by
  cases m <;> first | rfl | (simp [plain] at h)

theorem paced_plain {m : Micro} (h : plain m = true) (l : Nat) (ms : List Micro) : paced l (m :: ms) = paced l ms := by
  cases m <;> first | rfl | (simp [plain] at h)

theorem cost_plains {xs : List Micro} (h : xs.all plain = true) (r : Nat) (ms : List Micro) : cost r (xs ++ ms) = xs.length + cost r ms := by
  induction xs with
  | nil => simp
  | cons m xs ih =>
    simp only [List.all_cons, Bool.and_eq_true] at h
    rw [List.cons_append, cost_plain h.1, ih h.2, List.length_cons]; omega

theorem paced_plains {xs : List Micro} (h : xs.all plain = true) (l : Nat) (ms : List Micro) : paced l (xs ++ ms) = paced l ms := by
  induction xs with
  | nil => simp
  | cons m xs ih =>
    simp only [List.all_cons, Bool.and_eq_true] at h
    rw [List.cons_append, paced_plain h.1, ih h.2]

theorem paced_zero (ms : List Micro) (h : paced 0 ms) (l : Nat) : paced l ms := by
  induction ms generalizing l with
  | nil => trivial
  | cons m ms ih => cases m <;> first | exact h | exact ih h l | (exact absurd h.1 (by decide))

/-- What an ISSUE costs. -/
def issueCost (p : Params) (op : Byte) (b : Bool) : Nat := cost 0 (issue p op b)

theorem cost_issue_eq (p : Params) (op : Byte) (b : Bool) (r : Nat) (ms : List Micro) :
    cost r (issue p op b ++ ms) = issueCost p op b + cost r ms := by
  unfold issueCost issue writeEnableTxn
  cases b <;> cases p.wePrepoll <;> simp [cost] <;> omega

theorem issueCost_le (p : Params) (op : Byte) (b : Bool) : issueCost p op b ≤ 17 := by
  unfold issueCost issue writeEnableTxn
  cases b <;> cases p.wePrepoll <;> simp [cost]

theorem paced_issue (p : Params) (op : Byte) (b : Bool) (l : Nat) (ms : List Micro) : paced l (issue p op b ++ ms) = paced l ms := by
  unfold issue writeEnableTxn
  cases b <;> cases p.wePrepoll <;> rfl

theorem cost_burstBody (p : Params) (n r : Nat) (ms : List Micro) : cost r (burstBody p n ++ ms) ≤ 22 + n + cost (r - n) ms := by
  unfold burstBody
  simp only [List.append_assoc, List.cons_append, List.nil_append]
  have h1 := issueCost_le p 0x02#8 true
  have h2 := cost_plains (xs := (List.range n).map .txBuf) (by simp [plain]) r (.unsel :: .wbNext n :: ms)
  simp only [cost_issue_eq, cost, h2, List.length_map, List.length_range]
  omega

theorem paced_burstBody (p : Params) (n l : Nat) (ms : List Micro) : paced l (burstBody p n ++ ms) = paced Config.pageBytes ms := by
  unfold burstBody
  simp only [List.append_assoc, List.cons_append, List.nil_append]
  rw [paced_issue]
  have h2 := paced_plains (xs := (List.range n).map .txBuf) (by simp [plain]) l (.unsel :: .wbNext n :: ms)
  simp only [paced, h2]

/-- What is left to run, and that its loops are paced. -/
def Paced (s : State) (n : Nat) : Prop :=
  ∃ req ms g p, s.ctl = .active req ms g p ∧ paced (s.wbLimit.getD 0) ms ∧ cost (s.wbRem.getD 0) ms ≤ n

theorem raise_settled (s : State) (r : Fault) : (s.raise r).settled = true := by
  simp only [State.settled, State.raise]; cases s.fault <;> simp

/-- One step settles or leaves less to run. -/
theorem seqStep_paced {s : State} {n : Nat} (h : Paced s n) :
    (seqStep s).settled = true ∨ ∃ k, n = k + 1 ∧ Paced (seqStep s) k := by
  obtain ⟨req, todo, g, p, hc, hp, hk⟩ := h
  rcases todo with _ | ⟨m, ms⟩
  · left; simp [seqStep, hc, State.settled]
  have key : ∀ {t : State} {ms' : List Micro} {g' p'}, t.ctl = .active req ms' g' p' → paced (t.wbLimit.getD 0) ms' →
      cost (t.wbRem.getD 0) ms' + 1 ≤ n → t.settled = true ∨ ∃ k, n = k + 1 ∧ Paced t k := by
    intro t ms' g' p' h1 h2 h3
    exact .inr ⟨n - 1, by omega, req, ms', g', p', h1, h2, by omega⟩
  rcases seqStep_moves hc with ⟨-, r, e⟩ | hm
  · left; rw [e]; exact raise_settled _ _
  generalize seqStep s = t at *
  cases m
  case sel => subst hm; exact key rfl hp (by simpa [cost, Nat.add_comm] using hk)
  case unsel => obtain ⟨c, -, rfl⟩ := hm; exact key rfl hp (by simpa [cost, Nat.add_comm] using hk)
  case tx b => subst hm; exact key rfl hp (by simpa [cost, Nat.add_comm] using hk)
  case txWbHigh => obtain ⟨b, rfl⟩ := hm; exact key rfl hp (by simpa [cost, Nat.add_comm] using hk)
  case txWbMid => obtain ⟨b, rfl⟩ := hm; exact key rfl hp (by simpa [cost, Nat.add_comm] using hk)
  case txWbLow => obtain ⟨b, rfl⟩ := hm; exact key rfl hp (by simpa [cost, Nat.add_comm] using hk)
  case txBuf i => obtain ⟨b, rfl⟩ := hm; exact key rfl hp (by simpa [cost, Nat.add_comm] using hk)
  case rx => subst hm; exact key rfl hp (by simpa [cost, Nat.add_comm] using hk)
  case rxUid i => subst hm; exact key rfl hp (by simpa [cost, Nat.add_comm] using hk)
  case rxPoll => subst hm; exact key rfl hp (by simpa [cost, Nat.add_comm] using hk)
  case wait => subst hm; exact key rfl hp (by simp [cost, pollBody] at hk ⊢; omega)
  case waitAgain => subst hm; exact key rfl hp (by simp [cost, pollBody] at hk ⊢; omega)
  case pollTest =>
    obtain ⟨b, -, rfl⟩ := hm
    have hp : paced (s.wbLimit.getD 0) ms := hp
    cases hb : busyOf b
    · exact key rfl hp (by simp [cost] at hk ⊢; omega)
    · left; simp [State.settled]
  case wbInit a len => subst hm; exact key rfl hp (by simp [cost] at hk ⊢; omega)
  case burst =>
    obtain ⟨rem, limit, h1, h2, rfl⟩ := hm
    rw [h2] at hp
    obtain ⟨hl, hp⟩ := hp
    simp only [h1, cost, Option.getD_some] at hk hl
    by_cases hr : rem = 0
    · exact key (by simp only [hr, if_true]; rfl) (paced_zero ms hp _) (by simp [h1, hr] at hk ⊢; omega)
    · refine key (by simp only [hr, if_false]; rfl) ?_ ?_
      · rw [paced_burstBody]; exact ⟨by decide, hp⟩
      · have := cost_burstBody s.par (min rem limit) rem (.burst :: ms)
        simp only [cost] at this
        simp only [h1, Option.getD_some]
        have h3 : 1 ≤ min rem limit := by omega
        have h4 : min rem limit ≤ rem := Nat.min_le_left _ _
        generalize min rem limit = k at *
        omega
  case wbNext k =>
    subst hm
    refine key rfl hp ?_
    have : ((s.wbRem.map (· - k)).getD 0) = s.wbRem.getD 0 - k := by cases s.wbRem <;> simp
    simp only [State.wbAdvance_wbRem, this, cost] at hk ⊢
    omega
  case wbClear => subst hm; exact key rfl hp (by simpa [cost, Nat.add_comm] using hk)
  case cfgSave => subst hm; exact key rfl hp (by simpa [cost, Nat.add_comm] using hk)
  case pinOutput => subst hm; exact key rfl hp (by simpa [cost, Nat.add_comm] using hk)
  case pinHigh => subst hm; exact key rfl hp (by simpa [cost, Nat.add_comm] using hk)
  case setInitialized => subst hm; exact key rfl hp (by simpa [cost, Nat.add_comm] using hk)
  case probe =>
    subst hm
    have hp : paced (s.wbLimit.getD 0) ms := hp
    by_cases he : s.expectedId = 0
    · rw [if_pos he]; exact key rfl hp (by simp [cost] at hk ⊢; omega)
    · rw [if_neg he]; exact key rfl hp (by simp [cost, readIdTxn] at hk ⊢; omega)
  case idTest =>
    obtain ⟨w, rfl⟩ := hm
    have hp : paced (s.wbLimit.getD 0) ms := hp
    by_cases he : w = s.expectedId
    · rw [if_pos he]; exact key rfl hp (by simp [cost] at hk ⊢; omega)
    · rw [if_neg he]; exact key rfl trivial (by simp [cost] at hk ⊢; omega)
  case busEnd => subst hm; exact key rfl hp (by simpa [cost, Nat.add_comm] using hk)
  case ret k => obtain ⟨r, -, rfl⟩ := hm; left; exact settled_respond r

theorem drain_paced : ∀ {n : Nat} {s : State}, Paced s n → (drain (n + 1) s).settled = true
  | 0, s, h => by
    rcases seqStep_paced h with h | ⟨k, e, -⟩
    · rw [drain, if_pos h]; exact h
    · omega
  | n + 1, s, h => by
    rw [drain]
    split
    · assumption
    · rcases seqStep_paced h with h' | ⟨k, e, h'⟩
      · rename_i hn; exact absurd h' hn
      · obtain rfl : n = k := by omega
        exact drain_paced h'

theorem Paced.mono {s : State} {n k : Nat} (h : Paced s n) (hk : n ≤ k) : Paced s k := by
  obtain ⟨req, ms, g, p, h1, h2, h3⟩ := h
  exact ⟨req, ms, g, p, h1, h2, by omega⟩

/-- What every instruction's program costs. -/
theorem cost_progOf (p : Params) (i : Instr) (l r : Nat) : paced l (progOf p i) ∧ cost r (progOf p i) + 1 ≤ fuelOf i := by
  have hrx : ∀ n, (List.replicate n Micro.rx).all plain = true := by intro n; simp [plain]
  have hd : ∀ n b, (List.replicate n (Micro.tx b)).all plain = true := by intro n b; simp [plain]
  have hu : rxUidAll.all plain = true := rfl
  have hs : ∀ bs : List Byte, (bs.map Micro.tx).all plain = true := by intro bs; simp [plain]
  have hi := fun op b => issueCost_le p op b
  cases i <;>
    simp only [progOf, progReadStatus, progBusy, progReadDeviceId, progReadUniqueId, progReadByte, progReadBytes,
      progWriteByte, progWriteBytes, progEraseBlock4K, progEraseBlock32K, progChipErase, progSleep, progWakeup, progEnd,
      progInitialize, wakeupBody, unprotectBody, readIdTxn, txAddr, txDummy, rxMany, List.append_assoc, List.cons_append,
      List.nil_append, paced, cost, cost_issue_eq, paced_issue, paced_plains (hrx _), cost_plains (hrx _),
      paced_plains (hd _ _), cost_plains (hd _ _), paced_plains hu, cost_plains hu, paced_plains (hs _), cost_plains (hs _),
      List.length_replicate, List.length_map, fuelOf, byteCount, true_and, and_true]
  all_goals first
    | omega
    | (simp [rxUidAll]; done)
    | (have := hi 0x4B#8 false; simp only [rxUidAll, List.length_cons, List.length_nil]; omega)
    | (have := hi 0x03#8 false; omega)
    | (have := hi 0x0B#8 false; omega)
    | (have := hi 0x02#8 true; omega)
    | (have := hi 0x20#8 true; omega)
    | (have := hi 0x52#8 true; omega)
    | (have := hi 0x60#8 true; omega)
    | (have := hi 0xB9#8 false; omega)
    | (have := hi 0xAB#8 false; have := hi 0x01#8 true; omega)
    | (exact ⟨(firstLimit_bounds _).1, by omega⟩)

/-- A run of an instruction's program from its start settles. -/
theorem drain_prog_settled (i : Instr) (s : State) (p : Params) :
    (drain (fuelOf i) { s with ctl := .active i (progOf p i) [] none }).settled = true := by
  obtain ⟨h1, h2⟩ := cost_progOf p i (s.wbLimit.getD 0) (s.wbRem.getD 0)
  obtain ⟨n, hn⟩ : ∃ n, fuelOf i = n + 1 := ⟨fuelOf i - 1, by omega⟩
  rw [hn]
  exact drain_paced ⟨i, progOf p i, [], none, rfl, h1, by simp only; omega⟩

end Sys2Proof.Machine
end

