-- ==== Sys2Proof/Laws/Sound.lean ====
section
/-! SUPPORT. Laws/Sound.lean: the invariant `State.sound` (Safety.lean) through one step of the sequencer: the view before
a position gives its precondition, and the view after it holds of the state it leaves. -/

namespace Sys2Proof.Machine

/-! ## The scan of the trace -/

theorem scanTrace_snoc (tr : List Event) (e : Event) : scanTrace (tr ++ [e]) = (scanTrace tr).bind (·.next e) := by
  simp [scanTrace]

/-- One inside a transaction, zero between. -/
def ScanMode.depth : ScanMode → Nat
  | .closed => 0
  | _ => 1

theorem Scan.closing_mode (c : Scan) (op : Byte) (last : Option Byte) : (c.closing op last).mode = .closed := by
  unfold Scan.closing
  by_cases h1 : op = 0x06#8
  · rw [if_pos h1]
  · rw [if_neg h1]
    by_cases h2 : op = 0x05#8
    · rw [if_pos h2]
    · rw [if_neg h2]

/-! One lemma for each event the scan accepts. -/

theorem Scan.next_sel {c : Scan} (h : c.mode = .closed) : c.next .sel = some { c with mode := .opened } := by
  unfold Scan.next; rw [h]

theorem Scan.next_opcode {c : Scan} {b : Byte} (h : c.mode = .opened) (ha : c.allows b = true) (r : Byte) :
    c.next (.xfer b r) = some { c with mode := .inside b none } := by
  unfold Scan.next; rw [h]; exact if_pos ha

theorem Scan.next_xfer {c : Scan} {op : Byte} {last : Option Byte} (h : c.mode = .inside op last) (b r : Byte) :
    c.next (.xfer b r) = some { c with mode := .inside op (some r) } := by
  unfold Scan.next; rw [h]

theorem Scan.next_unsel {c : Scan} {op : Byte} {last : Option Byte} (h : c.mode = .inside op last) :
    c.next .unsel = some (c.closing op last) := by
  unfold Scan.next; rw [h]

theorem Scan.next_other {c : Scan} (h : c.mode = .closed) (pin : PinId) (l : Bool) :
    c.next (.pinOutput pin) = some c ∧ c.next (.pinWrite pin l) = some c ∧ c.next .cfgSave = some c ∧
      c.next .busEnd = some c := by
  unfold Scan.next; rw [h]; exact ⟨rfl, rfl, rfl, rfl⟩

theorem Scan.next_depth {c d : Scan} {e : Event} (h : c.next e = some d) :
    [e].count .sel + c.mode.depth = [e].count .unsel + d.mode.depth := by
  rcases c with ⟨m, we, ready⟩
  unfold Scan.next at h
  cases e <;> cases m <;> dsimp only at h <;> try cases h
  all_goals first | rfl | skip
  · rw [Scan.closing_mode]; rfl
  · split at h <;> cases h; rfl

/-- A scanned trace is balanced: as many Sel as Unsel, one more inside a transaction (R104). -/
theorem scanTrace_balanced (tr : List Event) : ∀ c, scanTrace tr = some c →
    tr.count .sel = tr.count .unsel + c.mode.depth := by
  induction tr using List.reverseRecOn with
  | nil => intro c h; cases h; rfl
  | append_singleton tr e ih =>
    intro c h
    rw [scanTrace_snoc] at h
    obtain ⟨d, hs, h⟩ := Option.bind_eq_some_iff.1 h
    have h1 := ih d hs
    have h2 := Scan.next_depth h
    rw [List.count_append, List.count_append]
    omega

/-! ## What a view says of one position -/

section
variable {v w : View} {s : State} {req : Instr} {g : List Byte} {p : Option Byte} {c : Scan} {k : Ctl}

/-- A byte after the opcode (R102). -/
theorem View.agrees_more (h : v.agrees s g p c) (hc : scanTrace s.trace = some c) (hw : v.more = some w) (b : Byte) :
    s.csLevel = some false ∧ ∃ op, ∃ c' : Scan, scanTrace (s.xferred b).trace = some c' ∧
      c'.mode = .inside op (some (s.answer b).1) ∧ w.agrees { s.xferred b with ctl := k } g p c' ∧
      w = { v with poll := .unknown, closed := false } := by
  unfold View.more at hw
  split at hw
  · rename_i op hl
    cases hw
    have h1 := h.line
    rw [hl] at h1
    obtain ⟨⟨last, hm⟩, h2, h3, h4, h5, h6⟩ := h1
    refine ⟨h3, op, { c with mode := .inside op (some (s.answer b).1) }, ?_, rfl, ⟨?_, h.got, trivial, h.uid, h.regs, by simp, h.we, h.ready⟩, rfl⟩
    · rw [State.xferred_trace, scanTrace_snoc, hc]
      exact Scan.next_xfer hm _ _
    · show Line.agrees v.line _ _
      rw [hl]; exact ⟨⟨_, rfl⟩, h2, h3, h4, h5, h6⟩
  · cases hw

/-- A known byte: the opcode, within the discipline, or a later byte (R102, R111). -/
theorem View.agrees_send {b : Byte} (h : v.agrees s g p c) (hc : scanTrace s.trace = some c) (hw : v.send b = some w) :
    s.csLevel = some false ∧ ∃ c' : Scan, scanTrace (s.xferred b).trace = some c' ∧
      w.agrees { s.xferred b with ctl := k } g p c' := by
  unfold View.send at hw
  split at hw
  · rename_i hl
    split at hw
    · rename_i hk
      cases hw
      have h1 := h.line
      rw [hl] at h1
      obtain ⟨hm, h2, h3, h4, h5, h6⟩ := h1
      have hr := h.ready
      have hwe := h.we
      have ha : c.allows b = true := by
        unfold Scan.allows
        revert hk hr hwe
        cases knownOpcode b <;> cases issuedOpcode b <;> cases mutating b <;> cases v.ready <;> cases v.we <;> simp <;>
          intro h1 h2 <;> simp [h1, h2]
      refine ⟨h3, { c with mode := .inside b none }, ?_, ⟨⟨⟨_, rfl⟩, h2, h3, h4, h5, h6⟩, h.got, trivial, h.uid, h.regs, by simp, h.we, h.ready⟩⟩
      rw [State.xferred_trace, scanTrace_snoc, hc]
      exact Scan.next_opcode hm ha _
    · cases hw
  · rename_i hl
    have hm : v.more = some w := by unfold View.more; simpa only [hl] using hw
    obtain ⟨h1, op, c', h2, -, h3, -⟩ := View.agrees_more (k := k) h hc hm b
    exact ⟨h1, c', h2, h3⟩
  · cases hw

/-- The end of a transaction (R101). -/
theorem View.agrees_close (h : v.agrees s g p c) (hc : scanTrace s.trace = some c) (hw : v.close = some w) :
    s.csLevel = some false ∧ ∃ cfg, s.savedCfg = some cfg ∧
      ∃ c' : Scan, scanTrace (s.unselected cfg).trace = some c' ∧ w.agrees { s.unselected cfg with ctl := k } g p c' := by
  unfold View.close at hw
  split at hw
  · rename_i op hl
    cases hw
    have h1 := h.line
    rw [hl] at h1
    obtain ⟨⟨last, hm⟩, h2, h3, h4, h5, h6⟩ := h1
    obtain ⟨cfg, h4⟩ := Option.isSome_iff_exists.1 h4
    refine ⟨h3, cfg, h4, c.closing op last, ?_, ⟨⟨Scan.closing_mode _ _ _, h2, rfl⟩, h.got, ?_, h.uid, h.regs, fun _ => ⟨rfl, h4⟩, ?_, by simp⟩⟩
    · rw [State.unselected_trace, scanTrace_snoc, hc]
      exact Scan.next_unsel hm
    · have hp := h.poll
      show PollView.agrees (if _ then _ else _) _ _
      split
      · rename_i h7
        simp only [Bool.and_eq_true, decide_eq_true_eq, beq_iff_eq] at h7
        obtain ⟨rfl, h7⟩ := h7
        rw [h7] at hp
        obtain ⟨b, op', rfl, he⟩ := hp
        rw [hm] at he
        cases he
        exact ⟨b, rfl, fun hb => by simp [Scan.closing, hb]⟩
      · trivial
    · have hwe := h.we
      simp only [Scan.closing]
      by_cases e1 : op = 0x06#8
      · simp [e1]
      · by_cases e2 : op = 0x05#8
        · simpa [e1, e2] using hwe
        · simp [e1, e2]
  · cases hw

/-- Between transactions only the trace's scan and the line matter to a change of the control position. -/
theorem View.agrees_ctl (h : v.agrees s g p c) : v.agrees { s with ctl := k } g p c :=
  ⟨by have := h.line; unfold Line.agrees at this ⊢; exact this, h.got, h.poll, h.uid,
    by have := h.regs; unfold RegsView.agrees at this ⊢; exact this, h.closed, h.we, h.ready⟩

/-- A request is sound where some view agrees with it and makes the rest safe. -/
theorem sound_active {t : State} {ms : List Micro} (hf : t.fault = none) (hk : t.ctl = .active req ms g p)
    (hc : scanTrace t.trace = some c) (hs : v.safe req ms = true) (h : v.agrees t g p c) : t.sound :=
  ⟨hf, c, hc, by rw [hk]; exact ⟨v, h, hs⟩⟩

/-- What stands behind a position that is no `return`. -/
theorem View.safe_cons {m : Micro} {ms : List Micro} (hm : ∀ k, m ≠ .ret k) (h : v.safe req (m :: ms) = true) :
    ∃ w, v.after req m = some w ∧ w.safe req ms = true := by
  have : (v.after req m).elim false (fun w => w.safe req ms) = true := by
    cases m <;> first | exact h | exact absurd rfl (hm _)
  cases hw : v.after req m with
  | none => rw [hw] at this; cases this
  | some w => rw [hw] at this; exact ⟨w, rfl, this⟩

/-- Between transactions, knowing less of the poll and the discipline. -/
theorem View.agrees_less (h : v.agrees s g p c) (n : Nat) (hn : n ≤ v.got) :
    View.agrees { v with got := n, poll := .unknown, closed := false, we := false, ready := false } s g p c :=
  ⟨h.line, hn.trans h.got, trivial, h.uid, h.regs, by simp, by simp, by simp⟩
end


section
variable {v w : View} {req : Instr} {ms : List Micro}

theorem View.safe_step {m : Micro} (hm : ∀ k, m ≠ .ret k) (h : v.after req m = some w) : v.safe req (m :: ms) = w.safe req ms := by
  have : v.safe req (m :: ms) = (v.after req m).elim false (fun w => w.safe req ms) := by
    cases m <;> first | rfl | exact absurd rfl (hm _)
  rw [this, h]; rfl

/-- One iteration of a ready-wait (R107). -/
theorem View.safe_pollBody (h : v.line = .high) :
    v.safe req (pollBody ++ ms) = View.safe req { v with poll := .closed, closed := true, ready := true } ms := by
  obtain ⟨l, got, po, u, r, cl, we, rd⟩ := v
  cases h
  rfl
theorem View.safe_readId (h : v.line = .high) (hr : v.regs = .clear) :
    v.safe req (readIdTxn ++ .idTest :: ms) = View.safe req { v with poll := .unknown, closed := false, we := false, ready := false } ms := by
  obtain ⟨l, got, po, u, r, cl, we, rd⟩ := v
  cases h; cases hr
  have h1 : View.safe req ⟨.high, got, po, u, .clear, cl, we, rd⟩ (readIdTxn ++ .idTest :: ms) =
      View.safe req ⟨.high, got + 2, .unknown, u, .clear, true, false, false⟩ (.idTest :: ms) := rfl
  have h2 : View.after ⟨.high, got + 2, .unknown, u, .clear, true, false, false⟩ req .idTest =
      some ⟨.high, got, .unknown, u, .clear, false, false, false⟩ := by
    simp only [View.after, Nat.add_sub_cancel]
    rw [if_pos (by simp)]
  rw [h1, View.safe_step (by simp) h2]

/-- The bytes of a burst from the source buffer (R152). -/
theorem View.safe_txBuf {op : Byte} {off rem limit got uid : Nat} {we rd : Bool} (n : Nat) : ∀ (i : Nat), off + i + n ≤ (bufferOf req).length →
    View.safe req ⟨.low op, got, .unknown, uid, .known off rem limit, false, we, rd⟩ ((List.range' i n).map .txBuf ++ ms) =
      View.safe req ⟨.low op, got, .unknown, uid, .known off rem limit, false, we, rd⟩ ms := by
  induction n with
  | zero => intro i _; rfl
  | succ n ih =>
    intro i h
    rw [List.range'_succ, List.map_cons, List.cons_append]
    have ha : View.after ⟨.low op, got, .unknown, uid, .known off rem limit, false, we, rd⟩ req (.txBuf i) =
        some ⟨.low op, got, .unknown, uid, .known off rem limit, false, we, rd⟩ := if_pos (by omega)
    rw [View.safe_step (by simp) ha, ih (i + 1) (by omega)]

/-- One burst and the loop again (R152). -/
theorem View.safe_burst {got uid off rem limit : Nat} {po : PollView} {cl we rd : Bool} (par : Params) (h1 : off + rem ≤ (bufferOf req).length) :
    View.safe req ⟨.high, got, po, uid, .known off rem limit, cl, we, rd⟩ (burstBody par (min rem limit) ++ .burst :: ms) =
      View.safe req ⟨.high, got, .unknown, uid, .unknown, false, false, false⟩ ms := by
  have hn : min rem limit ≤ rem := Nat.min_le_left _ _
  generalize min rem limit = n at *
  have e1 : ∀ xs, View.safe req ⟨.high, got, po, uid, .known off rem limit, cl, we, rd⟩ (issue par 0x02#8 true ++ ([.txWbHigh, .txWbMid, .txWbLow] ++ xs)) =
      View.safe req ⟨.low 0x02#8, got, .unknown, uid, .known off rem limit, false, true, true⟩ xs := by
    intro xs
    unfold issue writeEnableTxn
    cases par.wePrepoll <;> rfl
  have e2 := View.safe_txBuf (req := req) (ms := [.unsel, .wbNext n] ++ .burst :: ms) (op := 0x02#8) (off := off) (rem := rem) (limit := limit)
    (got := got) (uid := uid) (we := true) (rd := true) n 0 (by omega)
  have e3 : View.after ⟨.high, got, .unknown, uid, .known off rem limit, true, false, false⟩ req (.wbNext n) =
      some ⟨.high, got, .unknown, uid, .known (off + n) (rem - n) Config.pageBytes, true, false, false⟩ := if_pos (by simp [hn])
  have e4 : View.after ⟨.high, got, .unknown, uid, .known (off + n) (rem - n) Config.pageBytes, true, false, false⟩ req .burst =
      some ⟨.high, got, .unknown, uid, .unknown, false, false, false⟩ := if_pos (by simp [Config.pageBytes]; omega)
  have e5 : burstBody par n ++ .burst :: ms = issue par 0x02#8 true ++ ([.txWbHigh, .txWbMid, .txWbLow] ++ ((List.range' 0 n).map .txBuf ++ ([.unsel, .wbNext n] ++ .burst :: ms))) := by
    simp only [burstBody, List.range_eq_range', List.append_assoc]
  rw [e5, e1, e2]
  have e6 : View.safe req ⟨.low 0x02#8, got, .unknown, uid, .known off rem limit, false, true, true⟩ ([.unsel, .wbNext n] ++ .burst :: ms) =
      View.safe req ⟨.high, got, .unknown, uid, .known off rem limit, true, false, false⟩ (.wbNext n :: .burst :: ms) := rfl
  rw [e6, View.safe_step (by simp) e3, View.safe_step (by simp) e4]

theorem definedBytes_isSome {l : List (Option Byte)} (h : ∀ o ∈ l, o.isSome = true) : (definedBytes l).isSome = true := by
  induction l with
  | nil => rfl
  | cons o l ih =>
    obtain ⟨b, rfl⟩ := Option.isSome_iff_exists.1 (h o (by simp))
    simpa [definedBytes] using ih (fun o ho => h o (by simp [ho]))

theorem uidSet_set {u : Vector (Option Byte) 8} {n : Nat} (h : uidSet u n) (i : Fin 8) (hi : n = i.val) (b : Byte) :
    uidSet (u.set i (some b)) (n + 1) := by
  intro j hj hn
  by_cases e : i.val = j
  · subst e; simp
  · have := h j hj (by omega)
    rwa [Vector.getElem_set_ne _ _ e]

end

/-! ## One step -/

section
variable {v : View} {s : State} {req : Instr} {m : Micro} {ms : List Micro} {g : List Byte} {p : Option Byte} {c : Scan}

theorem of_ite {P : Prop} [Decidable P] {α : Type} {a b : α} (h : (if P then some a else none) = some b) : P ∧ a = b := by
  by_cases hp : P
  · rw [if_pos hp] at h; exact ⟨hp, Option.some.inj h⟩
  · rw [if_neg hp] at h; cases h

theorem of_ite_else {P : Prop} [Decidable P] {α : Type} {a : Option α} {b : α} (h : (if P then a else none) = some b) : P ∧ a = some b := by
  by_cases hp : P
  · rw [if_pos hp] at h; exact ⟨hp, h⟩
  · rw [if_neg hp] at h; cases h

theorem of_ite_isSome {P : Prop} [Decidable P] {α : Type} {a : α} (h : (if P then some a else none).isSome = true) : P := by
  by_cases hp : P
  · exact hp
  · rw [if_neg hp] at h; cases h

theorem of_known {r : RegsView} {α : Type} {f : Nat → Nat → Nat → Option α} {b : α}
    (h : (match r with
      | .known off rem limit => f off rem limit
      | _ => none) = some b) : ∃ off rem limit, r = .known off rem limit ∧ f off rem limit = some b := by
  cases r with
  | clear => cases h
  | known off rem limit => exact ⟨_, _, _, rfl, h⟩
  | unknown => cases h

/-- The view after a position that is no loop, no test and no return, with the precondition it gives. -/
theorem seqStep_keeps_sound (hf : s.fault = none) (hk : s.ctl = .active req (m :: ms) g p)
    (hc : scanTrace s.trace = some c) (h : v.agrees s g p c) (hs : v.safe req (m :: ms) = true) :
    (seqStep s).sound := by
  -- it is enough to have the precondition, and a view of each state the position may leave
  have key : Can s req g p m → (∀ t, Moves s req ms g p m t → t.sound) → (seqStep s).sound := by
    intro hcan hall
    rcases seqStep_moves hk with ⟨hn, -⟩ | hm
    · exact absurd hcan hn
    · exact hall _ hm
  by_cases hret : ∃ k, m = .ret k
  · obtain ⟨k, rfl⟩ := hret
    have ha : (v.after req (.ret k)).isSome = true := hs
    have hh := of_ite_isSome ha
    simp only [Bool.and_eq_true, decide_eq_true_eq, beq_iff_eq] at hh
    obtain ⟨⟨hl, hr⟩, hg⟩ := hh
    have hline := h.line
    rw [hl] at hline
    have hregs := h.regs
    rw [hr] at hregs
    refine key ?_ ?_
    · have hgot := h.got
      show (responseOf k g s.uidBuf.toList).isSome = true
      cases k with
      | none => rfl
      | bool t => rfl
      | bytes => rfl
      | byte =>
        rcases g with _ | ⟨b, g⟩
        · simp at hg hgot; omega
        · rfl
      | busy =>
        rcases g with _ | ⟨b, g⟩
        · simp at hg hgot; omega
        · rfl
      | word =>
        rcases g with _ | ⟨b, _ | ⟨b', g⟩⟩
        · simp at hg hgot; omega
        · simp at hg hgot; omega
        · rfl
      | uid =>
        have huid := h.uid
        rw [show v.uid = 8 by simpa using hg] at huid
        simp only [responseOf, Option.isSome_map]
        exact definedBytes_isSome (fun o ho => by
          obtain ⟨i, hi, rfl⟩ := List.getElem_of_mem ho
          have hi' : i < 8 := by simpa using hi
          simpa using huid i hi' hi')
    · rintro t ⟨r, -, rfl⟩
      exact ⟨hf, c, hc, hline.1, hregs, fun _ => hline.2⟩
  · have hm : ∀ k, m ≠ .ret k := fun k e => hret ⟨k, e⟩
    obtain ⟨w, ha, hw⟩ := View.safe_cons hm hs
    cases m with
    | ret k => exact absurd rfl (hm k)
    | sel =>
      obtain ⟨hl, ha⟩ := of_ite ha
      cases ha
      have hline := h.line
      rw [hl] at hline
      obtain ⟨h1, h2, h3⟩ := hline
      refine key ⟨h2, h3⟩ ?_
      rintro t rfl
      refine sound_active (c := { c with mode := .opened }) (v := { v with line := .fresh, poll := .unknown, closed := false }) hf rfl ?_ hw ⟨⟨rfl, h2, rfl, rfl, rfl, rfl⟩, h.got, trivial, h.uid, h.regs, by simp, h.we, h.ready⟩
      show scanTrace (s.trace ++ [.sel]) = _
      rw [scanTrace_snoc, hc]; exact Scan.next_sel h1
    | unsel =>
      obtain ⟨h1, cfg, h2, c', h3, h4⟩ := View.agrees_close (k := .active req ms g p) h hc ha
      refine key ⟨h1, by simp [h2]⟩ ?_
      rintro t ⟨cfg', hcfg, rfl⟩
      rw [h2] at hcfg; cases hcfg
      exact sound_active hf rfl h3 hw h4
    | tx b =>
      obtain ⟨h1, c', h2, h3⟩ := View.agrees_send (k := .active req ms g p) h hc ha
      refine key h1 ?_
      rintro t rfl
      exact sound_active hf rfl h2 hw h3
    | txWbHigh =>
      obtain ⟨off, rem, limit, hr, ha⟩ := of_known ha
      have hregs := h.regs
      rw [hr] at hregs
      have h1 := (View.agrees_more (k := .idle) h hc ha 0).1
      refine key ⟨h1, hregs.1⟩ ?_
      rintro t ⟨b, rfl⟩
      obtain ⟨-, op, c', h2, -, h3, -⟩ := View.agrees_more (k := .active req ms g p) h hc ha b
      exact sound_active hf rfl h2 hw h3
    | txWbMid =>
      obtain ⟨off, rem, limit, hr, ha⟩ := of_known ha
      have hregs := h.regs
      rw [hr] at hregs
      have h1 := (View.agrees_more (k := .idle) h hc ha 0).1
      refine key ⟨h1, hregs.1⟩ ?_
      rintro t ⟨b, rfl⟩
      obtain ⟨-, op, c', h2, -, h3, -⟩ := View.agrees_more (k := .active req ms g p) h hc ha b
      exact sound_active hf rfl h2 hw h3
    | txWbLow =>
      obtain ⟨off, rem, limit, hr, ha⟩ := of_known ha
      have hregs := h.regs
      rw [hr] at hregs
      have h1 := (View.agrees_more (k := .idle) h hc ha 0).1
      refine key ⟨h1, hregs.1⟩ ?_
      rintro t ⟨b, rfl⟩
      obtain ⟨-, op, c', h2, -, h3, -⟩ := View.agrees_more (k := .active req ms g p) h hc ha b
      exact sound_active hf rfl h2 hw h3
    | txBuf i =>
      obtain ⟨off, rem, limit, hr, ha⟩ := of_known ha
      obtain ⟨hi, ha⟩ := of_ite_else ha
      have hregs := h.regs
      rw [hr] at hregs
      have h1 := (View.agrees_more (k := .idle) h hc ha 0).1
      refine key ⟨h1, off, hregs.2.1, hi⟩ ?_
      rintro t ⟨b, rfl⟩
      obtain ⟨-, op, c', h2, -, h3, -⟩ := View.agrees_more (k := .active req ms g p) h hc ha b
      exact sound_active hf rfl h2 hw h3
    | rx =>
      obtain ⟨w0, h0, rfl⟩ := Option.map_eq_some_iff.1 ha
      obtain ⟨h1, op, c', h2, -, h3, -⟩ := View.agrees_more (k := .active req ms (g ++ [(s.answer s.par.fillByte).1]) p) h hc h0 s.par.fillByte
      refine key h1 ?_
      rintro t rfl
      exact sound_active hf rfl h2 hw ⟨h3.line, by have := h3.got; simp only [List.length_append, List.length_cons, List.length_nil]; omega, h3.poll, h3.uid, h3.regs, h3.closed, h3.we, h3.ready⟩
    | rxUid i =>
      obtain ⟨hi, ha⟩ := of_ite_else ha
      obtain ⟨w0, h0, rfl⟩ := Option.map_eq_some_iff.1 ha
      obtain ⟨h1, op, c', h2, -, h3, h4⟩ := View.agrees_more (k := .active req ms g p) h hc h0 s.par.fillByte
      refine key h1 ?_
      rintro t rfl
      refine sound_active hf rfl h2 hw ⟨h3.line, h3.got, h3.poll, ?_, h3.regs, h3.closed, h3.we, h3.ready⟩
      have hu : w0.uid = i.val := by rw [h4]; exact hi
      have := uidSet_set h.uid i hi (s.answer s.par.fillByte).1
      rw [h4]; exact this
    | rxPoll =>
      obtain ⟨w0, h0, rfl⟩ := Option.map_eq_some_iff.1 ha
      obtain ⟨h1, op, c', h2, h5, h3, -⟩ := View.agrees_more (k := .active req ms g (some (s.answer s.par.fillByte).1)) h hc h0 s.par.fillByte
      refine key h1 ?_
      rintro t rfl
      exact sound_active hf rfl h2 hw ⟨h3.line, h3.got, ⟨_, op, rfl, h5⟩, h3.uid, h3.regs, h3.closed, h3.we, h3.ready⟩
    | wait =>
      obtain ⟨hl, ha⟩ := of_ite ha
      cases ha
      refine key trivial ?_
      rintro t rfl
      exact sound_active hf rfl hc (by rw [View.safe_pollBody hl]; exact hw) (View.agrees_ctl h)
    | waitAgain =>
      obtain ⟨hl, ha⟩ := of_ite ha
      simp only [Bool.and_eq_true, decide_eq_true_eq] at hl
      cases ha
      refine key trivial ?_
      rintro t rfl
      exact sound_active hf rfl hc (by rw [View.safe_pollBody hl.1]; exact hw) (View.agrees_ctl h)
    | pollTest =>
      obtain ⟨hl, ha⟩ := of_ite ha
      simp only [Bool.and_eq_true, decide_eq_true_eq, beq_iff_eq] at hl
      obtain ⟨⟨hl, hcl⟩, hpo⟩ := hl
      cases ha
      have hpoll := h.poll
      rw [hpo] at hpoll
      obtain ⟨b, rfl, hb⟩ := hpoll
      refine key rfl ?_
      rintro t ⟨b', hb', rfl⟩
      cases hb'
      by_cases hbusy : busyOf b = true
      · refine sound_active hf (by simp only [hbusy, if_true]; rfl) hc ?_ (View.agrees_ctl h)
        have e : v.after req .waitAgain = some { v with poll := .closed, closed := true, ready := true } := if_pos (by simp [hl, hcl])
        rw [View.safe_step (by simp) e]
        rw [show ({ v with poll := .closed, closed := true, ready := true } : View) = { v with ready := true } by
          rw [← hpo, ← hcl]]
        exact hw
      · refine sound_active hf (by simp only [hbusy]; rfl) hc (v := { v with ready := true }) hw ?_
        have h' := View.agrees_ctl (k := .active req ms g (some b)) h
        exact ⟨h'.line, h'.got, h'.poll, h'.uid, h'.regs, h'.closed, h'.we, fun _ => hb (by simpa using hbusy)⟩
    | wbInit a len =>
      obtain ⟨hl, ha⟩ := of_ite ha
      cases ha
      refine key trivial ?_
      rintro t rfl
      exact sound_active hf rfl hc hw ⟨h.line, h.got, h.poll, h.uid, ⟨rfl, rfl, rfl, rfl⟩, h.closed, h.we, h.ready⟩
    | burst =>
      obtain ⟨off, rem, limit, hr, ha⟩ := of_known ha
      obtain ⟨hl, ha⟩ := of_ite ha
      simp only [Bool.and_eq_true, decide_eq_true_eq] at hl
      obtain ⟨⟨hl, hb⟩, -⟩ := hl
      cases ha
      have hregs := h.regs
      rw [hr] at hregs
      obtain ⟨-, h2, h3, h4⟩ := hregs
      refine key ⟨by simp [h3], by simp [h4]⟩ ?_
      rintro t ⟨rem', limit', e1, e2, rfl⟩
      rw [h3] at e1; cases e1
      rw [h4] at e2; cases e2
      by_cases hz : rem = 0
      · have h' := View.agrees_ctl (k := .active req ms g p) h
        rw [if_pos hz]
        exact sound_active hf rfl hc hw ⟨h'.line, h'.got, trivial, h'.uid, trivial, by simp, by simp, by simp⟩
      · refine sound_active hf (by simp only [hz, if_false]; rfl) hc ?_ (View.agrees_ctl h)
        obtain ⟨l, got, po, u, r, cl, we, rd⟩ := v
        cases hl; cases hr
        rw [View.safe_burst s.par hb]
        exact hw
    | wbNext n =>
      obtain ⟨off, rem, limit, hr, ha⟩ := of_known ha
      obtain ⟨hl, ha⟩ := of_ite ha
      cases ha
      have hregs := h.regs
      rw [hr] at hregs
      obtain ⟨h1, h2, h3, h4⟩ := hregs
      refine key trivial ?_
      rintro t rfl
      refine sound_active hf rfl hc hw ⟨h.line, h.got, h.poll, h.uid, ⟨?_, ?_, ?_, rfl⟩, h.closed, h.we, h.ready⟩
      · simpa [State.wbAdvance] using h1
      · simp [State.wbAdvance, h2]
      · simp [State.wbAdvance, h3]
    | wbClear =>
      obtain ⟨hl, ha⟩ := of_ite ha
      cases ha
      refine key trivial ?_
      rintro t rfl
      exact sound_active hf rfl hc hw ⟨h.line, h.got, h.poll, h.uid, ⟨rfl, rfl, rfl, rfl⟩, h.closed, h.we, h.ready⟩
    | cfgSave =>
      obtain ⟨hl, ha⟩ := of_ite ha
      cases ha
      have hline := h.line
      rw [hl] at hline
      refine key trivial ?_
      rintro t rfl
      refine sound_active (c := c) hf rfl ?_ hw ⟨by show Line.agrees v.line _ _; rw [hl]; exact hline, h.got, h.poll, h.uid, h.regs, by simp, h.we, h.ready⟩
      show scanTrace (s.trace ++ [.cfgSave]) = _
      rw [scanTrace_snoc, hc]; exact (Scan.next_other hline s.csId true).2.2.1
    | pinOutput =>
      obtain ⟨hl, ha⟩ := of_ite ha
      cases ha
      have hline := h.line
      rw [hl] at hline
      refine key trivial ?_
      rintro t rfl
      refine sound_active (c := c) hf rfl ?_ hw ⟨⟨hline, rfl⟩, h.got, h.poll, h.uid, h.regs, h.closed, h.we, h.ready⟩
      show scanTrace (s.trace ++ [.pinOutput s.csId]) = _
      rw [scanTrace_snoc, hc]; exact (Scan.next_other hline s.csId true).1
    | pinHigh =>
      obtain ⟨hl, ha⟩ := of_ite ha
      cases ha
      have hline := h.line
      rw [hl] at hline
      refine key trivial ?_
      rintro t rfl
      refine sound_active (c := c) hf rfl ?_ hw ⟨⟨hline.1, hline.2, rfl⟩, h.got, h.poll, h.uid, h.regs, h.closed, h.we, h.ready⟩
      show scanTrace (s.trace ++ [.pinWrite s.csId true]) = _
      rw [scanTrace_snoc, hc]; exact (Scan.next_other hline.1 s.csId true).2.1
    | setInitialized =>
      obtain ⟨hl, ha⟩ := of_ite ha
      cases ha
      refine key trivial ?_
      rintro t rfl
      exact sound_active hf rfl hc hw ⟨h.line, h.got, h.poll, h.uid, h.regs, h.closed, h.we, h.ready⟩
    | probe =>
      obtain ⟨hl, ha⟩ := of_ite ha
      simp only [Bool.and_eq_true, decide_eq_true_eq, beq_iff_eq] at hl
      cases ha
      refine key trivial ?_
      rintro t rfl
      by_cases he : s.expectedId = 0
      · exact sound_active hf (by rw [if_pos he]) hc hw (View.agrees_ctl (View.agrees_less h v.got le_rfl))
      · refine sound_active hf (by simp only [he, if_false]; rfl) hc ?_ (View.agrees_ctl h)
        rw [View.safe_readId hl.1 hl.2]; exact hw
    | idTest =>
      obtain ⟨hl, ha⟩ := of_ite ha
      simp only [Bool.and_eq_true, decide_eq_true_eq, beq_iff_eq] at hl
      obtain ⟨⟨hl, hg⟩, hr⟩ := hl
      cases ha
      refine key (hg.trans h.got) ?_
      rintro t ⟨x, rfl⟩
      by_cases he : x = s.expectedId
      · refine sound_active hf (by simp only [he, if_true]; rfl) hc hw ?_
        have h' := View.agrees_ctl (k := .active req ms g p) h
        exact ⟨by have := h'.line; simpa only [he, if_true] using this, (Nat.sub_le _ _).trans h'.got, trivial, h'.uid, by have := h'.regs; simpa only [he, if_true] using this, by simp, h'.we, h'.ready⟩
      · refine sound_active hf (by simp only [he, if_false]; rfl) hc (v := v) ?_ (View.agrees_ctl h)
        show (if _ then some v else none).isSome = true
        rw [if_pos (by simp [hl, hr])]; rfl
    | busEnd =>
      obtain ⟨hl, ha⟩ := of_ite ha
      cases ha
      have hline := h.line
      rw [hl] at hline
      refine key trivial ?_
      rintro t rfl
      refine sound_active (c := c) hf rfl ?_ hw ⟨by show Line.agrees v.line _ _; rw [hl]; exact hline, h.got, h.poll, h.uid, h.regs, h.closed, h.we, h.ready⟩
      show scanTrace (s.trace ++ [.busEnd]) = _
      rw [scanTrace_snoc, hc]; exact (Scan.next_other hline.1 s.csId true).2.2.2

end

/-- Every step of the sequencer keeps a sound block sound. -/
theorem seqStep_sound {s : State} (h : s.sound) : (seqStep s).sound := by
  obtain ⟨hf, c, hc, hk⟩ := h
  rcases hctl : s.ctl with _ | ⟨req, todo, g, p⟩
  · rw [show seqStep s = s by simp [seqStep, hctl]]
    exact ⟨hf, c, hc, hk⟩
  · rw [hctl] at hk
    obtain ⟨v, h, hs⟩ := hk
    rcases todo with _ | ⟨m, ms⟩
    · rw [show seqStep s = { s with ctl := .idle } by simp [seqStep, hctl]]
      have hs' : (v.line == .high && v.regs == .clear) = true := hs
      simp only [Bool.and_eq_true, beq_iff_eq] at hs'
      have hline := h.line
      rw [hs'.1] at hline
      have hregs := h.regs
      rw [hs'.2] at hregs
      exact ⟨hf, c, hc, hline.1, hregs, fun _ => hline.2⟩
    · exact seqStep_keeps_sound hf hctl hc h hs

/-! ## Requests from their start -/

theorem View.safe_rxMany {req : Instr} {op : Byte} {uid : Nat} {r : RegsView} {we rd : Bool} {ms : List Micro} (n : Nat) : ∀ got,
    View.safe req ⟨.low op, got, .unknown, uid, r, false, we, rd⟩ (rxMany n ++ ms) =
      View.safe req ⟨.low op, got + n, .unknown, uid, r, false, we, rd⟩ ms := by
  induction n with
  | zero => intro got; rfl
  | succ n ih =>
    intro got
    rw [show rxMany (n + 1) = .rx :: rxMany n from rfl, List.cons_append]
    have ha : View.after ⟨.low op, got, .unknown, uid, r, false, we, rd⟩ req .rx =
        some ⟨.low op, got + 1, .unknown, uid, r, false, we, rd⟩ := rfl
    rw [View.safe_step (by simp) ha, ih, Nat.add_assoc, Nat.add_comm 1 n]

/-- What is known at the start of a request. -/
def View.start (i : Instr) : View :=
  { line := if i = .initializeOp then .off else .high, got := 0, poll := .unknown, uid := 0, regs := .clear, closed := false,
    we := false, ready := false }

/-- Every admitted host operation is safe from its start (R104, R111). -/
theorem progOf_safe (p : Params) (i : Instr) (hl : hostLayer i = true) (hlen : lengthAdmits i = true) :
    (View.start i).safe i (progOf p i) = true := by
  cases i <;> try cases hl
  case readStatus => rfl
  case busy => rfl
  case readDeviceId => rfl
  case readUniqueId => rfl
  case readByte a => rfl
  case readBytes a len =>
    have e : progOf p (.readBytes a len) = (issue p 0x0B#8 false ++ txAddr a ++ txDummy p 1) ++ (rxMany len ++ [.unsel, .ret .bytes]) := by
      simp [progOf, progReadBytes]
    have h : ∀ xs, (View.start (.readBytes a len)).safe (.readBytes a len) ((issue p 0x0B#8 false ++ txAddr a ++ txDummy p 1) ++ xs) =
        View.safe (.readBytes a len) ⟨.low 0x0B#8, 0, .unknown, 0, .clear, false, false, true⟩ xs := fun _ => rfl
    rw [e, h, View.safe_rxMany]
    rfl
  case writeByte a v =>
    unfold progOf progWriteByte issue writeEnableTxn
    cases p.wePrepoll <;> rfl
  case writeBytes a len data =>
    have hd : data.length = len := by simpa [lengthAdmits] using hlen
    have hlim := firstLimit_bounds a
    have e : View.after ⟨.high, 0, .unknown, 0, .known 0 len (firstLimit a), false, false, false⟩ (.writeBytes a len data) .burst =
        some ⟨.high, 0, .unknown, 0, .unknown, false, false, false⟩ := if_pos (by simp [bufferOf, hd, hlim])
    show View.safe _ ⟨.high, 0, .unknown, 0, .known 0 len (firstLimit a), false, false, false⟩ (.burst :: [.wbClear, .ret .none]) = true
    rw [View.safe_step (by simp) e]
    rfl
  case eraseBlock4K a =>
    unfold progOf progEraseBlock4K issue writeEnableTxn
    cases p.wePrepoll <;> rfl
  case eraseBlock32K a =>
    unfold progOf progEraseBlock32K issue writeEnableTxn
    cases p.wePrepoll <;> rfl
  case chipErase =>
    unfold progOf progChipErase issue writeEnableTxn
    cases p.wePrepoll <;> rfl
  case sleep => rfl
  case wakeup => rfl
  case endOp => rfl
  case initializeOp =>
    unfold progOf progInitialize wakeupBody unprotectBody issue writeEnableTxn
    cases p.wePrepoll <;> rfl
  case reserved => rfl

/-- Soundness does not look at the device, its draws or its turns. -/
theorem State.sound.turn {s : State} (h : s.sound) (d : Device) (ch : List Bool) (n : Nat) :
    State.sound { s with dev := d, choices := ch, turns := n } := by
  obtain ⟨hf, c, hc, hk⟩ := h
  refine ⟨hf, c, hc, ?_⟩
  show Ctl.sound _ c s.ctl
  rcases hctl : s.ctl with _ | ⟨req, todo, g, p⟩ <;> rw [hctl] at hk
  · exact hk
  · obtain ⟨v, h, hs⟩ := hk
    exact ⟨v, ⟨h.line, h.got, h.poll, h.uid, h.regs, h.closed, h.we, h.ready⟩, hs⟩

/-- What exec answers to a host operation in a sound state: the refused request, or the run from a sound start (R204). -/
theorem exec_start_sound {i : Instr} {s t : State} (hl : hostLayer i = true) (h : s.sound) (he : exec i s = .next t) :
    t = s.refuse ∨
      (State.sound { s with ctl := .active i (progOf s.par i) [] none } ∧
        t = drain (fuelOf i) { s with ctl := .active i (progOf s.par i) [] none }) := by
  obtain ⟨hf, hi, ⟨rfl, -, -⟩ | ⟨rfl, ha, -⟩⟩ := exec_next he
  · exact .inl rfl
  · refine .inr ⟨?_, rfl⟩
    obtain ⟨-, c, hc, hk⟩ := h
    rw [hi] at hk
    obtain ⟨h1, h2, h3⟩ := hk
    have ha := ha hl
    simp only [admits, Bool.and_eq_true] at ha
    obtain ⟨⟨⟨-, hph⟩, -⟩, hlen⟩ := ha
    refine ⟨hf, c, hc, View.start i, ?_, progOf_safe s.par i hl hlen⟩
    refine ⟨?_, by simp [View.start], trivial, fun j hj hn => by simp [View.start] at hn, h2, by simp [View.start],
      by simp [View.start], by simp [View.start]⟩
    by_cases hin : i = .initializeOp
    · simp only [View.start, hin, if_true]; exact h1
    · simp only [View.start, hin, if_false]
      refine ⟨h1, h3 ?_⟩
      intro hcon
      rw [hcon] at hph
      cases i <;> simp [phaseAdmits] at hph hin

/-- A sound idle block stays sound through any host operation (R104, R111, R203). -/
theorem exec_sound {i : Instr} {s t : State} (hl : hostLayer i = true) (h : s.sound) (he : exec i s = .next t) : t.sound := by
  have hi : s.ctl = .idle := (exec_next he).2.1
  rcases exec_start_sound hl h he with rfl | ⟨h0, rfl⟩
  · obtain ⟨hf, c, hc, hk⟩ := h
    refine ⟨hf, c, hc, ?_⟩
    show Ctl.sound _ _ s.ctl
    rw [hi] at hk ⊢
    exact hk
  · exact drain_keeps (P := State.sound) (fun _ => seqStep_sound) _ _ h0

/-- A wire encoding never decodes to a host operation, nor a request to a command. -/
theorem decodeRequest_host {p : Params} {r : Request} {i : Instr} (h : decodeRequest p r = .ok i) : hostLayer i = true := by
  unfold decodeRequest at h
  split at h <;> (try split at h) <;> cases h <;> rfl

end Sys2Proof.Machine
end

