-- ==== Sys2Proof/Laws/WriteRange.lean ====
section
/-! SUPPORT. Laws/WriteRange.lean: writeBytes changes no cell outside its range, wherever its run stands and whatever the
device draws (20_memory.md R52, R72, R77, 43_program.md R153, R154). -/

namespace Sys2Proof.Machine

open Host (Cell)

/-! ## Operations that stay in a set of cells -/

/-- A completed `op` changes only cells in `R`. -/
def DevOp.within (R : Nat → Prop) (p : Params) (op : DevOp) : Prop :=
  ∀ m, Memory.wf m → Memory.wf (op.apply p m) ∧ ∀ x, ¬R x → Memory.read (op.apply p m) x = Memory.read m x

/-- The array reads as `m` outside `R`, and so it will once the pending operation is complete. -/
structure Device.within (R : Nat → Prop) (p : Params) (m : List Cell) (d : Device) : Prop where
  wf : Memory.wf d.mem
  rest : ∀ x, ¬R x → Memory.read d.mem x = Memory.read m x
  pending : ∀ op, d.pending = some op → op.within R p

section
variable {R : Nat → Prop} {p : Params} {m : List Cell} {d : Device}

theorem Device.within.of_same {d' : Device} (h : d.within R p m) (h1 : d'.mem = d.mem) (h2 : d'.pending = d.pending) :
    d'.within R p m :=
  ⟨by rw [h1]; exact h.wf, by rw [h1]; exact h.rest, by rw [h2]; exact h.pending⟩

theorem Device.within.select (h : d.within R p m) : d.select.within R p m := by
  unfold Device.select; split
  · exact h.of_same rfl rfl
  · exact h

theorem Device.within.absorb (h : d.within R p m) (b : Byte) : (d.absorb b).within R p m := by
  unfold Device.absorb; split
  · exact h.of_same rfl rfl
  · exact h

theorem Device.within.complete (h : d.within R p m) : (d.complete p).within R p m := by
  unfold Device.complete
  split
  · rename_i op hop
    have := h.pending op hop d.mem h.wf
    exact ⟨this.1, fun x hx => (this.2 x hx).trans (h.rest x hx), by simp⟩
  · exact h

theorem Device.within.effect {t : Txn} {op : Byte} (h : d.within R p m) (ho : ∀ o, t.operation op = some o → o.within R p) :
    (d.effect p t op).within R p m := by
  unfold Device.effect
  split
  · exact h.of_same rfl rfl
  · exact h.of_same rfl rfl
  · exact h.of_same rfl rfl
  · split
    · rename_i o hop
      split
      · exact ⟨h.complete.wf, h.complete.rest, fun o' ho' => by cases ho'; exact ho o hop⟩
      · exact h
    · exact h

/-- An Unsel that ends a transaction whose operation, if any, stays in `R`, honoured or not (R69, R77). -/
theorem Device.within.unselect {t : Txn} {op : Byte} (h : d.within R p m) (ht : d.txn = some t) (hop : t.opcode = some op)
    (ho : ∀ o, t.operation op = some o → o.within R p) (tr : List Event) (script : List Bool) :
    (d.unselect p tr script).1.within R p m := by
  have hclose : ∀ a, (d.close p a).within R p m := by
    intro a
    have h' : Device.within R p m { d with txn := none } := h.of_same rfl rfl
    simp only [Device.close, ht, hop]
    split
    · unfold Device.openEffect
      split
      · exact h.of_same rfl rfl
      · split
        · exact h'.effect ho
        · exact h'
    · exact h'.effect ho
  unfold Device.unselect
  split
  · exact h
  · generalize (if d.needsChoice = true then drawChoice script tr 0 else (true, script)) = a
    dsimp only
    by_cases h1 : (d.close p a.1).pending.isSome = true
    · rw [if_pos h1]
      by_cases h2 : (drawChoice a.2 tr 1).1 = true
      · simp only [h2, if_true]; exact (hclose _).complete
      · simp only [h2]; exact hclose _
    · rw [if_neg h1]; exact hclose _

/-- A whole transaction whose operation, if any, stays in `R`. -/
theorem within_transacted {s : State} {op : Byte} {bs : List Byte} (hp : s.par = p) (h : s.dev.within R p m)
    (hop : (Txn.fresh.after s.dev (op :: bs)).opcode = some op)
    (ho : ∀ o, (Txn.fresh.after s.dev (op :: bs)).operation op = some o → o.within R p) :
    (s.transacted (op :: bs)).dev.within R p m := by
  subst hp
  rcases hm : s.dev.model with _ | _
  · have hs : (s.transacted (op :: bs)).dev = s.dev := by
      have habs : ∀ bs : List Byte, bs.foldl Device.absorb s.dev = s.dev := by
        intro bs
        induction bs with
        | nil => rfl
        | cons b bs ih => rw [List.foldl_cons, show s.dev.absorb b = s.dev by simp [Device.absorb, hm], ih]
      have h1 : (s.selected.sent (op :: bs)).dev = s.dev := by
        rw [sent_dev_eq, State.selected_dev, show s.dev.select = s.dev by simp [Device.select, hm], habs]
      show (Device.unselect _ _ _ _).1 = _
      rw [h1]
      simp [Device.unselect, hm]
    rw [hs]; exact h
  · obtain ⟨tr, e⟩ := transacted_dev hm (op :: bs)
    have e1 := congrArg Prod.fst e
    simp only at e1
    rw [e1]
    exact Device.within.unselect (d := { s.dev with txn := some (Txn.fresh.after s.dev (op :: bs)) }) (h.of_same rfl rfl)
      rfl hop ho tr _
end

/-- A burst inside its page stays in the range of the request (R153, R154). -/
theorem within_burst {p : Params} (hp : p.wf) {base len off n : Nat} {a : Addr} {data : List Byte}
    (ha : a.toNat = (base + off) % 2 ^ 24) (hroom : a.toNat % 256 + n ≤ 256) (hlen : off + n ≤ len) (hd : data.length ≤ n) :
    (DevOp.program a data).within (fun x => ∃ i, i < len ∧ x = (base + i) % p.chipBytes) p := by
  intro m hm
  refine ⟨programPage_wf _ _ _ _ hm, fun x hx => ?_⟩
  rw [DevOp.apply]
  refine programPage_read_other data x hm (fun j _ hj he => hx ⟨off + j, by omega, ?_⟩)
  obtain ⟨h1, h2, -⟩ := hp
  have hc : p.chipBytes = 256 * 2 ^ (p.chipBits - 8) := by
    rw [Params.chipBytes, show 256 = 2 ^ 8 from rfl, ← Nat.pow_add]; congr 1; omega
  have hdvd : p.chipBytes ∣ 2 ^ 24 := Nat.pow_dvd_pow 2 h2
  have hmod : (base + (off + j)) % p.chipBytes = (a.toNat + j) % p.chipBytes := by
    rw [ha, Nat.add_mod ((base + off) % 2 ^ 24), Nat.mod_mod_of_dvd _ hdvd, ← Nat.add_mod, Nat.add_assoc]
  rw [hmod, he]
  simp only [unitBase, cellOf, Config.pageBytes, Nat.add_zero]
  have hm1 : a.toNat % p.chipBytes % 256 = a.toNat % 256 := Nat.mod_mod_of_dvd _ ⟨_, hc⟩
  have hlt : a.toNat % p.chipBytes < p.chipBytes := Nat.mod_lt _ (by rw [hc]; positivity)
  rw [Nat.add_mod a.toNat j, ← Nat.add_mod_mod]
  have hj' : j % p.chipBytes = j := Nat.mod_eq_of_lt (by omega)
  generalize a.toNat % p.chipBytes = r at *
  generalize 2 ^ (p.chipBits - 8) = c at *
  rw [Nat.mod_eq_of_lt (a := j) (by omega), Nat.mod_eq_of_lt (a := j) (by omega), Nat.mod_eq_of_lt (a := r + j) (by omega)]
  omega

/-! ## The run of writeBytes -/

/-- Within fewer than `n` moves of the sequencer and the device from `s` the array reads as `m` outside `R`, and so it
will. -/
def StaysWithin (R : Nat → Prop) (p : Params) (m : List Cell) : Nat → State → Prop
  | 0, _ => True
  | n + 1, s => s.dev.within R p m ∧ ∀ t, Goes s t → StaysWithin R p m n t

/-- A position inside a transaction that only goes on to the next. -/
def popping : Micro → Bool
  | .sel | .tx _ | .txWbHigh | .txWbMid | .txWbLow | .txBuf _ | .rxPoll => true
  | _ => false

section
variable {R : Nat → Prop} {p : Params} {m : List Cell} {n : Nat} {s : State} {req : Instr} {ms : List Micro} {g : List Byte}
  {q : Option Byte}

theorem StaysWithin.mono : ∀ {n k : Nat} {s : State}, StaysWithin R p m n s → k ≤ n → StaysWithin R p m k s
  | _, 0, _, _, _ => trivial
  | 0, _ + 1, _, _, hk => absurd hk (by omega)
  | _ + 1, _ + 1, _, h, hk => ⟨h.1, fun t ht => (h.2 t ht).mono (by omega)⟩

/-- Not suspended, only the sequencer moves. -/
theorem StaysWithin.cons (h0 : s.dev.within R p m) (hs : s.suspended = false) (h : StaysWithin R p m n (seqStep s)) :
    StaysWithin R p m (n + 1) s := by
  refine ⟨h0, fun t ht => ?_⟩
  cases ht with
  | seq => exact h
  | drawn h' => rw [hs] at h'; cases h'
  | completed h' => rw [hs] at h'; cases h'

theorem StaysWithin.step (h0 : s.dev.within R p m) {t : State} (e : seqStep s = t) (hs : s.suspended = false)
    (h : StaysWithin R p m n t) : StaysWithin R p m n s := by
  subst e; exact (StaysWithin.cons h0 hs h).mono (by omega)

/-- What holds for every number of moves holds wherever moves lead. -/
theorem StaysWithin.leads {t : State} (h : ∀ n, StaysWithin R p m n s) (hl : Leads s t) : t.dev.within R p m :=
  (hl.keeps (P := fun s => ∀ n, StaysWithin R p m n s) (fun _ u h hg n => (h (n + 1)).2 u hg) h 1).1

/-- One position inside a transaction. -/
theorem within_popping {x : Micro} (hc : s.ctl = .active req (x :: ms) g q) (hx : popping x = true)
    (hf : (seqStep s).fault = none) (h : s.dev.within R p m) :
    (seqStep s).dev.within R p m ∧ ∃ g' q', (seqStep s).ctl = .active req ms g' q' := by
  rcases seqStep_moves hc with ⟨-, r, e⟩ | hm
  · rw [e] at hf
    rcases hs : s.fault with _ | r' <;> simp [State.raise, hs] at hf
  · generalize seqStep s = t at *
    cases x with
    | sel => subst hm; exact ⟨h.select, _, _, rfl⟩
    | tx b => subst hm; exact ⟨h.absorb _, _, _, rfl⟩
    | txWbHigh => obtain ⟨b, rfl⟩ := hm; exact ⟨h.absorb _, _, _, rfl⟩
    | txWbMid => obtain ⟨b, rfl⟩ := hm; exact ⟨h.absorb _, _, _, rfl⟩
    | txWbLow => obtain ⟨b, rfl⟩ := hm; exact ⟨h.absorb _, _, _, rfl⟩
    | txBuf i => obtain ⟨b, rfl⟩ := hm; exact ⟨h.absorb _, _, _, rfl⟩
    | rxPoll => subst hm; exact ⟨h.absorb _, _, _, rfl⟩
    | _ => cases hx

/-- The positions of a transaction up to its end. -/
theorem StaysWithin.popped (pre : List Micro) (hpre : pre.all popping = true) : ∀ {s : State} {g : List Byte} {q : Option Byte},
    s.ctl = .active req (pre ++ ms) g q → s.dev.within R p m → (seqStep^[pre.length] s).fault = none →
    ((seqStep^[pre.length] s).dev.within R p m → StaysWithin R p m n (seqStep^[pre.length] s)) → StaysWithin R p m n s := by
  induction pre with
  | nil => intro s g q _ hw _ h; exact h hw
  | cons x pre ih =>
    intro s g q hc hw hf h
    rw [List.all_cons, Bool.and_eq_true] at hpre
    obtain ⟨h1, g', q', h2⟩ := within_popping hc hpre.1 (iterate_fault seqStep_fault (n := pre.length) hf) hw
    have hs : s.suspended = false := by
      rw [State.suspended, hc]
      cases x <;> first | rfl | cases hpre.1
    exact .step hw rfl hs (ih hpre.2 h2 h1 hf h)

/-- A whole transaction, from its SELECT to behind its UNSELECT. -/
theorem StaysWithin.transaction {op : Byte} {bs : List Byte} (pre : List Micro) {q' : Option Byte}
    (hp : s.par = p) (h : s.dev.within R p m) (hf : s.fault = none) (hpre : pre.all popping = true)
    (he : Steps pre.length { s with ctl := .active req (pre ++ .unsel :: ms) g q }
      { s.selected.sent (op :: bs) with ctl := .active req (.unsel :: ms) g q' })
    (hop : (Txn.fresh.after s.dev (op :: bs)).opcode = some op)
    (ho : ∀ o, (Txn.fresh.after s.dev (op :: bs)).operation op = some o → o.within R p)
    (hn : (s.transacted (op :: bs)).dev.within R p m →
      StaysWithin R p m n { s.transacted (op :: bs) with ctl := .active req ms g q' }) :
    StaysWithin R p m n { s with ctl := .active req (pre ++ .unsel :: ms) g q } := by
  refine .popped (ms := .unsel :: ms) pre hpre (s := { s with ctl := .active req (pre ++ .unsel :: ms) g q }) rfl h ?_ ?_
  · rw [he.iterate]; simp [hf]
  · rw [he.iterate]
    exact fun hw => .step hw (seqStep_unsel (by simp) (by simp)) rfl (hn (within_transacted hp h hop ho))

/-- An idle block stays as it is. -/
theorem StaysWithin.idle (hc : s.ctl = .idle) (h : s.dev.within R p m) : ∀ n, StaysWithin R p m n s
  | 0 => trivial
  | n + 1 => .cons h (by simp [State.suspended, hc]) (by rw [seqStep_idle hc]; exact StaysWithin.idle hc h n)

/-- What a state between transactions keeps of `s`, and that the array is as before outside `R`. -/
structure Between (R : Nat → Prop) (p : Params) (m : List Cell) (s t : State) : Prop where
  touches : Touches s t
  high : t.csLevel = some true
  within : t.dev.within R p m

/-- A ready-wait, however long it takes and whenever the device completes, with as many moves left for the rest. -/
theorem staysWithin_polls (hp : s.par = p) (hf : s.fault = none) (h1 : s.csDir = .output) : ∀ {n : Nat},
    (∀ u q', Between R p m s u → StaysWithin R p m n { u with ctl := .active req ms g q' }) →
    (∀ {t : State} {q : Option Byte}, Between R p m s t →
      StaysWithin R p m n { t with ctl := .active req (pollBody ++ ms) g q }) ∧
    ∀ {t : State} {q : Option Byte}, Between R p m s t →
      StaysWithin R p m n { t with ctl := .active req (.waitAgain :: ms) g q }
  | 0, _ => ⟨fun _ => trivial, fun _ => trivial⟩
  | n + 1, hn => by
    obtain ⟨i1, i2⟩ := staysWithin_polls hp hf h1 (n := n) (fun u q' hu => (hn u q' hu).mono (by omega))
    have hwait : ∀ {t : State} {q : Option Byte}, Between R p m s t →
        StaysWithin R p m (n + 1) { t with ctl := .active req (.waitAgain :: ms) g q } := by
      intro t q ht
      refine ⟨ht.within, fun v hv => ?_⟩
      cases hv with
      | seq => exact i1 (t := t) ht
      | drawn => exact i2 (t := t.drawn) ⟨ht.touches.trans (touches_drawn t), ht.high, ht.within⟩
      | completed =>
        exact i2 (t := t.completed) ⟨ht.touches.trans (touches_completed t), ht.high, by
          rw [State.completed_dev, ht.touches.par.trans hp]; exact ht.within.complete⟩
    refine ⟨fun {t q} ht => ?_, hwait⟩
    have hpoll := touches_transacted t t.pollBytes
    refine .transaction (s := t) (op := 0x05#8) (bs := [t.par.fillByte]) [.sel, .tx 0x05#8, .rxPoll] (ht.touches.par.trans hp) ht.within
      (ht.touches.fault.trans hf) rfl
      (steps_poll_open (s := t) (ht.touches.fault.trans hf) (ht.touches.csDir.trans h1) ht.high) ?_ ?_ ?_
    · rw [Txn.after_plain _ rfl]; rfl
    · rw [Txn.after_plain _ rfl]; intro o h; cases h
    · intro hw
      have hb : Between R p m s t.polled := ⟨ht.touches.trans hpoll, transacted_csLevel _, hw⟩
      refine .step hw seqStep_pollTest rfl ?_
      split
      · exact hwait hb
      · exact hn _ _ hb

theorem staysWithin_wait {t : State} (hp : s.par = p) (hf : s.fault = none) (h1 : s.csDir = .output) (ht : Between R p m s t)
    (hn : ∀ u q', Between R p m s u → StaysWithin R p m n { u with ctl := .active req ms g q' }) :
    StaysWithin R p m n { t with ctl := .active req (.wait :: ms) g q } :=
  .step ht.within seqStep_wait rfl ((staysWithin_polls hp hf h1 hn).1 ht)

/-- The write-enable transaction of a mutating issue and the ready-waits about it (R108, R110). -/
theorem staysWithin_writeEnable {t : State} (hp : s.par = p) (hf : s.fault = none) (h1 : s.csDir = .output) (ht : Between R p m s t)
    (hn : ∀ u q', Between R p m s u → StaysWithin R p m n { u with ctl := .active req ms g q' }) :
    StaysWithin R p m n { t with ctl := .active req (writeEnableTxn s.par ++ .wait :: ms) g q } := by
  have key : ∀ {u : State} {q' : Option Byte}, Between R p m s u →
      StaysWithin R p m n { u with ctl := .active req (.sel :: .tx 0x06#8 :: .unsel :: .wait :: ms) g q' } := by
    intro u q' hu
    refine .transaction (s := u) (op := 0x06#8) (bs := []) [.sel, .tx 0x06#8] (hu.touches.par.trans hp) hu.within
      (hu.touches.fault.trans hf) rfl
      (steps_open (s := u) (ms := .unsel :: .wait :: ms) (hu.touches.fault.trans hf) (hu.touches.csDir.trans h1) hu.high rfl [0x06#8]) ?_ ?_ ?_
    · rw [Txn.after_plain _ rfl]; rfl
    · rw [Txn.after_plain _ rfl]; intro o h; cases h
    · exact fun hw => staysWithin_wait hp hf h1 ⟨hu.touches.trans (touches_transacted _ _), transacted_csLevel _, hw⟩ hn
  unfold writeEnableTxn
  split
  · exact staysWithin_wait hp hf h1 ht (fun u q' hu => key hu)
  · exact key ht

end

section
variable {p : Params} {m : List Cell} {base len : Nat} {req : Instr} {ms : List Micro} {g : List Byte}

/-- The cells of a request's range, modulo CHIP_BYTES (D17). -/
def rangeCells (p : Params) (base len x : Nat) : Prop := ∃ i, i < len ∧ x = (base + i) % p.chipBytes

/-- One burst of WRITE_BYTES inside the request's range. -/
theorem staysWithin_burst {s : State} {n : Nat} {q : Option Byte} {a : Addr} {off k : Nat} (hwf : p.wf) (hp : s.par = p)
    (hf : s.fault = none) (h1 : s.csDir = .output) (h2 : s.csLevel = some true) (h : s.dev.within (rangeCells p base len) p m)
    (ha : s.wbAddr = some a) (ho : s.wbOff = some off) (hlen : off + k ≤ (bufferOf req).length) (hl : off + k ≤ len)
    (had : a.toNat = (base + off) % 2 ^ 24) (hroom : a.toNat % 256 + k ≤ 256)
    (hn : ∀ u q', Between (rangeCells p base len) p m s u →
      StaysWithin (rangeCells p base len) p m n { u.wbAdvance k with ctl := .active req ms g q' }) :
    StaysWithin (rangeCells p base len) p m n { s with ctl := .active req (burstBody s.par k ++ ms) g q } := by
  rw [burstBody_append, issue_mutating]
  refine staysWithin_writeEnable (s := s) (t := s) hp hf h1 ⟨.refl s, h2, h⟩ (fun u q' hu => ?_)
  have e1 := steps_open (s := u) (req := req) (g := g) (p := q')
    (ms := .txWbHigh :: .txWbMid :: .txWbLow :: ((List.range' 0 k).map .txBuf ++ .unsel :: .wbNext k :: ms))
    (hu.touches.fault.trans hf) (hu.touches.csDir.trans h1) hu.high rfl [0x02#8]
  have e2 := steps_burst_data (s := u) (req := req) (ms := .wbNext k :: ms) (g := g) (p := q') (hu.touches.fault.trans hf)
    (hu.touches.wb.1.trans ha) (hu.touches.wb.2.1.trans ho) hlen
  have e := e1.trans e2
  have hpre : (([.sel, .tx 0x02#8, .txWbHigh, .txWbMid, .txWbLow] : List Micro) ++ (List.range' 0 k).map Micro.txBuf).length =
      [0x02#8].length + 1 + (3 + k) := by simp; omega
  rw [← hpre] at e
  refine .transaction (s := u) (op := 0x02#8) (bs := addrBytes a ++ ((bufferOf req).drop off).take k)
    ([.sel, .tx 0x02#8, .txWbHigh, .txWbMid, .txWbLow] ++ (List.range' 0 k).map Micro.txBuf) (hu.touches.par.trans hp) hu.within
    (hu.touches.fault.trans hf) (by simp [popping]) e ?_ ?_ ?_
  · rw [Txn.after_addr _ rfl]; rfl
  · rw [Txn.after_addr _ rfl]
    intro o ho
    have ho' : (if burstFits (((bufferOf req).drop off).take k) = true then
        some (DevOp.program a (((bufferOf req).drop off).take k)) else none) = some o := ho
    split at ho'
    · cases ho'
      exact within_burst hwf had hroom hl (by simp)
    · cases ho'
  · intro hw
    exact .step hw rfl rfl (hn (u.transacted _) _ ⟨hu.touches.trans (touches_transacted _ _), transacted_csLevel _, hw⟩)

/-- The loop of WRITE_BYTES inside the request's range. -/
theorem staysWithin_bursts (hwf : p.wf) {n : Nat} (hbuf : (bufferOf req).length = len)
    (hend : ∀ (u : State) q', u.dev.within (rangeCells p base len) p m →
      StaysWithin (rangeCells p base len) p m n { u with ctl := .active req ms g q' }) :
    ∀ {fuel : Nat} {s : State} {a : Addr} {off rem limit : Nat} {q : Option Byte}, SplitInv base len a off rem limit → rem ≤ fuel →
      s.par = p → s.fault = none → s.csDir = .output → s.csLevel = some true → s.dev.within (rangeCells p base len) p m →
      s.wbAddr = some a → s.wbOff = some off → s.wbRem = some rem → s.wbLimit = some limit →
      StaysWithin (rangeCells p base len) p m n { s with ctl := .active req (.burst :: ms) g q } := by
  have hdone : ∀ {s : State} {limit : Nat} {q : Option Byte}, s.wbRem = some 0 → s.wbLimit = some limit →
      s.dev.within (rangeCells p base len) p m →
      StaysWithin (rangeCells p base len) p m n { s with ctl := .active req (.burst :: ms) g q } := by
    intro s limit q hr hl h
    exact .step h (by simp only [seqStep, microStep, State.burstLoop, hr, hl, if_true]) rfl (hend s q h)
  intro fuel
  induction fuel with
  | zero =>
    intro s a off rem limit q hs hfu hp hf h1 h2 h ha ho hr hl
    obtain rfl : rem = 0 := by omega
    exact hdone hr hl h
  | succ fuel ih =>
    intro s a off rem limit q hs hfu hp hf h1 h2 h ha ho hr hl
    rcases Nat.eq_zero_or_pos rem with rfl | hpos
    · exact hdone hr hl h
    · have i1 := hs.sum
      have i3 := hs.low
      have i4 := hs.room
      refine .step h (seqStep_burst hr hl hpos rfl) rfl ?_
      refine staysWithin_burst hwf hp hf h1 h2 h ha ho (by omega) (by omega) hs.addr (by omega) (fun u q' hu => ?_)
      obtain ⟨w1, w2, w3, w4⟩ := hu.touches.wb
      by_cases hl' : limit ≤ rem
      · exact ih (s := u.wbAdvance (min rem limit)) (hs.next hl') (by omega) (hu.touches.par.trans hp) (hu.touches.fault.trans hf)
          (hu.touches.csDir.trans h1) hu.high hu.within (by simp [w1, ha]) (by simp [w2, ho]) (by simp [w3, hr]) (by simp)
      · exact hdone (s := u.wbAdvance (min rem limit)) (limit := Config.pageBytes) (by simp [w3, hr]; omega) (by simp) hu.within

/-- Wherever the run of writeBytes stands, the array is as before outside its range. -/
theorem writeBytes_within {s : State} (hwf : s.wf) (hf : s.fault = none) (h1 : s.csDir = .output) (h2 : s.csLevel = some true)
    (hpend : s.dev.pending = none) (a : Addr) (data : List Byte) {u : State}
    (h : Leads { s with ctl := .active (.writeBytes a data.length data) (progWriteBytes a data.length) [] none } u) :
    ∀ x, ¬rangeCells s.par a.toNat data.length x → Memory.read u.dev.mem x = Memory.read s.dev.mem x := by
  have hw : s.dev.within (rangeCells s.par a.toNat data.length) s.par s.dev.mem :=
    ⟨hwf.2.1, fun _ _ => rfl, fun op h => by rw [hpend] at h; cases h⟩
  refine (StaysWithin.leads (p := s.par) (fun n => ?_) h).rest
  refine .step hw rfl rfl ?_
  refine staysWithin_bursts (base := a.toNat) (len := data.length) (req := .writeBytes a data.length data) (s := { s with wbAddr := some a, wbOff := some 0, wbRem := some data.length, wbLimit := some (firstLimit a) })
    hwf.1 rfl ?_ (SplitInv.start a data.length) le_rfl rfl hf h1 h2 hw rfl rfl rfl rfl
  intro u q' hu
  exact .step hu rfl rfl (.step hu rfl rfl (.idle rfl (by exact hu) _))
end

end Sys2Proof.Machine
end

