-- ==== Sys2Proof/Tests/Slice0.lean ====
section
/-! SUPPORT. Tests/Slice0.lean: the model's own tests. Expected values are those of spec/95_test_vectors.md (the vector is
named in each comment) or are written out from the encoding tables of spec/30_encoding.md. Then, for every obligation
with hypotheses, a witness that meets them together. -/

namespace Sys2Proof.Tests

open Machine

/-! ## Small states -/

/-- The block of 95_test_vectors.md section 0, with an external device and a MISO script. -/
def ext (miso : List Byte) : State :=
  { State.reset with phase := .initialized, csDir := .output, csLevel := some true, miso := miso }

/-- `n` zero bytes: a device that is ready whenever it is polled. -/
def zeros (n : Nat) : List Byte := List.replicate n 0x00#8

/-- The same block with the reference device `d`, CHIP_BYTES = 2^20, and a script of its choices. -/
def withDev (d : Device) (choices : List Bool) (miso : List Byte) : State :=
  { ext miso with dev := d, choices := choices, par := { Params.default with chipBits := 20 } }

/-- A ready reference device with the identifiers of L3-3. -/
def dev : Device :=
  { Device.reset with
    model := .reference, mfr := 0xEF#8, devId := 0x30#8, uid := #v[1, 2, 3, 4, 5, 6, 7, 8] }

/-- A reference device busy with a program. -/
def busyDev : Device := { dev with busy := true, pending := some (.program 0x000010#24 [0x5A#8]) }

/-- The block just constructed, with the given EXPECTED_ID and MISO script. -/
def fresh (eid : Word16) (miso : List Byte) : State := { State.reset with expectedId := eid, miso := miso }

/-- What exec leaves, when it goes on. -/
def after (i : Instr) (s : State) : State :=
  match exec i s with
  | .next t => t
  | _ => s

/-- One framed transaction (R94). -/
def txn (mosi miso : List Byte) : List Event := .sel :: (List.zipWith .xfer mosi miso ++ [.unsel])

/-- A transaction of a device that answers zeros. -/
def sends (mosi : List Byte) : List Event := txn mosi (zeros mosi.length)

/-- `{05←00}` and `{06}` (R94). -/
def poll : List Event := sends [0x05, 0x00]
def we : List Event := sends [0x06]

/-! ## WellFormed: an ill-formed term for each check -/

theorem test_wf_len_too_wide : (Instr.readBytes 0 65536).wf Params.default = false ∧
    (Instr.writeBytes 0 65536 []).wf Params.default = false := by decide
theorem test_wf_burst_empty : (Instr.byteOrPageProgram 0 []).wf Params.default = false := by decide
theorem test_wf_burst_257 : (Instr.byteOrPageProgram 0 (zeros 257)).wf Params.default = false := by
  have h : (zeros 257).length = 257 := List.length_replicate
  show (decide (1 ≤ (zeros 257).length) && decide ((zeros 257).length ≤ 256)) = false
  rw [h]; rfl
theorem test_wf_params : ¬({ Params.default with chipBits := 18 } : Params).wf ∧
    ¬({ Params.default with lenBits := 9 } : Params).wf ∧ ¬({ Params.default with nHandles := 0 } : Params).wf := by decide

/-! ## Decode: transactions written out from R81 and R82 -/

theorem test_decode_wire_1 :
    decodeWire Params.default [0x06#8] = .ok .writeEnable ∧
    decodeWire Params.default [0x05#8, 0x00#8] = .ok .statusRead ∧
    decodeWire Params.default [0x01#8, 0x9C#8] = .ok (.statusWrite 0x9C#8) ∧
    decodeWire Params.default [0x0B#8, 0x01#8, 0x23#8, 0x45#8, 0x00#8] = .ok (.arrayRead 0x012345#24 0) ∧
    decodeWire Params.default [0x03#8, 0xAB#8, 0xCD#8, 0xEF#8, 0x00#8] = .ok (.arrayReadLowFreq 0xABCDEF#24 1) ∧
    decodeWire Params.default [0x02#8, 0x00#8, 0x00#8, 0xFE#8, 0x0A#8, 0x0B#8] =
      .ok (.byteOrPageProgram 0x0000FE#24 [0x0A#8, 0x0B#8]) := by decide

theorem test_decode_wire_2 :
    decodeWire Params.default [0x20#8, 0x00#8, 0x12#8, 0x34#8] = .ok (.blockErase4K 0x001234#24) ∧
    decodeWire Params.default [0x52#8, 0x00#8, 0xAB#8, 0xCD#8] = .ok (.blockErase32K 0x00ABCD#24) ∧
    decodeWire Params.default [0x60#8] = .ok .chipEraseCmd ∧
    decodeWire Params.default [0x9F#8, 0x00#8, 0x00#8] = .ok .jedecId ∧
    decodeWire Params.default (0x4B#8 :: zeros 12) = .ok .uniqueId ∧
    decodeWire Params.default [0xB9#8] = .ok .deepPowerDown ∧
    decodeWire Params.default [0xAB#8] = .ok .releaseFromPowerDown := by decide

theorem test_decode_wire_refused :
    decodeWire Params.default [] = .error .emptyTransaction ∧
    decodeWire Params.default [0xD8#8, 0x00#8, 0x00#8, 0x00#8] = .error .unknownOpcode ∧
    decodeWire Params.default [0x06#8, 0x00#8] = .error .wrongLength ∧
    decodeWire Params.default [0x05#8, 0x01#8] = .error .fillExpected ∧
    decodeWire Params.default [0x02#8, 0x00#8, 0x00#8, 0x00#8] = .error .burstSize := by decide

/-- The request records of L3-1, L3-2 and R91. -/
theorem test_decode_request :
    decode Params.default (.request ⟨0x7#4, 0x0000FE#24, 4, 0, [0x0A, 0x0B, 0x0C, 0x0D]⟩) =
      .ok (.writeBytes 0x0000FE#24 4 [0x0A, 0x0B, 0x0C, 0x0D]) ∧
    decode Params.default (.request ⟨0x6#4, 0x001234#24, 0, 0x5A, []⟩) = .ok (.writeByte 0x001234#24 0x5A) ∧
    decode Params.default (.request ⟨0x5#4, 0x0000FE#24, 4, 0, []⟩) = .ok (.readBytes 0x0000FE#24 4) ∧
    decode Params.default (.request ⟨0x8#4, 0x001234#24, 0, 0, []⟩) = .ok (.eraseBlock4K 0x001234#24) ∧
    decode Params.default (.request ⟨0xE#4, 0, 0, 0, []⟩) = .ok .initializeOp ∧
    decode Params.default (.request ⟨0xF#4, 0, 0, 0, []⟩) = .ok .reserved ∧
    decode Params.default (.request ⟨0x5#4, 0, 65536, 0, []⟩) = .error .lenTooWide := by decide

/-- Every row of spec/opcode_table.json by its bits: a wire opcode by 8 bits, an OPSEL by 4. -/
theorem test_table_wire :
    [0x06, 0x05, 0x01, 0x0B, 0x03, 0x02, 0x20, 0x52, 0x60, 0x9F, 0x4B, 0xB9, 0xAB].map (decodeTableWord 8) =
      [some .writeEnable, some .statusRead, some (.statusWrite 0), some (.arrayRead 0 0), some (.arrayReadLowFreq 0 0),
        some (.byteOrPageProgram 0 [0]), some (.blockErase4K 0), some (.blockErase32K 0), some .chipEraseCmd,
        some .jedecId, some .uniqueId, some .deepPowerDown, some .releaseFromPowerDown] := by decide

theorem test_table_opsel :
    (List.range 16).map (decodeTableWord 4) =
      [some .readStatus, some .busy, some .readDeviceId, some .readUniqueId, some (.readByte 0), some (.readBytes 0 0),
        some (.writeByte 0 0), some (.writeBytes 0 0 []), some (.eraseBlock4K 0), some (.eraseBlock32K 0), some .chipErase,
        some .sleep, some .wakeup, some .endOp, some .initializeOp, some .reserved] := by decide

/-- A fetched word is what the next step runs (log 5): 0x06 on a block just constructed meets SELECT's first check. -/
theorem test_fetch_runs :
    step (State.reset.withFetchWord 8 0x06) = exec .writeEnable State.reset ∧
    step (State.reset.withFetchWord 4 0xF) = exec .reserved State.reset := ⟨rfl, rfl⟩

/-! ## Memory -/

theorem test_memory_program : Memory.program [(0x10, 0xF0#8)] 0x10 0x5A#8 = [(0x10, 0x50#8)] := by decide
theorem test_memory_write_erased_removes : Memory.write [(3, 1#8), (5, 2#8)] 3 0xFF#8 = [(5, 2#8)] := by decide
theorem test_memory_write_order : Memory.write [(3, 1#8), (5, 2#8)] 4 7#8 = [(3, 1#8), (4, 7#8), (5, 2#8)] := by decide

/-! ## Status parser: V-B1 to V-B6 -/

theorem test_busyOf :
    [0x00#8, 0x01, 0xFE, 0xFF, 0x80, 0x03].map busyOf = [false, true, false, true, false, true] := by decide

/-! ## Splitter: V-S1 to V-S4, V-SP01 to V-SP10 (each clause of R153 to R155 at its boundary) -/

theorem test_split_page :
    split 0x000000#24 3 = [⟨0x000000#24, 0, 3⟩] ∧
    split 0x0000FE#24 4 = [⟨0x0000FE#24, 0, 2⟩, ⟨0x000100#24, 2, 2⟩] ∧
    split 0x0000FF#24 1 = [⟨0x0000FF#24, 0, 1⟩] ∧
    split 0x000080#24 128 = [⟨0x000080#24, 0, 128⟩] ∧
    split 0x000080#24 129 = [⟨0x000080#24, 0, 128⟩, ⟨0x000100#24, 128, 1⟩] ∧
    split 0x001234#24 0 = [] ∧
    split 0xFFFFFF#24 2 = [⟨0xFFFFFF#24, 0, 1⟩, ⟨0x000000#24, 1, 1⟩] := by decide

theorem test_split_full_page :
    split 0x000000#24 256 = [⟨0x000000#24, 0, 256⟩] ∧
    split 0x000000#24 257 = [⟨0x000000#24, 0, 256⟩, ⟨0x000100#24, 256, 1⟩] ∧
    split 0x0000FF#24 258 = [⟨0x0000FF#24, 0, 1⟩, ⟨0x000100#24, 1, 256⟩, ⟨0x000200#24, 257, 1⟩] ∧
    split 0x000001#24 512 = [⟨0x000001#24, 0, 255⟩, ⟨0x000100#24, 255, 256⟩, ⟨0x000200#24, 511, 1⟩] := by decide

/-! ## Framing: V-F1 to V-F8, one primitive each -/

/-- A request at the given position. -/
def atPosition (s : State) (m : Micro) : State := { s with ctl := .active .readStatus [m] [] none }

theorem test_select : seqStep (atPosition (ext []) .sel) =
    { atPosition (ext []) .sel with
      ie := false, savedCfg := some ⟨0⟩, busCfg := ⟨1⟩, csLevel := some false, trace := [.sel],
      ctl := .active .readStatus [] [] none } := by decide
theorem test_select_unconfigured :
    (seqStep (atPosition State.reset .sel)).fault = some .csNotConfigured := by decide
theorem test_select_nested :
    (seqStep (atPosition { ext [] with csLevel := some false } .sel)).fault = some .nestedSelect := by decide
theorem test_unselect_high : (seqStep (atPosition (ext []) .unsel)).fault = some .unselectWhileDeselected := by decide
theorem test_xfer_high : (seqStep (atPosition (ext []) (.tx 0x05#8))).fault = some .xferWhileDeselected := by decide
theorem test_xfer : (seqStep (atPosition { ext [0x12#8] with csLevel := some false } (.tx 0x9F#8))).trace =
    [.xfer 0x9F#8 0x12#8] := by decide

/-! ## The device's own step (R6, R69): the expected values are R72's -/

/-- What a step leaves, when it goes on. -/
def next (s : State) : State :=
  match step s with
  | .next t => t
  | _ => s

/-- Idle, and idle after end: `0xF0 AND 0x5A` in its cell, BUSY clear, no event and nothing sent. -/
theorem test_device_step : ∀ s ∈ [withDev { busyDev with mem := [(0x10, 0xF0#8)] } [true] [],
      after .endOp (withDev { busyDev with mem := [(0x10, 0xF0#8)] } [true] [])],
    (next s).dev = { dev with mem := [(0x10, 0x50#8)] } ∧ (next s).trace = s.trace ∧ (next s).ctl = .idle ∧
      (next s).phase = s.phase := by decide
/-- A poll after it reads ready; without it, busy. -/
theorem test_device_step_then_poll :
    let s c := { withDev busyDev [c, false] (zeros 4) with hreq := [HostMove.issue (.request ⟨0x1#4, 0, 0, 0, []⟩)] }
    (next (s false)).hrsp = [.bool true] ∧ (next (s true)).hrsp = [] ∧ (next (next (s true))).hrsp = [.bool false] := by
  decide
/-- A fetched word is the very next move with a device at work too (log 5). -/
theorem test_fetch_runs_while_busy : step ((withDev busyDev [true] (zeros 4)).withFetchWord 4 0xD) =
    exec .endOp { withDev busyDev [true] (zeros 4) with turns := 1 } := rfl

/-! ## Host operations -/

/-- V-B7, V-F3: all eight bits pass, and interrupts end up enabled. -/
theorem test_readStatus : (after .readStatus { ext [0, 0x03] with ie := false }).hrsp = [.byte 0x03#8] ∧
    (after .readStatus { ext [0, 0x03] with ie := false }).ie = true := by decide
/-- V-B8, V-B9. -/
theorem test_busy : (after .busy (ext [0, 0xFE])).hrsp = [.bool false] ∧ (after .busy (ext [0, 0x01])).hrsp = [.bool true] ∧
    (after .busy (ext [0, 0x01])).ctl = .idle := by decide
/-- V-D1, V-D4. -/
theorem test_readDeviceId : (after .readDeviceId (ext [0, 0xEF, 0x30])).hrsp = [.word 0xEF30#16] ∧
    (after .readDeviceId (ext [0, 0xC2, 0x20])).hrsp = [.word 0xC220#16] := by decide
theorem test_readDeviceId_no_poll :
    (after .readDeviceId (ext [0, 0xEF, 0x30])).trace = txn [0x9F, 0x00, 0x00] [0x00, 0xEF, 0x30] := by decide
/-- V-U1, with the poll that reads busy in a step of its own. -/
theorem test_readUniqueId :
    let s := ext ([0, 0x00] ++ zeros 5 ++ [1, 2, 3, 4, 5, 6, 7, 8])
    (after .readUniqueId s).hrsp = [.uid [1, 2, 3, 4, 5, 6, 7, 8]] ∧
      (after .readUniqueId s).uidBuf = #v[some 1, some 2, some 3, some 4, some 5, some 6, some 7, some 8] := by decide
/-- V-U3: busy for ever, the buffer is unchanged. -/
theorem test_readUniqueId_busy :
    (after .readUniqueId (ext [0, 0xFF])).trace = txn [0x05, 0x00] [0x00, 0xFF] ∧
      (after .readUniqueId (ext [0, 0xFF])).uidBuf = Vector.replicate 8 none ∧
      (after .readUniqueId (ext [0, 0xFF])).hrsp = [] := by decide
/-- V-R1. -/
theorem test_readByte :
    (after (.readByte 0x012345#24) (ext (zeros 6 ++ [0x77]))).trace =
      poll ++ txn [0x03, 0x01, 0x23, 0x45, 0x00] [0, 0, 0, 0, 0x77] ∧
    (after (.readByte 0x012345#24) (ext (zeros 6 ++ [0x77]))).hrsp = [.byte 0x77#8] := by decide
/-- V-R2: the address counter is taken modulo CHIP_BYTES. -/
theorem test_readByte_top :
    (after (.readByte 0xFFFFFF#24) (withDev { dev with mem := [(0x0FFFFF, 0x5A#8)] } [] (zeros 8))).hrsp =
      [.byte 0x5A#8] := by decide
/-- V-S5 with three bytes. -/
theorem test_readBytes :
    (after (.readBytes 0x012345#24 3) (ext (zeros 7 ++ [1, 2, 3]))).trace =
      poll ++ txn [0x0B, 0x01, 0x23, 0x45, 0x00, 0x00, 0x00, 0x00] [0, 0, 0, 0, 0, 1, 2, 3] ∧
    (after (.readBytes 0x012345#24 3) (ext (zeros 7 ++ [1, 2, 3]))).hrsp = [.bytes [1, 2, 3]] := by decide
/-- V-R4: the read wraps at the top of the chip. -/
theorem test_readBytes_wrap :
    (after (.readBytes 0x0FFFFE#24 4)
      (withDev { dev with mem := [(0, 3#8), (1, 4#8), (0x0FFFFE, 1#8), (0x0FFFFF, 2#8)] } [] (zeros 8))).hrsp =
      [.bytes [1, 2, 3, 4]] := by decide
/-- V-SP13: `old AND value`, the operation complete at once. -/
theorem test_writeByte :
    (after (.writeByte 0x000010#24 0x5A#8) (withDev { dev with mem := [(0x10, 0xF0#8)] } [true] (zeros 8))).dev.mem =
      [(0x10, 0x50#8)] := by decide
theorem test_writeByte_trace :
    (after (.writeByte 0x0000FF#24 0x00#8) (ext (zeros 8))).trace =
      we ++ poll ++ sends [0x02, 0x00, 0x00, 0xFF, 0x00] := by decide
/-- V-S2. -/
theorem test_writeBytes :
    (after (.writeBytes 0x0000FE#24 4 [0x0A, 0x0B, 0x0C, 0x0D]) (ext (zeros 18))).trace =
      we ++ poll ++ sends [0x02, 0x00, 0x00, 0xFE, 0x0A, 0x0B] ++
        we ++ poll ++ sends [0x02, 0x00, 0x01, 0x00, 0x0C, 0x0D] ∧
    (after (.writeBytes 0x0000FE#24 4 [0x0A, 0x0B, 0x0C, 0x0D]) (ext (zeros 18))).wbAddr = none := by decide
/-- V-Q2. -/
theorem test_writeBytes_length :
    exec (.writeBytes 0 3 [0x01, 0x02]) (ext []) = .next { ext [] with refused := true } := rfl
/-- V-X1. -/
theorem test_eraseBlock4K :
    (after (.eraseBlock4K 0x001234#24) (ext (zeros 7))).trace = we ++ poll ++ sends [0x20, 0x00, 0x12, 0x34] := by decide
/-- V-X3: the aligned sector. -/
theorem test_eraseBlock4K_sector :
    (after (.eraseBlock4K 0x001FFF#24)
      (withDev { dev with mem := [(0x0FFF, 1#8), (0x1000, 2#8), (0x1FFF, 3#8), (0x2000, 4#8)] } [true] (zeros 7))).dev.mem =
      [(0x0FFF, 1#8), (0x2000, 4#8)] := by decide
/-- V-X4. -/
theorem test_eraseBlock32K :
    (after (.eraseBlock32K 0x00ABCD#24) (ext (zeros 7))).trace = we ++ poll ++ sends [0x52, 0x00, 0xAB, 0xCD] := by decide
theorem test_eraseBlock32K_block :
    (after (.eraseBlock32K 0x00ABCD#24)
      (withDev { dev with mem := [(0x7FFF, 1#8), (0x8000, 2#8), (0xFFFF, 3#8), (0x10000, 4#8)] } [true] (zeros 7))).dev.mem =
      [(0x7FFF, 1#8), (0x10000, 4#8)] := by decide
/-- V-X7. -/
theorem test_chipErase :
    (after .chipErase (withDev { dev with mem := [(0, 1#8), (0xFFFFF, 2#8)] } [true] (zeros 5))).dev.mem = [] ∧
    (after .chipErase (ext (zeros 5))).trace = we ++ poll ++ sends [0x60] := by decide
/-- V-PW01. -/
theorem test_sleep : (after .sleep (ext (zeros 3))).trace = poll ++ sends [0xB9] ∧
    (after .sleep (withDev dev [] (zeros 3))).dev.dpd = true := by decide
/-- V-PW02: in deep power-down the status read is a draw, here 0x00. -/
theorem test_wakeup : (after .wakeup (withDev { dev with dpd := true } [] (zeros 3))).trace = poll ++ sends [0xAB] ∧
    (after .wakeup (withDev { dev with dpd := true } [] (zeros 3))).dev.dpd = false := by decide
/-- V-PW04, V-PW05. -/
theorem test_end : after .endOp (ext []) =
    { ext [] with busUp := false, phase := .ended, trace := [.busEnd], hrsp := [.none] } := by decide
theorem test_end_then_refused :
    (after .readStatus (after .endOp (ext []))) = { after .endOp (ext []) with refused := true } := by decide
/-- V-S6, match. -/
theorem test_initialize_match :
    let t := after .initializeOp (fresh 0xEF30#16 (zeros 4 ++ [0xEF, 0x30] ++ zeros 5))
    t.trace = [.cfgSave, .pinOutput ⟨0⟩, .pinWrite ⟨0⟩ true] ++ poll ++ sends [0xAB] ++
        txn [0x9F, 0x00, 0x00] [0x00, 0xEF, 0x30] ++ we ++ poll ++ sends [0x01, 0x00] ∧
      t.hrsp = [.bool true] ∧ t.phase = .initialized := by decide
/-- V-S6, mismatch. -/
theorem test_initialize_mismatch :
    let t := after .initializeOp (fresh 0xEF30#16 (zeros 4 ++ [0xEF, 0x40] ++ zeros 5))
    t.trace = [.cfgSave, .pinOutput ⟨0⟩, .pinWrite ⟨0⟩ true] ++ poll ++ sends [0xAB] ++
        txn [0x9F, 0x00, 0x00] [0x00, 0xEF, 0x40] ∧
      t.hrsp = [.bool false] ∧ t.phase = .initialized := by decide
/-- V-Q1, V-PW09, V-PW10. -/
theorem test_refused : exec .reserved (ext []) = .next { ext [] with refused := true } ∧
    exec (.readByte 0) State.reset = .next { State.reset with refused := true } ∧
    exec .initializeOp { State.reset with busUp := false } = .next { State.reset with busUp := false, refused := true } :=
  ⟨rfl, rfl, rfl⟩

/-! ## Wire commands -/

theorem test_writeEnable : (after .writeEnable (withDev dev [] (zeros 1))).dev.wel = true ∧
    (after .writeEnable (ext (zeros 1))).trace = we := by decide
theorem test_statusRead : (after .statusRead (withDev busyDev [false] [0, 0xFE])).hrsp = [.byte 0xFF#8] := by decide
theorem test_statusWrite : (after (.statusWrite 0x9C#8) (withDev { dev with wel := true } [true] (zeros 2))).dev =
    { dev with statusWritten := 0x9C#8 } ∧
    (after (.statusWrite 0x9C#8) (ext (zeros 2))).trace = sends [0x01, 0x9C] := by decide
theorem test_arrayRead :
    (after (.arrayRead 0x000010#24 2) (withDev { dev with mem := [(0x10, 1#8), (0x11, 2#8)] } [] (zeros 5))).hrsp =
      [.bytes [1, 2]] := by decide
theorem test_arrayReadLowFreq :
    (after (.arrayReadLowFreq 0x000010#24 2) (withDev { dev with mem := [(0x10, 1#8), (0x11, 2#8)] } [] (zeros 4))).hrsp =
      [.bytes [1, 2]] := by decide
/-- V-SP15: the third byte wraps to the start of its page. -/
theorem test_program_wraps :
    (after (.byteOrPageProgram 0x0000FE#24 [1, 2, 3]) (withDev { dev with wel := true } [true] (zeros 7))).dev.mem =
      [(0x00, 3#8), (0xFE, 1#8), (0xFF, 2#8)] := by decide
theorem test_program_without_latch :
    (after (.byteOrPageProgram 0x0000FE#24 [1, 2, 3]) (withDev dev [true] (zeros 7))).dev = dev := by decide
theorem test_blockErase4K :
    (after (.blockErase4K 0x1FFFFF#24)
      (withDev { dev with wel := true, mem := [(0xFEFFF, 1#8), (0xFF000, 2#8)] } [true] (zeros 4))).dev.mem =
      [(0xFEFFF, 1#8)] := by decide
theorem test_blockErase32K :
    (after (.blockErase32K 0x007FFF#24)
      (withDev { dev with wel := true, mem := [(0, 1#8), (0x7FFF, 2#8), (0x8000, 3#8)] } [true] (zeros 4))).dev.mem =
      [(0x8000, 3#8)] := by decide
theorem test_chipEraseCmd :
    (after .chipEraseCmd (withDev { dev with wel := true, mem := [(0, 1#8)] } [false] (zeros 1))).dev =
      { dev with mem := [(0, 1#8)], busy := true, pending := some .eraseChip } := by decide
theorem test_jedecId : (after .jedecId (withDev dev [] (zeros 1))).hrsp = [.word 0xEF30#16] := by decide
theorem test_uniqueId : (after .uniqueId (withDev dev [] (zeros 5))).hrsp = [.uid [1, 2, 3, 4, 5, 6, 7, 8]] := by decide
theorem test_deepPowerDown : (after .deepPowerDown (withDev dev [] (zeros 1))).dev = { dev with dpd := true } := by decide
theorem test_releaseFromPowerDown :
    (after .releaseFromPowerDown (withDev { dev with dpd := true } [] (zeros 1))).dev = dev := by decide
/-- V-PW06. -/
theorem test_busBegin : step { after .endOp (ext []) with hreq := [.busBegin] } =
    .next { after .endOp (ext []) with busUp := true, phase := .initialized } := rfl
/-- R184, R213, R204 (b): after another handle's end the bus is down for this handle too. -/
theorem test_otherEnd :
    let s := { ext [] with hreq := [.otherEnd], par := { Params.default with nHandles := 2 } }
    let t := { s with hreq := [], busUp := false }
    step s = .next t ∧ exec .readStatus t = .next { t with refused := true } := ⟨rfl, rfl⟩
/-- V-H1: the second 0x06 reaches a busy device; here the draw leaves the latch clear. -/
theorem test_write_enable_while_busy :
    (after .writeEnable (withDev busyDev [false, false] (zeros 1))).dev = { busyDev with wel := false } ∧
    (after .writeEnable (withDev busyDev [true, false] (zeros 1))).dev = { busyDev with wel := true } := by decide

/-! ## Witnesses: for each obligation with hypotheses, a state and operands that meet them together -/

theorem ready_of {s : State} (h : busyOf s.pollByte = false) : s.pollsReady := h

/-- A ready device with WE_PREPOLL = true. -/
def prepolled (s : State) : State := { s with par := { s.par with wePrepoll := true } }

theorem wit_DecodeEncodeAgree : (Instr.readBytes 0xFFFFFF#24 65535).wf Params.default = true ∧
    (Instr.byteOrPageProgram 0 [0x5A]).wf Params.default = true ∧ Instr.reserved.wf Params.default = true := by decide
theorem wit_burst_256 : burstFits (zeros 256) = true := by
  have h : (zeros 256).length = 256 := List.length_replicate
  unfold burstFits; rw [h]; rfl

theorem wit_WireBytesHaveOneMeaning :
    decodeWire Params.default [0x9F#8, 0x00#8, 0x00#8] = .ok .jedecId ∧
    (0xD8#8 : Byte) ∉ [0x06#8, 0x05#8, 0x01#8, 0x0B#8, 0x03#8, 0x02#8, 0x20#8, 0x52#8, 0x60#8, 0x9F#8, 0x4B#8, 0xB9#8, 0xAB#8] := by
  decide

theorem wit_OpselTableDecodes : 65535 < 2 ^ Params.default.lenBits ∧ 0 < 2 ^ Params.default.lenBits := by decide

theorem wit_StatusParserReadsBitZero : (0xFE#8 : Byte).getLsbD 0 = (0x00#8 : Byte).getLsbD 0 ∧
    (0xFF#8 : Byte).getLsbD 0 = (0x01#8 : Byte).getLsbD 0 := by decide

/-- Every burst of V-S4, the first, the last and those after the first, and its own partition. -/
theorem wit_bursts : split 0x0000FE#24 4 ≠ [] ∧ (split 0x0000FE#24 4).tail ≠ [] ∧ 0 + 1 < (split 0x0000FE#24 4).length ∧
    1 + 1 = (split 0x0000FE#24 4).length ∧ [2, 2].sum = 4 ∧
    ∀ k (h : k < [2, 2].length), ((0x0000FE#24).toNat + ([2, 2].take k).sum) % 256 + [2, 2][k] ≤ 256 := by
  decide

theorem wit_SelectChecksThenWrites :
    (∃ s req ms g p, State.fault s = none ∧ s.ctl = .active req (.sel :: ms) g p ∧ s.csDir ≠ .output) ∧
    (∃ s req ms g p, State.fault s = none ∧ s.ctl = .active req (.sel :: ms) g p ∧ s.csDir = .output ∧
      s.csLevel = some false) ∧
    (∃ s req ms g p, State.fault s = none ∧ s.ctl = .active req (.sel :: ms) g p ∧ s.csDir = .output ∧
      s.csLevel = none) ∧
    (∃ s req ms g p, State.fault s = none ∧ s.ctl = .active req (.sel :: ms) g p ∧ s.csDir = .output ∧
      s.csLevel = some true) :=
  ⟨⟨atPosition State.reset .sel, _, _, _, _, by decide, rfl, by decide⟩,
    ⟨atPosition { ext [] with csLevel := some false } .sel, _, _, _, _, by decide, rfl, by decide, by decide⟩,
    ⟨atPosition { ext [] with csLevel := none } .sel, _, _, _, _, by decide, rfl, by decide, by decide⟩,
    ⟨atPosition (ext []) .sel, _, _, _, _, by decide, rfl, by decide, by decide⟩⟩

theorem wit_UnselectChecksThenWrites :
    (∃ s req ms g p, State.fault s = none ∧ s.ctl = .active req (.unsel :: ms) g p ∧ s.csLevel ≠ some false) ∧
    (∃ s req ms g p, State.fault s = none ∧ s.ctl = .active req (.unsel :: ms) g p ∧ s.csLevel = some false ∧
      s.savedCfg = none) ∧
    (∃ s req ms g p c, State.fault s = none ∧ s.ctl = .active req (.unsel :: ms) g p ∧ s.csLevel = some false ∧
      s.savedCfg = some c) :=
  ⟨⟨atPosition (ext []) .unsel, _, _, _, _, by decide, rfl, by decide⟩,
    ⟨atPosition { ext [] with csLevel := some false } .unsel, _, _, _, _, by decide, rfl, by decide, by decide⟩,
    ⟨atPosition { ext [] with csLevel := some false, savedCfg := some ⟨0⟩ } .unsel, _, _, _, _, ⟨0⟩, by decide, rfl,
      by decide, by decide⟩⟩

theorem wit_XferChecksThenAppends :
    (∃ s req b ms g p, State.fault s = none ∧ s.ctl = .active req (.tx b :: ms) g p ∧ s.csLevel ≠ some false) ∧
    (∃ s req b ms g p r rest, State.fault s = none ∧ s.ctl = .active req (.tx b :: ms) g p ∧ s.csLevel = some false ∧
      s.dev.model = .external ∧ s.miso = r :: rest) :=
  ⟨⟨atPosition (ext []) (.tx 0x05#8), _, _, _, _, _, by decide, rfl, by decide⟩,
    ⟨atPosition { ext [0x12#8] with csLevel := some false } (.tx 0x9F#8), _, _, _, _, _, 0x12#8, [], by decide, rfl,
      by decide, by decide, by decide⟩⟩

/-- The clauses of an undefined value: the splitter registers and `uid_buf` are ⊥ from construction on. -/
theorem wit_XferChecksThenAppends_undefined :
    let s m := atPosition (ext []) m
    (∀ m, (s m).fault = none ∧ (s m).ctl = .active .readStatus [m] [] none ∧ (s m).wbAddr = none ∧ (s m).wbOff = none) ∧
      (s (.ret .uid)).uidBuf[(0 : Fin 8)] = none := ⟨fun _ => ⟨rfl, rfl, rfl, rfl⟩, by decide⟩

theorem wit_ScriptedTransaction : (ext [1, 2, 3]).dev.model = .external ∧ ([1, 2] : List Byte).length = [0x01#8, 0x00#8].length ∧
    (ext [1, 2, 3]).miso = [1, 2] ++ [3] := by decide

theorem wit_StatusOperationsReadOnce : (ext (zeros 2)).operational := by decide

theorem wit_ReadDeviceId : (ext [0, 0xEF, 0x30]).operational ∧
    (ext [0, 0xEF, 0x30]).heardIn [0x9F#8, (ext [0, 0xEF, 0x30]).par.fillByte, (ext [0, 0xEF, 0x30]).par.fillByte] =
      [0, 0xEF, 0x30] := by decide

theorem wit_ReadUniqueId :
    let s := ext (zeros 7 ++ [1, 2, 3, 4, 5, 6, 7, 8])
    s.operational ∧ s.pollsReady ∧
      (s.polled.heardIn (0x4B#8 :: List.replicate 12 s.par.fillByte)).drop 5 =
        (#v[1, 2, 3, 4, 5, 6, 7, 8] : Vector Byte 8).toList :=
  ⟨by decide, ready_of (by decide), by decide⟩

theorem wit_ReadByte :
    let s := ext (zeros 6 ++ [0x77])
    s.operational ∧ s.pollsReady ∧
      (s.polled.heardIn (0x03#8 :: addrBytes 0x012345#24 ++ [s.par.fillByte])).getLast? = some 0x77#8 :=
  ⟨by decide, ready_of (by decide), by decide⟩

theorem wit_ReadBytes : (ext (zeros 7)).operational ∧ (ext (zeros 7)).pollsReady := ⟨by decide, ready_of (by decide)⟩

theorem wit_mutating : (ext (zeros 9)).operational ∧ (ext (zeros 9)).mutatingReady :=
  ⟨by decide, fun h => absurd h (by decide), ready_of (by decide)⟩
theorem wit_mutating_prepolled : (prepolled (ext (zeros 9))).operational ∧ (prepolled (ext (zeros 9))).mutatingReady :=
  ⟨by decide, fun _ => ready_of (by decide), ready_of (by decide)⟩

/-- Two bursts, and none. -/
theorem wit_WriteBytesSendsExactlySplit : (ext (zeros 18)).operational ∧
    (ext (zeros 18)).burstsReady [0x0A, 0x0B, 0x0C, 0x0D] (split 0x0000FE#24 4) ∧ (ext []).burstsReady [] (split 0 0) :=
  ⟨by decide, ⟨⟨fun h => absurd h (by decide), ready_of (by decide)⟩, ⟨fun h => absurd h (by decide), ready_of (by decide)⟩,
    trivial⟩, trivial⟩

theorem wit_EndReleasesTheBus : (ext []).fault = none ∧ (ext []).ctl = .idle ∧ (ext []).busUp = true ∧
    (ext []).phase = .initialized := by decide

/-- At the first poll, and after one busy poll of each ready-wait. -/
theorem wit_InitializeWithoutProbe :
    (let s := fresh 0 (zeros 9);
      s.admitsInitialize ∧ s.expectedId = 0 ∧ (initializeEntered s).pollsReady ∧ (initializeAwake s).mutatingReady) ∧
    (let s := fresh 0 [0, 1, 0, 0, 0, 0, 0, 1, 0, 0];
      s.admitsInitialize ∧ s.expectedId = 0 ∧ (initializeEntered s).waits 1 ∧
        (initializeAwakeAfter s 1).mutatingWaits (0, 1)) :=
  ⟨⟨by decide, by decide, ready_of (by decide), fun h => absurd h (by decide), ready_of (by decide)⟩,
    by decide, by decide, ⟨by decide, by decide⟩, fun h => absurd h (by decide), by decide, by decide⟩

theorem wit_InitializeWithProbe_match :
    (let s := fresh 0xEF30#16 (zeros 4 ++ [0xEF, 0x30] ++ zeros 5);
      let jedec := [0x9F#8, s.par.fillByte, s.par.fillByte];
      s.admitsInitialize ∧ s.expectedId ≠ 0 ∧ (initializeEntered s).pollsReady ∧
        (initializeAwake s).heardIn jedec = [0, 0xEF, 0x30] ∧ 256 * (0xEF#8).toNat + (0x30#8).toNat = s.expectedId.toNat ∧
        ((initializeAwake s).transacted jedec).mutatingReady) ∧
    (let s := fresh 0xEF30#16 ([0, 1, 0, 0, 0, 0, 0xEF, 0x30] ++ [0, 0, 1, 0, 0]);
      let jedec := [0x9F#8, s.par.fillByte, s.par.fillByte];
      s.admitsInitialize ∧ s.expectedId ≠ 0 ∧ (initializeEntered s).waits 1 ∧
        (initializeAwakeAfter s 1).heardIn jedec = [0, 0xEF, 0x30] ∧
        256 * (0xEF#8).toNat + (0x30#8).toNat = s.expectedId.toNat ∧
        ((initializeAwakeAfter s 1).transacted jedec).mutatingWaits (0, 1)) :=
  ⟨⟨by decide, by decide, ready_of (by decide), by decide, by decide, fun h => absurd h (by decide), ready_of (by decide)⟩,
    by decide, by decide, ⟨by decide, by decide⟩, by decide, by decide, fun h => absurd h (by decide), by decide, by decide⟩

theorem wit_InitializeWithProbe_mismatch :
    let s := fresh 0xEF30#16 (zeros 4 ++ [0xEF, 0x40])
    s.admitsInitialize ∧ s.expectedId ≠ 0 ∧ (initializeEntered s).pollsReady ∧ (initializeEntered s).waits 0 ∧
      (initializeAwake s).heardIn [0x9F#8, s.par.fillByte, s.par.fillByte] = [0, 0xEF, 0x40] ∧
      (initializeAwakeAfter s 0).heardIn [0x9F#8, s.par.fillByte, s.par.fillByte] = [0, 0xEF, 0x40] ∧
      256 * (0xEF#8).toNat + (0x40#8).toNat ≠ s.expectedId.toNat :=
  ⟨by decide, by decide, ready_of (by decide), ⟨by decide, by decide⟩, by decide, by decide, by decide⟩

theorem wit_RefusedRequests :
    (hostLayer .readStatus = true ∧ (atPosition (ext []) .sel).fault = none ∧
      (atPosition (ext []) .sel).ctl = .active .readStatus [.sel] [] none) ∧
    ({ ext [] with busUp := false } : State).busUp = false ∧
    (State.reset.phase = .constructed ∧ (Instr.readByte 0) ≠ .initializeOp) ∧
    ({ ext [] with phase := .ended } : State).phase = .ended ∧
    hostLayer .reserved = true ∧ ([0x01, 0x02] : List Byte).length ≠ 3 := by decide

theorem wit_BusyPollSuspendsTheRequest :
    ((ext [0, 0x01]).operational ∧ busyOf (ext [0, 0x01]).pollByte = true) ∧
    ((fresh 0 [0, 0x01]).admitsInitialize ∧ busyOf (initializeEntered (fresh 0 [0, 0x01])).pollByte = true) ∧
    (let s := ext ([0, 1, 0, 0] ++ zeros 5 ++ [1, 2, 3, 4, 5, 6, 7, 8]);
      s.operational ∧ s.waits 1 ∧
        ((s.waited 1).heardIn (0x4B#8 :: List.replicate 12 s.par.fillByte)).drop 5 =
          (#v[1, 2, 3, 4, 5, 6, 7, 8] : Vector Byte 8).toList ∧
        ((s.waited 1).heardIn (0x03#8 :: addrBytes 0x012345#24 ++ [s.par.fillByte])).getLast? = some 0#8) :=
  ⟨by decide, by decide, by decide, ⟨by decide, by decide⟩, by decide, by decide⟩

/-- A busy poll behind the write-enable, with and without WE_PREPOLL, and before it; then finitely many of each, over the
two bursts of V-S2. -/
theorem wit_BusyPollSuspendsTheMutatingRequest :
    ((ext [0, 0, 0x01]).operational ∧ (ext [0, 0, 0x01]).prepollReady ∧
      busyOf (ext [0, 0, 0x01]).writeEnabled.pollByte = true) ∧
    (let s := prepolled (ext [0, 0, 0, 0, 0x01]);
      s.operational ∧ s.prepollReady ∧ busyOf s.writeEnabled.pollByte = true) ∧
    (let s := prepolled (ext [0, 0x01]);
      s.operational ∧ s.par.wePrepoll = true ∧ busyOf s.pollByte = true) ∧
    (let s := prepolled (ext [0, 1, 0, 0, 0, 0, 1, 0, 0]);
      s.operational ∧ s.mutatingWaits (1, 1)) ∧
    (let s := ext ([0, 0, 1, 0, 0] ++ zeros 16);
      s.operational ∧ s.burstsWait [0x0A, 0x0B, 0x0C, 0x0D] (split 0x0000FE#24 4) [(0, 1), (0, 0)]) :=
  ⟨⟨by decide, fun h => absurd h (by decide), by decide⟩, ⟨by decide, fun _ => ready_of (by decide), by decide⟩, by decide,
    ⟨by decide, fun _ => ⟨by decide, by decide⟩, by decide, by decide⟩,
    by decide, ⟨fun h => absurd h (by decide), by decide, by decide⟩, ⟨fun h => absurd h (by decide), by decide, by decide⟩,
    trivial⟩

/-- The same of initialize's unprotect. -/
theorem wit_BusyPollSuspendsTheMutatingRequest_initialize :
    (let s := fresh 0 [0, 0, 0, 0, 0, 1];
      s.admitsInitialize ∧ s.expectedId = 0 ∧ (initializeEntered s).pollsReady ∧ (initializeAwake s).prepollReady ∧
        busyOf (initializeAwake s).writeEnabled.pollByte = true) ∧
    (let s := prepolled (fresh 0 [0, 0, 0, 0, 1]);
      s.admitsInitialize ∧ s.expectedId = 0 ∧ (initializeEntered s).pollsReady ∧ s.par.wePrepoll = true ∧
        busyOf (initializeAwake s).pollByte = true) :=
  ⟨⟨by decide, by decide, ready_of (by decide), fun h => absurd h (by decide), by decide⟩,
    by decide, by decide, ready_of (by decide), by decide, by decide⟩

/-- A poll that reads busy, one that reads ready, and a device at work whose turn is its own step, or not. -/
theorem wit_SuspendedRequestPollsAgain :
    (let s (b : Byte) := atPosition (ext [0, b]) .waitAgain;
      (s 0x01).fault = none ∧ (s 0x01).ctl = .active .readStatus [.waitAgain] [] none ∧ (s 0x01).csDir = .output ∧
        (s 0x01).csLevel = some true ∧ (s 0x01).completes = false ∧ busyOf (s 0x01).drawn.pollByte = true ∧
        busyOf (s 0xFE).pollByte = false) ∧
    (let s c := atPosition (withDev busyDev [c, false] (zeros 2)) .waitAgain;
      (∀ c, (s c).fault = none ∧ (s c).ctl = .active .readStatus [.waitAgain] [] none ∧ (s c).csDir = .output ∧
        (s c).csLevel = some true) ∧
        (s true).completes = true ∧ (s false).completes = false ∧ busyOf (s false).drawn.pollByte = true) := by decide

theorem wit_FaultedStateTakesNoStep : ({ ext [] with fault := some .nestedSelect } : State).fault = some .nestedSelect ∧
    Instr.readStatus.wf (ext []).par = true := by decide

theorem wit_WireCommands : (ext (zeros 8)).atRest ∧ 1 ≤ (zeros 1).length ∧ (zeros 1).length ≤ 256 := by decide
theorem wit_WireCommands_256 : 1 ≤ (zeros 256).length ∧ (zeros 256).length ≤ 256 := by
  rw [zeros, List.length_replicate]; decide

theorem wit_WireReads :
    let s := ext (zeros 5 ++ [1, 2, 3, 4, 5, 6, 7, 8])
    s.atRest ∧ s.heardIn [0x9F#8, s.par.fillByte, s.par.fillByte] = [0, 0, 0] ∧
      (s.heardIn (0x4B#8 :: List.replicate 12 s.par.fillByte)).drop 5 =
        (#v[1, 2, 3, 4, 5, 6, 7, 8] : Vector Byte 8).toList := by decide

theorem wit_MisusedLineFaults :
    hostLayer .writeEnable = false ∧ State.reset.fault = none ∧ State.reset.ctl = .idle ∧
      Instr.writeEnable.wf State.reset.par = true ∧ State.reset.csDir ≠ .output ∧
      ({ ext [] with csLevel := some false } : State).csDir = .output ∧
      ({ ext [] with csLevel := some false } : State).csLevel = some false ∧
      (Instr.byteOrPageProgram 0 []).wf State.reset.par = false := by decide

theorem wit_deviceReady : (withDev dev [] (zeros 8)).deviceReady := by decide
/-- A ready and a busy device; at work in every phase, with the bus up and down, idle and suspended, and each draw; no
device at work. -/
theorem wit_BusyUntilTheDeviceCompletes :
    ((withDev dev [] []).dev.model = .reference ∧ (withDev dev [] []).dev.dpd = false ∧
      (withDev busyDev [] []).dev.model = .reference ∧ (withDev busyDev [] []).dev.dpd = false) ∧
    (∀ c, ∀ ph ∈ [Phase.constructed, .initialized, .ended], ∀ up, ∀ ctl ∈ [Ctl.idle, .active .sleep [.waitAgain] [] none],
      let s := { withDev busyDev [c] [] with phase := ph, busUp := up, ctl := ctl }
      s.dev.model = .reference ∧ s.dev.pending = some (.program 0x000010#24 [0x5A#8]) ∧ s.fault = none ∧
        s.settled = true ∧ s.choices = c :: [] ∧ s.completes = c) ∧
    (ext []).dev.model = .external ∧ (withDev dev [] []).dev.pending = none := by decide
theorem wit_MutatingCommands : (withDev { dev with wel := true } [] []).deviceReady ∧ (withDev dev [] []).deviceReady ∧
    (withDev { dev with wel := true } [] []).dev.wel = true ∧ (withDev dev [] []).dev.wel = false := by decide
theorem wit_PowerDown : (withDev { dev with dpd := true } [] []).dev.model = .reference ∧
    (withDev { dev with dpd := true } [] []).dev.busy = false ∧ (withDev { dev with dpd := true } [] []).dev.pending = none := by
  decide
theorem wit_WriteEnableWhileBusy :
    let s := withDev busyDev [true, false] []
    s.dev.model = .reference ∧ s.dev.busy = true ∧ s.dev.pending.isSome = true ∧ s.choices = true :: false :: [] := by decide
theorem wit_ProgramAndsIntoItsPage : Memory.wf [(0x10, 0xF0#8)] ∧ ([0x5A] : List Byte).length ≤ 256 := by decide
theorem wit_EraseSetsItsUnit : Memory.wf [(0x0FFF, 1#8), (0x1000, 2#8), (0x1FFF, 3#8), (0x2000, 4#8)] := by decide

theorem wit_wf : (withDev { dev with mem := [(0x10, 0xF0#8)] } [true] (zeros 8)).wf :=
  ⟨by decide, by decide, by decide, rfl⟩
theorem wit_OnReadyDevice : (withDev { dev with mem := [(0x10, 0xF0#8)] } [true] (zeros 8)).operational ∧
    (withDev { dev with mem := [(0x10, 0xF0#8)] } [true] (zeros 8)).deviceReady := by decide

/-- V-S2 on an erased device, both bursts completing at once. -/
theorem wit_ReadBackAfterWrite :
    let s := withDev dev [true, true] (zeros 40)
    s.operational ∧ s.deviceReady ∧ s.wf ∧ (0x0000FE#24).toNat + 4 ≤ s.par.chipBytes ∧
      (∀ i, i < 4 → Memory.read s.dev.mem ((0x0000FE#24).toNat + i) = 0xFF#8) ∧
      s.choices = List.replicate (split 0x0000FE#24 4).length true ++ [] :=
  ⟨by decide, by decide, ⟨by decide, by decide, by decide, rfl⟩, by decide, by decide, by decide⟩

/-- The same with WE_PREPOLL, each burst completing only after one busy poll: the first before the second burst, the
second in the ready-wait of readBytes, or in a turn of the device before it. -/
theorem wit_ReadBackWithPrepoll :
    let s := prepolled (withDev dev [false, true, false, true] (zeros 60))
    let data := [0x0A#8, 0x0B#8, 0x0C#8, 0x0D#8]
    let t := s.burstedAfter data (split 0x0000FE#24 4) [(0, 0), (1, 0)]
    s.operational ∧ s.deviceReady ∧ s.wf ∧ s.par.wePrepoll = true ∧ (0x0000FE#24).toNat + 4 ≤ s.par.chipBytes ∧
      (∀ i, i < 4 → Memory.read s.dev.mem ((0x0000FE#24).toNat + i) = 0xFF#8) ∧
      s.burstsWait data (split 0x0000FE#24 4) [(0, 0), (1, 0)] ∧
      (let u := State.respond { t with wbAddr := none, wbOff := none, wbRem := none, wbLimit := none } .none;
        State.waits (State.turned^[0] u) 1 ∧ State.waits (State.turned^[1] u) 0) :=
  ⟨by decide, by decide, ⟨by decide, by decide, by decide, rfl⟩, by decide, by decide, by decide,
    ⟨⟨fun _ => ⟨by decide, by decide⟩, by decide, by decide⟩, ⟨fun _ => ⟨by decide, by decide⟩, by decide, by decide⟩,
      trivial⟩,
    ⟨by decide, by decide⟩, by decide, by decide⟩

theorem wit_InstructionFrame : ∃ t, exec .readStatus (ext (zeros 2)) = .next t := ⟨_, rfl⟩
/-- A request that answers at once, one that goes on after a busy poll, and writeBytes. -/
theorem wit_ArrayFrame :
    ((withDev dev [] (zeros 2)).dev.pending = none ∧ ∃ u, Reaches .readStatus (withDev dev [] (zeros 2)) u) ∧
    ((fresh 0 [0, 1, 0, 0]).dev.pending = none ∧ ∃ t u, exec .initializeOp (fresh 0 [0, 1, 0, 0]) = .next t ∧
      t.ctl ≠ .idle ∧ step t = .next u ∧ Reaches .initializeOp (fresh 0 [0, 1, 0, 0]) u) ∧
    (let s := withDev dev [false] (zeros 8);
      s.operational ∧ s.wf ∧ s.dev.pending = none ∧ ∃ u, Reaches (.writeBytes 0x000010#24 1 [0x5A]) s u) := by
  have hc : (after .initializeOp (fresh 0 [0, 1, 0, 0])).ctl ≠ .idle := by decide
  exact ⟨⟨rfl, _, _, rfl, .here _⟩, ⟨rfl, _, _, rfl, hc, rfl, _, rfl, .further hc rfl (.here _)⟩,
    by decide, ⟨by decide, by decide, by decide, rfl⟩, rfl, _, _, rfl, .here _⟩

theorem wit_InstructionsSettle : (ext (zeros 2)).fault = none ∧ ∃ t, exec .readStatus (ext (zeros 2)) = .next t :=
  ⟨rfl, _, rfl⟩

/-- With no device at work; and one at work whose turn is its own step, or not. -/
theorem wit_StepRunsTheDecodedInstruction :
    (let s e := { ext (zeros 2) with hreq := [HostMove.issue e] };
      (∀ e, (s e).fault = none ∧ (s e).ctl = .idle ∧ (s e).hreq = .issue e :: [] ∧ (s e).completes = false) ∧
        decode Params.default (.request ⟨0x0#4, 0, 0, 0, []⟩) = .ok .readStatus ∧
        decode Params.default (.request ⟨0x5#4, 0, 65536, 0, []⟩) = .error .lenTooWide ∧
        decode Params.default (.wire [0xD8#8]) = .error .unknownOpcode) ∧
    (let s c := { withDev busyDev [c] (zeros 2) with hreq := [HostMove.issue (.request ⟨0x0#4, 0, 0, 0, []⟩)] };
      ∀ c, (s c).fault = none ∧ (s c).ctl = .idle ∧ (s c).completes = c) :=
  ⟨⟨fun _ => ⟨rfl, rfl, rfl, rfl⟩, by decide, by decide, by decide⟩, by decide⟩

theorem wit_BusBeginReopensTheBus :
    (let s := { after .endOp (ext []) with hreq := [HostMove.busBegin] };
      s.fault = none ∧ s.ctl = .idle ∧ s.hreq = [.busBegin] ∧ s.completes = false) ∧
    (let s := { after .endOp (withDev busyDev [true] []) with hreq := [HostMove.busBegin] };
      s.fault = none ∧ s.ctl = .idle ∧ s.hreq = [.busBegin] ∧ s.completes = true) := by decide

/-- Each move, with another handle and without one, with the shared bus up and down, and behind a turn of the device. -/
theorem wit_HostMovesBetweenRequests :
    (∀ m, ({ ext [] with hreq := [m] } : State).fault = none ∧ ({ ext [] with hreq := [m] } : State).ctl = .idle ∧
      ({ ext [] with hreq := [m] } : State).hreq = m :: [] ∧ ({ ext [] with hreq := [m] } : State).completes = false) ∧
    ((ext []).hreq = [] ∧ (ext []).par.nHandles ≤ 1 ∧
      (let s up := { ext [] with busUp := up, par := { Params.default with nHandles := 2 } };
        1 < (s true).par.nHandles ∧ (s true).busUp = true ∧ 1 < (s false).par.nHandles ∧ (s false).busUp = false)) ∧
    (∀ c, (withDev busyDev [c] []).fault = none ∧ (withDev busyDev [c] []).ctl = .idle ∧
      (withDev busyDev [c] []).completes = c) :=
  ⟨fun _ => ⟨rfl, rfl, rfl, rfl⟩, by decide, by decide⟩

theorem wit_StepKeepsWellFormed : (withDev dev [] []).wf ∧ ∃ t, step (withDev dev [] []) = .next t :=
  ⟨⟨by decide, by decide, by decide, rfl⟩, _, rfl⟩

/-! Sound states: idle, inside a transaction, suspended. -/

theorem ext_sound (miso : List Byte) : (ext miso).sound :=
  ⟨rfl, _, rfl, rfl, ⟨rfl, rfl, rfl, rfl⟩, fun _ => ⟨rfl, rfl⟩⟩

/-- A request at its start. -/
def started (i : Instr) (miso : List Byte) : State := { ext miso with ctl := .active i (progOf Params.default i) [] none }

theorem started_sound (i : Instr) (miso : List Byte) (h : hostLayer i = true) (h' : lengthAdmits i = true)
    (hi : i ≠ .initializeOp) : (started i miso).sound := by
  refine ⟨rfl, _, rfl, View.start i, ?_, progOf_safe Params.default i h h'⟩
  refine ⟨?_, by simp [View.start], trivial, fun j hj hn => by simp [View.start] at hn, ⟨rfl, rfl, rfl, rfl⟩,
    by simp [View.start], by simp [View.start], by simp [View.start]⟩
  simp only [View.start, hi, if_false]
  exact ⟨rfl, rfl, rfl⟩

/-- A request admitted, one refused, and a state inside a transaction. -/
theorem wit_StepKeepsSound :
    (let s := { ext (zeros 3) with hreq := [HostMove.issue (.request ⟨0xB#4, 0, 0, 0, []⟩)] };
      s.sound ∧ s.ownMove ∧ ∃ t, step s = .next t) ∧
    (seqStep (started .readStatus (zeros 2))).sound ∧
    (hostLayer .sleep = true ∧ ∃ t, exec .sleep (ext (zeros 3)) = .next t) ∧
    (hostLayer .reserved = true ∧ ∃ t, exec .reserved (ext []) = .next t) :=
  ⟨⟨⟨rfl, _, rfl, rfl, ⟨rfl, rfl, rfl, rfl⟩, fun _ => ⟨rfl, rfl⟩⟩, (by intro m r h; cases h), _, rfl⟩,
    seqStep_sound (started_sound .readStatus (zeros 2) rfl rfl (by decide)), ⟨rfl, _, rfl⟩, rfl, _, rfl⟩

/-- No request record, and no other handle. -/
theorem wit_SoundBlockNeverFaults :
    (let s := { ext [] with hreq := [HostMove.issue (.request ⟨0x5#4, 0, 65536, 0, []⟩)] };
      s.sound ∧ s.ownMove ∧ decode s.par (.request ⟨0x5#4, 0, 65536, 0, []⟩) = .error .lenTooWide) ∧
    (let s := { ext [] with hreq := [HostMove.otherEnd] };
      s.sound ∧ s.ownMove ∧ s.par.nHandles ≤ 1) :=
  ⟨⟨⟨rfl, _, rfl, rfl, ⟨rfl, rfl, rfl, rfl⟩, fun _ => ⟨rfl, rfl⟩⟩, (by intro m r h; cases h), by decide⟩,
    ⟨rfl, _, rfl, rfl, ⟨rfl, rfl, rfl, rfl⟩, fun _ => ⟨rfl, rfl⟩⟩, (by intro m r h; cases h), by decide⟩

theorem wit_RestingBlock_suspended :
    (after .sleep (ext [0, 0x01])).sound ∧
      (after .sleep (ext [0, 0x01])).ctl =
        .active .sleep [.waitAgain, .sel, .tx 0xB9#8, .unsel, .ret .none] [] (some 0x01#8) :=
  ⟨exec_sound (i := .sleep) (s := ext [0, 0x01]) rfl (ext_sound _) rfl, by decide⟩
theorem wit_RestingBlock_idle : (ext []).sound ∧ (ext []).ctl = .idle ∧ (ext []).phase ≠ .constructed :=
  ⟨ext_sound [], rfl, by decide⟩

/-- Sound, and at position `m` of a request. -/
def soundAt (m : Micro) : Prop := ∃ s req ms g p, State.sound s ∧ s.ctl = .active req (m :: ms) g p

/-- A sound request is sound after any number of sequencer steps. -/
theorem sound_after {s : State} (h : s.sound) : ∀ n, (seqStep^[n] s).sound
  | 0 => h
  | n + 1 => by rw [Function.iterate_succ_apply']; exact seqStep_sound (sound_after h n)

/-- Every position that exchanges a byte, and UNSELECT. -/
theorem wit_InterruptsMasked :
    soundAt (.tx 0x05#8) ∧ soundAt .rx ∧ soundAt .unsel ∧ soundAt .rxPoll ∧ soundAt (.rxUid 0) ∧
      soundAt .txWbHigh ∧ soundAt .txWbMid ∧ soundAt .txWbLow ∧ soundAt (.txBuf 0) := by
  have h := started_sound .readStatus (zeros 2) rfl rfl (by decide)
  have hu := started_sound .readUniqueId (zeros 16) rfl rfl (by decide)
  have hw := started_sound (.writeBytes 0x000010#24 1 [0x5A]) (zeros 8) rfl rfl (by decide)
  exact ⟨⟨_, _, _, _, _, sound_after h 1, rfl⟩, ⟨_, _, _, _, _, sound_after h 2, rfl⟩, ⟨_, _, _, _, _, sound_after h 3, rfl⟩,
    ⟨_, _, _, _, _, sound_after hu 3, rfl⟩, ⟨_, _, _, _, _, sound_after hu 12, rfl⟩,
    ⟨_, _, _, _, _, sound_after hw 13, rfl⟩, ⟨_, _, _, _, _, sound_after hw 14, rfl⟩,
    ⟨_, _, _, _, _, sound_after hw 15, rfl⟩, ⟨_, _, _, _, _, sound_after hw 16, rfl⟩⟩

end Sys2Proof.Tests
end

/-! PROOFS of the statements of 00_scope.md: what the step of the other agents can do (R6), the consistency that every
step keeps (R7, R50, R68, R69), the device's own step, and the step that runs a decoded instruction (R31, R90). -/

namespace Sys2Proof.Machine

/-! ## The host's move -/

/-- A form that decodes runs its instruction (R90). -/
theorem runEncoded_of_decode_ok {s : State} {e : Encoded} {i : Instr} (h : decode s.par e = .ok i) :
    runEncoded e s = exec i s := by simp [runEncoded, h]

/-- A form that does not decode is refused by the name of its layer (log 23, 29). -/
theorem runEncoded_of_decode_error {s : State} {e : Encoded} {r : Reject} (h : decode s.par e = .error r) :
    runEncoded e s = .refused .noSuchRequest ∨ runEncoded e s = .refused .noSuchTransaction := by
  cases e with
  | request q => left; simp [runEncoded, h]
  | wire mosi => right; simp [runEncoded, h]

/-- Whatever a fetched form answers next is what its instruction answers. -/
theorem runEncoded_next {s t : State} {e : Encoded} (h : runEncoded e s = .next t) :
    ∃ i, decode s.par e = .ok i ∧ exec i s = .next t := by
  rcases hd : decode s.par e with r | i
  · rcases runEncoded_of_decode_error hd with h' | h' <;> rw [h'] at h <;> cases h
  · exact ⟨i, rfl, (runEncoded_of_decode_ok hd).symm.trans h⟩

/-! ## Consistency through a step (R7, R50, R68, R69) -/

/-- Another handle's request keeps it consistent when its effect does (R133, R213). -/
theorem otherRequest_wf {s t : State} {effect : State → State} (h : s.wf) (heff : (effect s).wf)
    (he : otherRequest effect s = .next t) : t.wf := by
  unfold otherRequest at he
  split at he
  · injection he with he
    subst he
    split
    · exact heff
    · exact h
  · cases he

/-- Any move of the host keeps the device consistent: a request by its run, the others by leaving the parameters and the
device, of which consistency speaks, alone. -/
theorem hostMove_wf {m : HostMove} {s t : State} (h : s.wf) (he : hostMove m s = .next t) : t.wf := by
  cases m with
  | issue e =>
    obtain ⟨i, -, hi⟩ := runEncoded_next he
    exact exec_wf h hi
  | busBegin => cases he; exact h
  | setIe on => cases he; exact h
  | setBusCfg c => cases he; exact h
  | otherUniqueId u =>
    rw [hostMove, otherUniqueId] at he
    exact otherRequest_wf h h he
  | otherEnd =>
    rw [hostMove, otherEnd] at he
    exact otherRequest_wf h h he

/-- So does whatever the other agents do (R6). -/
theorem othersStep_wf {s t : State} (h : s.wf) (he : othersStep s = .next t) : t.wf := by
  rcases othersStep_next he with ⟨i, rfl⟩ | rfl | ⟨-, m, rest, -, hm⟩
  · exact drain_keeps (P := State.wf) (fun _ => seqStep_wf) _ _ h
  · exact h
  · exact hostMove_wf (s := { s with hreq := rest }) h hm

/-- Settles O55: a step is the device's own, or the other agents' with the device's turn drawn or not. -/
theorem stepKeepsWellFormed : Obligations.StepKeepsWellFormed := by
  unfold Obligations.StepKeepsWellFormed
  intro s t h hs
  obtain ⟨-, rfl | ho | ho⟩ := step_next hs
  · exact completed_wf h
  · exact othersStep_wf (drawn_wf h) ho
  · exact othersStep_wf h ho

/-! ## The device's own step (R6, R69) -/

/-- A reference device with an operation pending is at work (R69). -/
theorem working_of_pending_some {d : Device} {op : DevOp} (hm : d.model = .reference) (hp : d.pending = some op) :
    d.working = true := by simp [Device.working, hm, hp]

/-- An external device is never at work (R6). -/
theorem working_of_external {d : Device} (h : d.model = .external) : d.working = false := by simp [Device.working, h]

/-- `Complete` applies the pending operation (R69). -/
theorem complete_of_pending {d : Device} {op : DevOp} (p : Params) (h : d.pending = some op) :
    d.complete p =
      { d with mem := op.apply p d.mem, statusWritten := op.status d.statusWritten, busy := false, pending := none } := by
  simp [Device.complete, h]

/-- With a script, the turn of a device at work is the script's next choice (log 10). -/
theorem completes_of_choices {s : State} {c : Bool} {rest : List Bool} (hw : s.dev.working = true)
    (hc : s.choices = c :: rest) : s.completes = c := by simp [State.completes, drawChoice, hw, hc]

theorem drawn_of_choices {s : State} {c : Bool} {rest : List Bool} (hw : s.dev.working = true)
    (hc : s.choices = c :: rest) : s.drawn = { s with choices := rest, turns := s.turns + 1 } := by
  simp [State.drawn, drawChoice, hw, hc]

/-- Settles O36: the poll by the device's answer, the turn by whether the device is at work. -/
theorem busyUntilTheDeviceCompletes : Obligations.BusyUntilTheDeviceCompletes := by
  unfold Obligations.BusyUntilTheDeviceCompletes
  refine ⟨fun _ => busyOf_answer, fun s op hm hp hf hs => ?_, fun s => ⟨fun h => ?_, _, _, rfl⟩⟩
  · have hw := working_of_pending_some hm hp
    refine ⟨step_completes hf hs, ?_, fun c rest hc => ⟨completes_of_choices hw hc, drawn_of_choices hw hc⟩⟩
    rw [State.completed, complete_of_pending _ hp]
  · have hw : s.dev.working = false := h.elim working_of_external working_of_pending
    exact ⟨completes_of_not_working hw, drawn_of_not_working hw⟩

/-! ## The decoded instruction (R31, R90) -/

/-- Settles O51: behind the device's turn the step is the host's move, which runs the fetched form. -/
theorem stepRunsTheDecodedInstruction : Obligations.StepRunsTheDecodedInstruction := by
  unfold Obligations.StepRunsTheDecodedInstruction
  intro s e rest hf hi hq
  refine ⟨step_completes hf (settled_of_idle hi), fun hc => ?_⟩
  have hstep : step s = runEncoded e { s.drawn with hreq := rest } := step_move hf hi hq hc
  rw [hstep]
  exact ⟨fun _ => runEncoded_of_decode_ok (s := { s.drawn with hreq := rest }),
    fun _ => runEncoded_of_decode_error (s := { s.drawn with hreq := rest })⟩

end Sys2Proof.Machine

/-! PROOFS of the statements of 10_state.md: the values of construction (R38), the status parser (R35), the moves between
requests (R20, R25, R133), the frame of every instruction (R21-R33), settling (R31), readUniqueId (R24, R132), and what
the invariant says of a block at rest and inside a transaction (R26, R30, R36). -/

namespace Sys2Proof.Machine

/-! ## The status parser (R35) -/

/-- The parser is the parity of the status byte. -/
theorem busyOf_iff_odd (b : Byte) : busyOf b = true ↔ b.toNat % 2 = 1 := by
  rw [busyOf, ← BitVec.testBit_toNat, Nat.testBit_zero, decide_eq_true_eq]

/-- Settles O5: the parser is bit 0 by definition, and bit 0 is the parity. -/
theorem statusParserReadsBitZero : Obligations.StatusParserReadsBitZero := by
  unfold Obligations.StatusParserReadsBitZero
  exact fun b _ => ⟨busyOf_iff_odd b, id⟩

/-! ## Construction (R38, R220) -/

/-- Settles O54: `State.reset` is a construction, so the listed values are read off once. -/
theorem constructionValues : Obligations.ConstructionValues := by
  unfold Obligations.ConstructionValues
  intro listed
  have hlisted (p : Params) (pin : PinId) (eid : Word16) (c : Cfg) (ie up : Bool) (d : Device) :
      listed (State.construct p pin eid c ie up d) :=
    ⟨rfl, fun _ _ => Vector.getElem_replicate .., rfl, rfl, rfl, rfl, rfl, rfl, rfl, rfl, rfl, rfl, rfl⟩
  exact ⟨hlisted .., fun p pin eid c ie up d => ⟨rfl, rfl, rfl, rfl, rfl, hlisted p pin eid c ie up d⟩⟩

/-- The default parameters are in the ranges of R7, and the device starts with an empty array and nothing pending. -/
theorem reset_wf : State.reset.wf := ⟨by decide, by decide, by decide, rfl⟩

/-- An empty trace is between transactions, and the phase Constructed asks nothing of the line (R36). -/
theorem reset_sound : State.reset.sound :=
  ⟨rfl, _, rfl, rfl, ⟨rfl, rfl, rfl, rfl⟩, fun h => absurd rfl h⟩

/-- Settles O56: both invariants, each from the values of construction. -/
theorem resetIsWellFormedAndSound : Obligations.ResetIsWellFormedAndSound := by
  unfold Obligations.ResetIsWellFormedAndSound
  exact ⟨reset_wf, reset_sound⟩

/-! ## Moves between requests (R20, R25, R133, R184, R213) -/

/-- With more handles than one, another handle's request has its effect where the shared bus is up (R204 (b)). -/
theorem otherRequest_of_handles {s : State} (effect : State → State) (h : 1 < s.par.nHandles) :
    otherRequest effect s = .next (if s.busUp then effect s else s) := if_pos h

/-- With one handle there is no such move (R213). -/
theorem otherRequest_of_single {s : State} (effect : State → State) (h : s.par.nHandles ≤ 1) :
    otherRequest effect s = .refused .noOtherHandle := if_neg (Nat.not_lt.2 h)

/-- With the bus up, another handle's readUniqueId overwrites the shared buffer and unmasks interrupts (R26, R133). -/
theorem otherUniqueId_of_busUp {s : State} {u : Vector Byte 8} (h : 1 < s.par.nHandles) (hb : s.busUp = true) :
    otherUniqueId u s = .next { s with uidBuf := u.map some, ie := true } := by
  rw [otherUniqueId, otherRequest_of_handles _ h, if_pos hb]

/-- With the bus down it is refused, and nothing changes here (R204, log 24). -/
theorem otherUniqueId_of_busDown {s : State} {u : Vector Byte 8} (h : 1 < s.par.nHandles) (hb : s.busUp = false) :
    otherUniqueId u s = .next s := by
  rw [otherUniqueId, otherRequest_of_handles _ h, if_neg (Bool.eq_false_iff.1 hb)]

/-- Another handle's end leaves the bus down, also where it is refused because the bus is down already (R184, R204). -/
theorem otherEnd_of_handles {s : State} (h : 1 < s.par.nHandles) : otherEnd s = .next { s with busUp := false } := by
  rw [otherEnd, otherRequest_of_handles _ h]
  split
  · rfl
  · rename_i hb
    rw [← Bool.eq_false_iff.2 hb]

/-- Settles O53: behind the device's turn the step is the host's move, or rest where there is none. -/
theorem hostMovesBetweenRequests : Obligations.HostMovesBetweenRequests := by
  unfold Obligations.HostMovesBetweenRequests
  intro s rest on c u hf hi
  refine ⟨step_completes hf (settled_of_idle hi), fun hc => ?_⟩
  have hmove (m : HostMove) (hq : s.hreq = m :: rest) : step s = hostMove m { s.drawn with hreq := rest } :=
    step_move hf hi hq hc
  refine ⟨hmove _, hmove _, fun hq => ?_, fun hq => ?_, fun hq => step_idle hf hi hq hc⟩
  · rw [hmove _ hq, hostMove]
    exact ⟨fun hn hb => otherUniqueId_of_busUp hn hb, fun hn hb => otherUniqueId_of_busDown hn hb,
      fun hn => otherRequest_of_single _ hn⟩
  · rw [hmove _ hq, hostMove]
    exact ⟨fun hn => otherEnd_of_handles hn, fun hn => otherRequest_of_single _ hn⟩

/-! ## The frame of every instruction (R21, R22, R24, R28-R30, R32, R33, R53) -/

/-- Only end releases the bus (R28). -/
theorem mayReach_busEnd {i : Instr} (h : i ≠ .endOp) : mayReach i .busEnd = false := by simp [mayReach]

/-- Only `initializeOp` sets the phase going and configures the line (R27, R29). -/
theorem mayReach_setup {i : Instr} (h : i ≠ .initializeOp) :
    mayReach i .setInitialized = false ∧ mayReach i .pinOutput = false := by simp [mayReach]

/-- Only the unique-ID reads fill the buffer (R24). -/
theorem mayReach_rxUid {i : Instr} (h : i ≠ .readUniqueId) (h' : i ≠ .uniqueId) (k : Fin 8) :
    mayReach i (.rxUid k) = false := by simp [mayReach]

/-- Only writeBytes runs the splitter (R30). -/
theorem mayReach_wbClear {i : Instr} (h : ∀ a len data, i ≠ .writeBytes a len data) :
    mayReach i .wbClear = false := by simp [mayReach]

/-- An idle state is framed by itself. -/
theorem Framed.of_idle {i : Instr} {s : State} (h : s.ctl = .idle) : Framed i s s :=
  ⟨rfl, rfl, rfl, rfl, ⟨rfl, rfl, rfl, rfl⟩, fun _ => rfl, fun _ _ => rfl, fun _ => rfl, fun _ => rfl,
    fun _ => ⟨rfl, rfl, rfl, rfl⟩, ⟨[], (List.append_nil _).symm⟩, rfl, .inl ⟨h, [], (List.append_nil _).symm, by decide⟩⟩

/-- What any instruction answers next is framed by the state it ran from, `refused` set there or as it was (R204). -/
theorem exec_framed {i : Instr} {s t : State} (h : exec i s = .next t) :
    ∃ r, (s.refused = true → r = true) ∧ Framed i { s with refused := r } t := by
  obtain ⟨-, hi, ⟨rfl, -, -⟩ | ⟨rfl, -, -⟩⟩ := exec_next h
  · exact ⟨true, fun _ => rfl, .of_idle (s := s.refuse) hi⟩
  · exact ⟨s.refused, id, framed_run i s _⟩

/-- A framed run has answered at most once (R32). -/
theorem Framed.hrsp {i : Instr} {s t : State} (h : Framed i s t) : ∃ rs, t.hrsp = s.hrsp ++ rs ∧ rs.length ≤ 1 := by
  obtain ⟨-, hrs⟩ | ⟨_, _, _, _, -, hrs, -⟩ := h.next
  · exact hrs
  · exact ⟨[], by rw [hrs, List.append_nil], by decide⟩

/-- Settles O48: the frame of the run, and which instruction may reach which position. -/
theorem instructionFrame : Obligations.InstructionFrame := by
  unfold Obligations.InstructionFrame
  intro i s t h
  obtain ⟨r, hr, f⟩ := exec_framed h
  obtain ⟨hmodel, hmfr, hdevId, huid⟩ := f.dev
  exact ⟨f.par, f.csId, f.expectedId, f.hreq, hmodel, hmfr, hdevId, huid,
    fun hend => f.busUp (mayReach_busEnd hend),
    fun hend hinit => f.phase (mayReach_busEnd hend) (mayReach_setup hinit).1,
    fun hinit => f.csDir (mayReach_setup hinit).2,
    fun h1 h2 => f.uidBuf (mayReach_rxUid h1 h2 0),
    fun hw => f.splitter (mayReach_wbClear hw),
    fun hs => f.refused.trans (hr hs), f.trace, f.hrsp⟩

/-! ## Settling (R31, R112) -/

/-- Settles O50: a refused request leaves the block idle, and a program settles before its bound (log 22). -/
theorem instructionsSettle : Obligations.InstructionsSettle := by
  unfold Obligations.InstructionsSettle
  intro i s t _ h
  obtain ⟨-, hi, ⟨rfl, -, -⟩ | ⟨rfl, -, -⟩⟩ := exec_next h
  · exact settled_of_idle hi
  · exact drain_prog_settled i s s.par

/-! ## The unique ID (R24, R132) -/

/-- The program of readUniqueId: an issue of 0x4B with four dummy bytes, the eight receives and the return (R132). -/
theorem progReadUniqueId_eq (p : Params) :
    progReadUniqueId p =
      issue p 0x4B#8 false ++ ((List.replicate 4 p.fillByte).map .tx ++ (rxUidAll ++ [.unsel, .ret .uid])) := rfl

/-- Settles O17: the admitted request runs its issue, the poll reading ready, up to its return. -/
theorem readUniqueIdFillsTheBuffer : Obligations.ReadUniqueIdFillsTheBuffer := by
  unfold Obligations.ReadUniqueIdFillsTheBuffer
  intro s u ⟨⟨hf, hi, h1, h2⟩, hup, hph⟩ hp hu
  have hrun := hostRequest_next (prog := progReadUniqueId s.par) hf hi (admits_op (i := .readUniqueId) hup hph rfl rfl)
  rw [progReadUniqueId_eq, drain_issue_uid hf h1 h2 hp .readUniqueId 0x4B#8 (List.replicate 4 s.par.fillByte) rfl hu
    (by simp [fuelOf, byteCount])] at hrun
  exact hrun

/-! ## A sound block at rest (R30, R36, R104, R201) -/

/-- A trace whose scan stands between transactions has as many Sel as Unsel (R104). -/
theorem count_sel_of_closed {tr : List Event} {c : Scan} (hc : scanTrace tr = some c) (hm : c.mode = .closed) :
    tr.count .sel = tr.count .unsel := by
  rw [scanTrace_balanced tr c hc, hm]; rfl

/-- A sound block inside a request: some view agrees with it, and its next position is no fault for that view. -/
theorem State.sound.view {s : State} {req : Instr} {m : Micro} {ms : List Micro} {g : List Byte} {p : Option Byte}
    (h : s.sound) (hk : s.ctl = .active req (m :: ms) g p) (hm : ∀ k, m ≠ .ret k) :
    ∃ (c : Scan) (v w : View), scanTrace s.trace = some c ∧ v.agrees s g p c ∧ v.after req m = some w := by
  obtain ⟨-, c, hc, hs⟩ := h
  rw [hk] at hs
  obtain ⟨v, hv, hsafe⟩ := hs
  obtain ⟨w, hw, -⟩ := View.safe_cons hm hsafe
  exact ⟨c, v, w, hc, hv, hw⟩

/-- Settles O59: suspended, the view has the line high behind an UNSELECT; idle, the invariant says it. -/
theorem restingBlockIsBetweenTransactions : Obligations.RestingBlockIsBetweenTransactions := by
  unfold Obligations.RestingBlockIsBetweenTransactions
  refine fun s h => ⟨fun req ms got poll hk => ?_, fun hi => ?_⟩
  · obtain ⟨c, v, w, hc, hv, hw⟩ := h.view hk (fun _ => by simp)
    have hat := (of_ite hw).1
    simp only [Bool.and_eq_true, decide_eq_true_eq] at hat
    have hline := hv.line
    rw [hat.1] at hline
    obtain ⟨hmode, -, hlevel⟩ := hline
    obtain ⟨hie, hcfg⟩ := hv.closed hat.2
    exact ⟨count_sel_of_closed hc hmode, hlevel, hie, hcfg⟩
  · obtain ⟨-, c, hc, hs⟩ := h
    rw [hi] at hs
    obtain ⟨hmode, ⟨hA, hO, hR, hL⟩, hline⟩ := hs
    exact ⟨count_sel_of_closed hc hmode, hA, hO, hR, hL, hline⟩

/-! ## A sound block inside a transaction (R26, R100, R207) -/

/-- The line is low: just selected, or inside the transaction of an opcode. -/
def Line.selected (l : Line) : Prop := l = .fresh ∨ ∃ op, l = .low op

/-- Where the line is low, SELECT has masked interrupts and installed the block's own configuration (R100). -/
theorem Line.selected.masked {l : Line} {s : State} {c : Scan} (h : l.selected) (ha : l.agrees s c) :
    s.csLevel = some false ∧ s.ie = false ∧ s.busCfg = s.par.flashCfg := by
  obtain rfl | ⟨op, rfl⟩ := h <;> obtain ⟨-, -, hlevel, -, hie, hcfg⟩ := ha <;> exact ⟨hlevel, hie, hcfg⟩

section
variable {v w : View}

theorem View.selected_of_more (h : v.more = some w) : v.line.selected := by
  unfold View.more at h
  split at h
  · exact .inr ⟨_, by assumption⟩
  · cases h

theorem View.selected_of_send {b : Byte} (h : v.send b = some w) : v.line.selected := by
  unfold View.send at h
  split at h
  · exact .inl (by assumption)
  · exact .inr ⟨_, by assumption⟩
  · cases h

theorem View.selected_of_close (h : v.close = some w) : v.line.selected := by
  unfold View.close at h
  split at h
  · exact .inr ⟨_, by assumption⟩
  · cases h

/-- The view of a position that exchanges a byte, or of an UNSELECT, has the line low (R101, R102). -/
theorem View.selected_of_after {req : Instr} {m : Micro} (hm : m.exchanges = true ∨ m = .unsel)
    (h : v.after req m = some w) : v.line.selected := by
  have hmap {f : View → View} (h : v.more.map f = some w) : v.line.selected := by
    obtain ⟨x, hx, -⟩ := Option.map_eq_some_iff.1 h
    exact View.selected_of_more hx
  cases m with
  | unsel => exact View.selected_of_close h
  | tx b => exact View.selected_of_send h
  | txWbHigh => obtain ⟨_, _, _, -, h⟩ := of_known h; exact View.selected_of_more h
  | txWbMid => obtain ⟨_, _, _, -, h⟩ := of_known h; exact View.selected_of_more h
  | txWbLow => obtain ⟨_, _, _, -, h⟩ := of_known h; exact View.selected_of_more h
  | txBuf i => obtain ⟨_, _, _, -, h⟩ := of_known h; exact View.selected_of_more (of_ite_else h).2
  | rx => exact hmap h
  | rxUid i => exact hmap (of_ite_else h).2
  | rxPoll => exact hmap h
  | _ => simp [Micro.exchanges] at hm

end

/-- Settles O60: the view of such a position has the line low, and a low line is one that SELECT has taken. -/
theorem interruptsMaskedWhileSelected : Obligations.InterruptsMaskedWhileSelected := by
  unfold Obligations.InterruptsMaskedWhileSelected
  intro s req m ms got poll h hk hm
  obtain ⟨c, v, w, -, hv, hw⟩ := h.view hk (by rintro k rfl; simp [Micro.exchanges] at hm)
  exact (View.selected_of_after hm hw).masked hv.line

end Sys2Proof.Machine

/-! PROOFS of the statements of 20_memory.md: the address bytes (R57), what the reference device does with a whole
transaction (R69-R77), what its completed operations do to the array (R52, R72, R73), and the array's frame. -/

namespace Sys2Proof.Machine

/-! ## Address bytes (R57, R83) -/

/-- Settles O6: each byte by its own value, and the three assembled by the law of the parts. -/
theorem addressBytesAreBigEndian : Obligations.AddressBytesAreBigEndian := by
  unfold Obligations.AddressBytesAreBigEndian
  intro a
  have hhigh : a.toNat / 65536 % 256 = a.toNat / 65536 := by have := a.isLt; omega
  refine ⟨?_, addrOfBytes_parts a⟩
  simp only [addrBytes, List.map_cons, List.map_nil, addrHigh_toNat, addrMid_toNat, addrLow_toNat, hhigh]

/-! ## What the device's decoder keeps of an opcode (R68, R69) -/

/-- A byte after the opcode changes neither the opcode nor what was decided at it. -/
theorem Txn.absorb_keeps (d : Device) {t : Txn} {op : Byte} (h : t.opcode = some op) (b : Byte) :
    (t.absorb d b).opcode = some op ∧ (t.absorb d b).wel = t.wel ∧ (t.absorb d b).free = t.free := by
  simp only [Txn.absorb, h]
  split <;> exact ⟨rfl, rfl, rfl⟩

/-- Neither do the bytes of a whole transaction: the latch and the open case are those at the opcode (R69, R77). -/
theorem Txn.after_keeps (d : Device) {op : Byte} (bs : List Byte) : ∀ {t : Txn}, t.opcode = some op →
    (t.after d bs).opcode = some op ∧ (t.after d bs).wel = t.wel ∧ (t.after d bs).free = t.free := by
  induction bs with
  | nil => exact fun h => ⟨h, rfl, rfl⟩
  | cons b bs ih =>
    intro t h
    obtain ⟨hop, hwel, hfree⟩ := t.absorb_keeps d h b
    obtain ⟨hop', hwel', hfree'⟩ := ih hop
    exact ⟨hop', hwel'.trans hwel, hfree'.trans hfree⟩

/-- What the decoder holds of the opcode at the end of a transaction. -/
theorem Txn.fresh_after (d : Device) (op : Byte) (bs : List Byte) :
    (Txn.fresh.after d (op :: bs)).opcode = some op ∧ (Txn.fresh.after d (op :: bs)).wel = d.wel ∧
      (Txn.fresh.after d (op :: bs)).free = d.openCase op := Txn.after_keeps d bs (t := .opened d op) rfl

/-! ## Whole transactions to a ready device (R69, R70, R76) -/

/-- RELEASE-FROM-POWER-DOWN is no open case of a device that is not busy, asleep or awake (R76, R77). -/
theorem openCase_release {d : Device} (h : d.busy = false) : d.openCase 0xAB#8 = false := by
  simp only [Device.openCase, h]
  cases d.dpd <;> rfl

/-- With no open case and nothing pending after it, a transaction's effect is all that it leaves (R69). -/
theorem transacted_effect {s : State} {d' : Device} {op : Byte} (bs : List Byte) (hm : s.dev.model = .reference)
    (hopen : s.dev.openCase op = false)
    (he : Device.effect { s.dev with txn := none } s.par (Txn.fresh.after s.dev (op :: bs)) op = d')
    (hp : d'.pending = none) :
    (s.transacted (op :: bs)).dev = d' ∧ (s.transacted (op :: bs)).choices = s.choices := by
  obtain ⟨hop, -, hfree⟩ := Txn.fresh_after s.dev op bs
  exact transacted_quiet hm bs rfl hop (hfree.trans hopen) he hp

section
variable {s : State}

theorem txn_none_of_ready (h : s.deviceReady) : { s.dev with txn := none } = s.dev := by
  obtain ⟨-, -, -, -, htxn⟩ := h
  rw [← htxn]

/-- A known command to a ready device, by its effect, when that starts no operation. -/
theorem transacted_ready {d' : Device} {op : Byte} (h : s.deviceReady) (hk : knownOpcode op = true) (bs : List Byte)
    (he : Device.effect s.dev s.par (Txn.fresh.after s.dev (op :: bs)) op = d') (hp : d'.pending = s.dev.pending) :
    (s.transacted (op :: bs)).dev = d' ∧ (s.transacted (op :: bs)).choices = s.choices := by
  have htxn := txn_none_of_ready h
  obtain ⟨hm, hbusy, hpend, hdpd, -⟩ := h
  exact transacted_effect bs hm (openCase_ready hbusy hdpd hk) (by rw [htxn, he]) (hp.trans hpend)

/-- A command that changes no hidden state leaves a ready device as it was (R62). -/
theorem transacted_ready_keeps {op : Byte} (h : s.deviceReady) (hk : knownOpcode op = true)
    (hq : effectful op = false) (bs : List Byte) : (s.transacted (op :: bs)).dev = s.dev :=
  (transacted_ready h hk bs (effect_none hq) rfl).1

/-- A mutating command to a ready device: taken up with the latch set, without effect with it clear (R69, D21). -/
theorem tookUp_ready {op : Byte} {o : DevOp} (h : s.deviceReady) (hk : knownOpcode op = true) (hm : mutating op = true)
    (bs : List Byte) (ho : (Txn.fresh.after s.dev (op :: bs)).operation op = some o) :
    (s.dev.wel = true → tookUp s.par s.dev (s.transacted (op :: bs)).dev o) ∧
      (s.dev.wel = false → (s.transacted (op :: bs)).dev = s.dev) := by
  obtain ⟨hop, hwel, hfree⟩ := Txn.fresh_after s.dev op bs
  obtain ⟨hset, hclear⟩ := mutating_transaction h bs rfl hop hfree hwel hk hm ho
  refine ⟨fun hw => ?_, hclear⟩
  obtain ⟨tr, e⟩ := hset hw
  rw [tookUp, (Prod.mk.inj e).1]
  split
  · exact .inr rfl
  · exact .inl rfl

/-- What a ready device answers inside a known command (R70, R71, R75). -/
theorem reply_ready {op : Byte} {t : Txn} {p : Params} (h : s.deviceReady) (hk : knownOpcode op = true) (bs : List Byte)
    (ht : Txn.fresh.after s.dev (op :: bs) = t) :
    (s.selected.sent (op :: bs)).dev.reply p = s.dev.honour p t op := by
  obtain ⟨hm, hbusy, -, hdpd, -⟩ := h
  obtain ⟨hop, -, hfree⟩ := Txn.fresh_after s.dev op bs
  exact ht ▸ reply_selected bs hm rfl hop (hfree.trans (openCase_ready hbusy hdpd hk))

end

/-- Settles O35: the effect of {06} at its Unsel is the latch alone. -/
theorem writeEnableSetsTheLatch : Obligations.WriteEnableSetsTheLatch := by
  unfold Obligations.WriteEnableSetsTheLatch
  exact fun s h => transacted_ready h rfl [] rfl rfl

/-- Settles O40: {B9} of a ready device, and {AB}, which no device that is not busy takes as an open case. -/
theorem powerDownCommandsMoveTheDevice : Obligations.PowerDownCommandsMoveTheDevice := by
  unfold Obligations.PowerDownCommandsMoveTheDevice
  exact fun s => ⟨fun h => (transacted_ready h rfl [] rfl rfl).1,
    fun hm hbusy hpend => (transacted_effect [] hm (openCase_release hbusy) rfl hpend).1⟩

/-- Settles O39: each command by the operation that its bytes make (R72-R74). -/
theorem mutatingCommandsNeedTheLatch : Obligations.MutatingCommandsNeedTheLatch := by
  unfold Obligations.MutatingCommandsNeedTheLatch
  intro s a v data h hmin hmax
  have hfits : burstFits data = true := by simp [burstFits, hmin, hmax]
  simp only [List.forall_mem_cons]
  refine ⟨?status, ?program, ?sector, ?block, ?chip, by simp⟩
  case status => exact tookUp_ready h rfl rfl [v] (by rw [Txn.after_plain _ rfl]; rfl)
  case program =>
    exact tookUp_ready h rfl rfl (addrBytes a ++ data) (by rw [Txn.after_addr _ rfl]; exact if_pos hfits)
  case sector => exact tookUp_ready h rfl rfl (addrBytes a) (by rw [Txn.after_addr_only _ rfl]; rfl)
  case block => exact tookUp_ready h rfl rfl (addrBytes a) (by rw [Txn.after_addr_only _ rfl]; rfl)
  case chip => exact tookUp_ready h rfl rfl [] rfl

/-! ## The array reads (R71) -/

section
variable {d : Device} {p : Params} {t : Txn} {k : Nat}

/-- ARRAY-READ answers from the byte after its dummy on the cells from the address on. -/
theorem honour_arrayRead (h : t.count = 5 + k) :
    d.honour p t 0x0B#8 = .byte (Memory.read d.mem (cellOf p t.addr k)) := by
  simp [Device.honour, h]

/-- ARRAY-READ-LOW-FREQ answers them from the byte after its address on. -/
theorem honour_arrayReadLowFreq (h : t.count = 4 + k) :
    d.honour p t 0x03#8 = .byte (Memory.read d.mem (cellOf p t.addr k)) := by
  simp [Device.honour, h]

end

/-- Settles O37: the bytes after the header are known one by one, and neither command changes hidden state. -/
theorem arrayReadsReturnTheCells : Obligations.ArrayReadsReturnTheCells := by
  unfold Obligations.ArrayReadsReturnTheCells
  intro s a n h fast slow cells
  refine ⟨?fastCells, transacted_ready_keeps h rfl rfl _, ?slowCells, transacted_ready_keeps h rfl rfl _⟩
  case fastCells =>
    have hsplit : fast = (0x0B#8 :: (addrBytes a ++ [s.par.fillByte])) ++ List.replicate n s.par.fillByte := by
      simp [fast, List.replicate_succ]
    rw [hsplit]
    refine heard_known (0x0B#8 :: (addrBytes a ++ [s.par.fillByte])) _ _ n fun k _ => ?_
    rw [List.cons_append, List.append_assoc, reply_ready h rfl _ (Txn.after_addr s.dev rfl a _)]
    exact honour_arrayRead (by simp; omega)
  case slowCells =>
    refine heard_known (0x03#8 :: addrBytes a) _ _ n fun k _ => ?_
    rw [List.cons_append, reply_ready h rfl _ (Txn.after_addr s.dev rfl a _)]
    exact honour_arrayReadLowFreq (by simp)

/-! ## The identifiers (R75) -/

/-- UNIQUE-ID answers from the byte after its dummies on the bytes of the unique identifier. -/
theorem honour_uniqueId {d : Device} {p : Params} {t : Txn} {k : Nat} (hk : k < 8) (h : t.count = 5 + k) :
    d.honour p t 0x4B#8 = .byte d.uid[k] := by
  simp [Device.honour, h, hk]

/-- Settles O38: the identifier bytes are known one by one, and neither command changes hidden state. -/
theorem identifiersAreTheDevices : Obligations.IdentifiersAreTheDevices := by
  unfold Obligations.IdentifiersAreTheDevices
  intro s h
  refine ⟨?jedec, transacted_ready_keeps h rfl rfl _, ?uid, transacted_ready_keeps h rfl rfl _⟩
  case jedec =>
    refine heard_known [0x9F#8] (fun k => if k = 0 then s.dev.mfr else s.dev.devId) s.par.fillByte 2 fun k hk => ?_
    rw [List.singleton_append, reply_ready h rfl _ (Txn.after_plain s.dev rfl _)]
    interval_cases k <;> rfl
  case uid =>
    have huid : s.dev.uid.toList = (List.range 8).map fun k => s.dev.uid.toList.getD k 0 :=
      List.ext_getElem (by simp) fun k hk _ => by simp [show k < 8 by simpa using hk]
    rw [huid]
    refine heard_known (0x4B#8 :: List.replicate 4 s.par.fillByte) _ s.par.fillByte 8 fun k hk => ?_
    rw [List.cons_append, reply_ready h rfl _ (Txn.after_plain s.dev rfl _), honour_uniqueId hk (by simp; omega)]
    simp [hk]

/-! ## WRITE-ENABLE to a busy device (R77, R232) -/

/-- An Unsel that ends an open case with a choice to make: the script's next choice decides the effect (R77). -/
theorem unselect_open {d d1 : Device} {p : Params} {t : Txn} {op : Byte} {c : Bool} {script : List Bool}
    (hm : d.model = .reference) (ht : d.txn = some t) (ho : t.opcode = some op) (hfree : t.free = true)
    (heff : effectful op = true) (he : Device.openEffect { d with txn := none } p t op c = d1) (tr : List Event) :
    d.unselect p tr (c :: script) =
      if d1.pending.isSome then
        (if (drawChoice script tr 1).1 then d1.complete p else d1, (drawChoice script tr 1).2)
      else (d1, script) := by
  subst he
  have hneeds : d.needsChoice = true := by simp [Device.needsChoice, ht, hfree, ho, heff]
  have hclose : d.close p c = Device.openEffect { d with txn := none } p t op c := by
    simp [Device.close, ht, ho, hfree]
  simp only [Device.unselect, hm, hneeds, if_true, drawChoice, hclose]

/-- Settles O41: the first choice is the latch (R232), the second whether the pending operation completes. -/
theorem writeEnableWhileBusyIsADraw : Obligations.WriteEnableWhileBusyIsADraw := by
  unfold Obligations.WriteEnableWhileBusyIsADraw
  intro s c done rest hm hbusy hpend hc
  have hopen : s.dev.openCase 0x06#8 = true := by simp [Device.openCase, hbusy]
  obtain ⟨tr, e⟩ := transacted_dev hm [0x06#8]
  have hdrawn := unselect_open (d := { s.dev with txn := some (.opened s.dev 0x06#8) }) (p := s.par) (c := c)
    (script := done :: rest) (d1 := { s.dev with wel := c, txn := none }) hm rfl rfl hopen rfl rfl tr
  rw [if_pos hpend] at hdrawn
  rw [hc] at e
  exact Prod.mk.inj (e.trans hdrawn)

/-! ## Completed operations (R52, R72, R73) -/

/-- Settles O42: the cells of the burst, those it does not reach, and the canonical form, each by its law. -/
theorem programAndsIntoItsPage : Obligations.ProgramAndsIntoItsPage := by
  unfold Obligations.ProgramAndsIntoItsPage
  intro p a data m hm hlen page m'
  exact ⟨fun i hi => programPage_read_hit data (i := 0) i hm hi (by rw [Nat.zero_add]; exact hlen),
    fun x hx => programPage_read_other data x hm fun j _ hj => hx j (by omega),
    programPage_wf _ _ _ _ hm⟩

/-- Settles O43: each erase is the erase of its unit. -/
theorem eraseSetsItsUnit : Obligations.EraseSetsItsUnit := by
  unfold Obligations.EraseSetsItsUnit
  intro p a m x hm sector block
  have hchip := Memory.read_erase hm 0 p.chipBytes x
  simp only [Nat.zero_le, true_and, Nat.zero_add] at hchip
  exact ⟨Memory.read_erase hm _ _ x, Memory.read_erase hm _ _ x, hchip⟩

/-! ## The array's frame (R52, R62) -/

/-- Wherever the run of a command that neither programs nor erases stands, the array is as it was. -/
theorem readsOnly_mem {i : Instr} {s u : State} (h : readsOnly i = true) (hpend : s.dev.pending = none)
    (hl : Leads { s with ctl := .active i (progOf s.par i) [] none } u) : u.dev.mem = s.dev.mem := by
  have hstart : QuietRun s.dev.mem { s with ctl := .active i (progOf s.par i) [] none } :=
    ⟨⟨rfl, by simp [hpend]⟩, .inr ⟨_, _, _, _, .outside, rfl, quiet_progOf s.par i h, trivial⟩⟩
  obtain ⟨⟨hmem, -⟩, -⟩ := hl.keeps (fun _ _ => QuietRun.goes) hstart
  exact hmem

/-- Settles O49: a refused request changes no cell; an admitted one runs quietly, or inside the range of writeBytes. -/
theorem arrayFrame : Obligations.ArrayFrame := by
  unfold Obligations.ArrayFrame
  refine ⟨fun s u v a n hpend i hi hr x => ?_, fun s u a data ho hwf hpend hr x hx => ?_⟩
  · have hreads : readsOnly i = true := (List.all_eq_true (p := readsOnly)).1 (by rfl) i hi
    rcases reaches_leads hr with rfl | hl
    · rfl
    · rw [readsOnly_mem hreads hpend hl]
  · rcases reaches_leads hr with rfl | hl
    · rfl
    · obtain ⟨⟨hf, -, hdir, hlevel⟩, -, -⟩ := ho
      exact writeBytes_within hwf hf hdir hlevel hpend a data hl x fun ⟨i, hi, e⟩ => hx i hi e

end Sys2Proof.Machine

/-! PROOFS of the statements of 30_encoding.md: that the decoder and the encoder agree, each wire format said once (R82,
R90, R91), what a whole framed transaction appends and leaves (R80), and the wire commands as one transaction each. -/

namespace Sys2Proof.Machine

/-! ## The payload of each wire format decodes (R82) -/

section
variable (p : Params) (a : Addr)

/-- Positions that carry FILL_BYTE pass the decoder's check of them. -/
theorem all_fillBytes (n : Nat) : (fillBytes p n).all (· == p.fillByte) = true := by simp [fillBytes]

theorem length_fillBytes (n : Nat) : (fillBytes p n).length = n := List.length_replicate

theorem decodeFill_fillBytes (n : Nat) (i : Instr) : decodeFill p.fillByte n i (fillBytes p n) = .ok i := by
  rw [decodeFill, if_pos (length_fillBytes p n), if_pos (all_fillBytes p n)]

theorem decodeAddr_addrBytes (mk : Addr → Instr) : decodeAddr mk (addrBytes a) = .ok (mk a) := by
  simp [decodeAddr, addrBytes, addrOfBytes_parts]

theorem decodeAddrRead_addrBytes (mk : Addr → Nat → Instr) (n : Nat) :
    decodeAddrRead p.fillByte mk (addrBytes a ++ fillBytes p n) = .ok (mk a n) := by
  simp [decodeAddrRead, addrBytes, addrOfBytes_parts, all_fillBytes, length_fillBytes]

theorem decodeAddrDummyRead_addrBytes (mk : Addr → Nat → Instr) (n : Nat) :
    decodeAddrDummyRead p.fillByte mk (addrBytes a ++ fillBytes p (n + 1)) = .ok (mk a n) := by
  simp [decodeAddrDummyRead, addrBytes, addrOfBytes_parts, fillBytes, List.replicate_succ]

theorem decodeAddrData_addrBytes (mk : Addr → List Byte → Instr) {data : List Byte} (h : burstFits data = true) :
    decodeAddrData mk (addrBytes a ++ data) = .ok (mk a data) := by
  simp [decodeAddrData, addrBytes, addrOfBytes_parts, h]

end

/-! ## The decoder and the encoder agree (R81, R82, R90, R91) -/

/-- Settles O1: the opcode or the OPSEL chooses the decoder of the instruction's own format, which reads its payload
back; what a format without operands reads is closed by computation. -/
theorem decodeEncodeAgree : Obligations.DecodeEncodeAgree := by
  unfold Obligations.DecodeEncodeAgree
  intro p i h
  cases i with
  | statusRead => exact decodeFill_fillBytes p 1 _
  | jedecId => exact decodeFill_fillBytes p 2 _
  | uniqueId => exact decodeFill_fillBytes p 12 _
  | arrayRead a n => exact decodeAddrDummyRead_addrBytes p a _ n
  | arrayReadLowFreq a n => exact decodeAddrRead_addrBytes p a _ n
  | byteOrPageProgram a data => exact decodeAddrData_addrBytes a _ h
  | blockErase4K a => exact decodeAddr_addrBytes a _
  | blockErase32K a => exact decodeAddr_addrBytes a _
  | readBytes a len => exact if_pos h
  | writeBytes a len data => exact if_pos h
  | _ => rfl

/-- The thirteen opcodes (R81). -/
def wireOpcodes : List Byte :=
  [0x06#8, 0x05#8, 0x01#8, 0x0B#8, 0x03#8, 0x02#8, 0x20#8, 0x52#8, 0x60#8, 0x9F#8, 0x4B#8, 0xB9#8, 0xAB#8]

/-- A byte that is none of the thirteen opcodes is rejected by name (R86). -/
theorem decodeWire_of_not_mem (p : Params) {op : Byte} (rest : List Byte) (h : op ∉ wireOpcodes) :
    decodeWire p (op :: rest) = .error .unknownOpcode := by
  simp only [wireOpcodes, List.mem_cons, List.not_mem_nil, or_false, not_or, ← BitVec.toNat_inj, BitVec.reduceToNat] at h
  simp only [decodeWire]
  split
  case h_14 => rfl
  all_goals exact absurd ‹op.toNat = _› (by simp only [h, not_false_eq_true])

/-- What the wire decoder reads is well-formed and encodes to those bytes: by the opcode, each format's payload. -/
theorem decodeWire_ok {p : Params} {mosi : List Byte} {i : Instr} (h : decodeWire p mosi = .ok i) :
    i.wf p = true ∧ encode p i = .wire mosi := by
  rcases mosi with _ | ⟨op, rest⟩
  · cases h
  by_cases hop : op ∈ wireOpcodes
  · simp only [wireOpcodes, List.mem_cons, List.not_mem_nil, or_false] at hop
    rcases hop with rfl | rfl | rfl | rfl | rfl | rfl | rfl | rfl | rfl | rfl | rfl | rfl | rfl
    · obtain ⟨rfl, rfl⟩ := decodeNone_ok h; exact ⟨rfl, rfl⟩
    · obtain ⟨rfl, rfl⟩ := decodeFill_ok h; exact ⟨rfl, rfl⟩
    · obtain ⟨w, rfl, rfl⟩ := decodeByte_ok h; exact ⟨rfl, rfl⟩
    · obtain ⟨a, n, rfl, rfl⟩ := decodeAddrDummyRead_ok h; exact ⟨rfl, rfl⟩
    · obtain ⟨a, n, rfl, rfl⟩ := decodeAddrRead_ok h; exact ⟨rfl, rfl⟩
    · obtain ⟨a, data, rfl, hfits, rfl⟩ := decodeAddrData_ok h; exact ⟨hfits, rfl⟩
    · obtain ⟨a, rfl, rfl⟩ := decodeAddr_ok h; exact ⟨rfl, rfl⟩
    · obtain ⟨a, rfl, rfl⟩ := decodeAddr_ok h; exact ⟨rfl, rfl⟩
    · obtain ⟨rfl, rfl⟩ := decodeNone_ok h; exact ⟨rfl, rfl⟩
    · obtain ⟨rfl, rfl⟩ := decodeFill_ok h; exact ⟨rfl, rfl⟩
    · obtain ⟨rfl, rfl⟩ := decodeFill_ok h; exact ⟨rfl, rfl⟩
    · obtain ⟨rfl, rfl⟩ := decodeNone_ok h; exact ⟨rfl, rfl⟩
    · obtain ⟨rfl, rfl⟩ := decodeNone_ok h; exact ⟨rfl, rfl⟩
  · rw [decodeWire_of_not_mem p rest hop] at h
    cases h

/-- Settles O2: the inversion of the wire decoder, and its rejection of every other opcode. -/
theorem wireBytesHaveOneMeaning : Obligations.WireBytesHaveOneMeaning := by
  unfold Obligations.WireBytesHaveOneMeaning
  exact ⟨fun _ _ _ => decodeWire_ok, fun p _ rest h => decodeWire_of_not_mem p rest h⟩

/-- Settles O3: the OPSEL chooses the operation; only the two that carry a length look at it. -/
theorem opselTableDecodes : Obligations.OpselTableDecodes := by
  unfold Obligations.OpselTableDecodes
  intro p a len v d hlen r
  have hfits : lenFits p len = true := decide_eq_true hlen
  exact ⟨rfl, rfl, rfl, rfl, rfl, if_pos hfits, rfl, if_pos hfits, rfl, rfl, rfl, rfl, rfl, rfl, rfl, rfl⟩

/-- Settles O4: each byte list is the encoded form of its command. -/
theorem writtenOutTransactionsDecode : Obligations.WrittenOutTransactionsDecode := by
  unfold Obligations.WrittenOutTransactionsDecode
  have hdec {i : Instr} := decodeEncodeAgree Params.default i
  exact ⟨hdec (i := .writeEnable) rfl, hdec (i := .arrayRead 0x012345#24 2) rfl,
    hdec (i := .byteOrPageProgram 0x0000FE#24 [0x0A#8, 0x0B#8]) rfl, hdec (i := .blockErase4K 0x001234#24) rfl,
    hdec (i := .jedecId) rfl, hdec (i := .releaseFromPowerDown) rfl⟩

/-! ## A whole framed transaction (R80, R100-R102) -/

/-- Settles O13: a transaction touches the elements of its frame only, and its trace is the events in order. -/
theorem transactionFrame : Obligations.TransactionFrame := by
  unfold Obligations.TransactionFrame
  intro s mosi
  obtain ⟨tr, q, d, ch, h⟩ := transacted_eq s mosi
  have htrace := transacted_trace s mosi
  rw [h] at htrace
  change tr = _ at htrace
  subst htrace
  exact ⟨heard_length s.selected mosi, q, d, ch, h⟩

/-- At `Sel` an external device changes nothing (D15). -/
theorem select_of_external {d : Device} (h : d.model = .external) : d.select = d := by simp [Device.select, h]

/-- At `Unsel` an external device changes nothing and draws no choice (D15). -/
theorem unselect_of_external {d : Device} (h : d.model = .external) (p : Params) (tr : List Event) (script : List Bool) :
    d.unselect p tr script = (d, script) := by simp [Device.unselect, h]

/-- Settles O14: SELECT leaves the external device alone, the exchanges hear the script, and UNSELECT draws nothing. -/
theorem scriptedTransaction : Obligations.ScriptedTransaction := by
  unfold Obligations.ScriptedTransaction
  intro s mosi script rest hm hlen hmiso
  have hsel : s.selected.dev = s.dev := select_of_external hm
  obtain ⟨hheard, hsent⟩ :=
    sent_external (s := s.selected) (by rw [hsel]; exact hm) mosi script rest hlen hmiso
  refine ⟨hheard, ?_⟩
  rw [State.transacted, hsent]
  simp [State.unselected, State.selected, select_of_external hm, unselect_of_external hm]

/-! ## A wire command is one framed transaction (R80, R82; log 3) -/

theorem length_addrBytes (a : Addr) : (addrBytes a).length = 3 := rfl

section
variable {s : State} {i : Instr} {bs : List Byte}

/-- A well-formed wire command at rest runs its program (log 3). -/
theorem exec_wire (hr : s.atRest) (hl : hostLayer i = false) (hw : i.wf s.par = true) :
    exec i s = .next (drain (fuelOf i) { s with ctl := .active i (progOf s.par i) [] none }) := by
  obtain ⟨hf, hidle, -, -⟩ := hr
  rw [exec_eq, hl, hw]
  exact wireTransaction_next hf hidle

/-- A wire command that sends the bytes `bs`, receives `n` and returns: one transaction, and the response made of the
bytes received. -/
theorem exec_wire_read {n : Nat} {c : Ret} {r : Response} (hr : s.atRest) (hl : hostLayer i = false)
    (hw : i.wf s.par = true) (hprog : progOf s.par i = .sel :: (bs.map .tx ++ (rxMany n ++ [.unsel, .ret c])))
    (hresp : responseOf c ((s.heardIn (bs ++ List.replicate n s.par.fillByte)).drop bs.length) s.uidBuf.toList = some r)
    (hk : bs.length + n ≤ byteCount i + 12 := by simp +arith [byteCount, length_addrBytes]) :
    exec i s = .next ((s.transacted (bs ++ List.replicate n s.par.fillByte)).respond r) := by
  have ⟨hf, _, hdir, hlevel⟩ := hr
  rw [exec_wire hr hl hw, hprog, drain_read hf hdir hlevel i bs n c r hresp (by unfold fuelOf; omega)]

/-- A wire command that only sends: one transaction, and the response None. -/
theorem exec_wire_send (hr : s.atRest) (hl : hostLayer i = false) (hw : i.wf s.par = true)
    (hprog : progOf s.par i = .sel :: (bs.map .tx ++ [.unsel, .ret .none]))
    (hk : bs.length ≤ byteCount i + 12 := by simp +arith [byteCount, length_addrBytes]) :
    exec i s = .next ((s.transacted bs).respond .none) := by
  simpa using exec_wire_read (n := 0) (c := .none) hr hl hw hprog rfl hk

/-- A wire command that sends the bytes `bs` and receives the unique ID into its buffer (R132). -/
theorem exec_wire_uid {u : Vector Byte 8} {fs : List Byte} (hr : s.atRest) (hl : hostLayer i = false)
    (hw : i.wf s.par = true) (hprog : progOf s.par i = .sel :: (bs.map .tx ++ (rxUidAll ++ [.unsel, .ret .uid])))
    (hfs : fs = List.replicate 8 s.par.fillByte) (hu : (s.heardIn (bs ++ fs)).drop bs.length = u.toList)
    (hk : bs.length ≤ byteCount i + 12 := by simp +arith [byteCount, length_addrBytes]) :
    exec i s = .next ({ s.transacted (bs ++ fs) with uidBuf := u.map some }.respond (.uid u.toList)) := by
  have ⟨hf, _, hdir, hlevel⟩ := hr
  rw [exec_wire hr hl hw, hprog, drain_uid hf hdir hlevel i bs hfs hu (by unfold fuelOf; omega)]

end

/-- Settles O32: each is its transaction; only the program burst needs its size, STATUS-READ receives one byte. -/
theorem wireCommandsAreOneTransaction : Obligations.WireCommandsAreOneTransaction := by
  unfold Obligations.WireCommandsAreOneTransaction
  intro s v a data hr hlow hhigh
  have hfits : burstFits data = true := by simp [burstFits, hlow, hhigh]
  exact ⟨exec_wire_send (bs := [0x06#8]) hr rfl rfl rfl,
    exec_wire_read (bs := [0x05#8]) (n := 1) hr rfl rfl rfl rfl,
    exec_wire_send (bs := [0x01#8, v]) hr rfl rfl rfl,
    exec_wire_send (bs := 0x02#8 :: addrBytes a ++ data) hr rfl hfits rfl,
    exec_wire_send (bs := 0x20#8 :: addrBytes a) hr rfl rfl rfl,
    exec_wire_send (bs := 0x52#8 :: addrBytes a) hr rfl rfl rfl,
    exec_wire_send (bs := [0x60#8]) hr rfl rfl rfl,
    exec_wire_send (bs := [0xB9#8]) hr rfl rfl rfl,
    exec_wire_send (bs := [0xAB#8]) hr rfl rfl rfl⟩

/-- Settles O33: the array reads drop what they heard before the data, the identifier packs its two bytes, the unique ID
fills its buffer. -/
theorem wireReadsReturnTheirFields : Obligations.WireReadsReturnTheirFields := by
  unfold Obligations.WireReadsReturnTheirFields
  intro s a n hr fast slow jedec unique
  refine ⟨?_, ?_, fun x m d hh => ?_, fun u hu => ?_⟩
  · exact exec_wire_read (bs := 0x0B#8 :: addrBytes a ++ [s.par.fillByte]) (n := n) (c := .bytes) hr rfl rfl rfl rfl
  · exact exec_wire_read (bs := 0x03#8 :: addrBytes a) (n := n) (c := .bytes) hr rfl rfl rfl rfl
  · refine exec_wire_read (bs := [0x9F#8]) (n := 2) (c := .word) hr rfl rfl rfl ?_
    rw [show s.heardIn ([0x9F#8] ++ List.replicate 2 s.par.fillByte) = [x, m, d] from hh]
    rfl
  · exact exec_wire_uid (bs := 0x4B#8 :: List.replicate 4 s.par.fillByte) hr rfl rfl rfl rfl hu

end Sys2Proof.Machine

/-! PROOFS of the statements of 40_framing_and_issue.md: that the block's own steps keep it sound (R104, R111, R203), the
primitives' checks and writes (R100-R103), the requests that run through at once (R105, R106, R110), and those that a
busy poll suspends (R107, R108, R112). -/

namespace Sys2Proof.Machine

/-! ## Soundness through a step (R36, R104, R111, R203) -/

/-- What soundness asks of an idle block: it looks at the trace, the splitter registers, the phase and the line alone. -/
theorem sound_iff_of_idle {s : State} (hi : s.ctl = .idle) :
    s.sound ↔ s.fault = none ∧ ∃ c, scanTrace s.trace = some c ∧ c.mode = .closed ∧ RegsView.agrees .clear s ∧
      (s.phase ≠ .constructed → s.csDir = .output ∧ s.csLevel = some true) := by
  unfold State.sound
  rw [hi]
  rfl

/-- BusBegin keeps an idle block sound: it leaves Constructed alone, and Ended still has its line (R185). -/
theorem busBegun_sound {s : State} (hi : s.ctl = .idle) (h : s.sound) : s.busBegun.sound := by
  obtain ⟨hf, c, hc, hmode, hregs, hline⟩ := (sound_iff_of_idle hi).1 h
  refine (sound_iff_of_idle (s := s.busBegun) hi).2 ⟨hf, c, hc, hmode, hregs, fun hph => hline fun hcon => hph ?_⟩
  simp [State.busBegun, hcon]

/-- Soundness does not look at what the host, other drivers and other handles write between requests (R20, R25, R133,
R213). -/
theorem State.sound.between {s : State} (h : s.sound) (hi : s.ctl = .idle) (q : List HostMove) (on up : Bool) (c : Cfg)
    (u : Vector (Option Byte) 8) : State.sound { s with hreq := q, ie := on, busUp := up, busCfg := c, uidBuf := u } :=
  (sound_iff_of_idle (s := { s with hreq := q, ie := on, busUp := up, busCfg := c, uidBuf := u }) hi).2
    ((sound_iff_of_idle hi).1 h)

/-- Another handle's request has its effect or none (R204 (b), R213). -/
theorem otherRequest_next {s t : State} {effect : State → State} (he : otherRequest effect s = .next t) :
    t = effect s ∨ t = s := by
  unfold otherRequest at he
  split at he
  · injection he with he
    subst he
    split
    · exact .inl rfl
    · exact .inr rfl
  · cases he

/-- Any move of the host but a hand-built transaction keeps an idle block sound: a request by its run, the others by what
they leave alone. -/
theorem hostMove_sound {m : HostMove} {s t : State} (hi : s.ctl = .idle) (h : s.sound)
    (hm : ∀ mosi, m ≠ .issue (.wire mosi)) (he : hostMove m s = .next t) : t.sound := by
  cases m with
  | issue e =>
    cases e with
    | request r =>
      obtain ⟨i, hdec, hrun⟩ := runEncoded_next he
      exact exec_sound (decodeRequest_host hdec) h hrun
    | wire mosi => exact absurd rfl (hm mosi)
  | busBegin => cases he; exact busBegun_sound hi h
  | setIe on => cases he; exact h.between hi ..
  | setBusCfg c => cases he; exact h.between hi ..
  | otherUniqueId u =>
    rw [hostMove, otherUniqueId] at he
    obtain rfl | rfl := otherRequest_next he
    · exact h.between hi ..
    · exact h
  | otherEnd =>
    rw [hostMove, otherEnd] at he
    obtain rfl | rfl := otherRequest_next he
    · exact h.between hi ..
    · exact h

/-- So does whatever the other agents do (R6). -/
theorem othersStep_sound {s t : State} (h : s.sound) (hown : s.ownMove) (he : othersStep s = .next t) : t.sound := by
  obtain ⟨i, rfl⟩ | rfl | ⟨hi, m, rest, hq, hm⟩ := othersStep_next he
  · exact drain_keeps (P := State.sound) (fun _ => seqStep_sound) _ _ h
  · exact h
  · refine hostMove_sound (s := { s with hreq := rest }) hi (h.between hi ..) ?_ hm
    rintro mosi rfl
    exact hown mosi rest hq

/-- A step of the machine, the host's next move no hand-built transaction, keeps a sound block sound. -/
theorem step_sound {s t : State} (h : s.sound) (hown : s.ownMove) (hs : step s = .next t) : t.sound := by
  obtain ⟨-, rfl | ho | ho⟩ := step_next hs
  · exact h.turn ..
  · exact othersStep_sound (s := s.drawn) (h.turn ..) hown ho
  · exact othersStep_sound h hown ho

/-- Settles O57: the invariant through a step, through a step of the sequencer, and through the run of a host operation,
whose every sequencer step keeps it. -/
theorem stepKeepsSound : Obligations.StepKeepsSound := by
  unfold Obligations.StepKeepsSound
  refine ⟨fun _ _ => step_sound, fun _ => seqStep_sound, fun i s t hl h he => ?_⟩
  obtain rfl | ⟨hstart, rfl⟩ := exec_start_sound hl h he
  · exact .inl rfl
  · obtain ⟨n, hn⟩ := drain_iterate (fuelOf i) { s with ctl := .active i (progOf s.par i) [] none }
    exact .inr ⟨_, n, hstart, hn⟩

/-! ## The primitives' checks and writes (R100-R103, R203, R206) -/

/-- A first fault is recorded and nothing else written (R206). -/
theorem raise_of_no_fault {s : State} (hf : s.fault = none) (r : Fault) : s.raise r = { s with fault := some r } := by
  simp [State.raise, hf]

section
variable {s : State} {req : Instr} {m : Micro} {ms : List Micro} {got : List Byte} {poll : Option Byte}

/-- A step inside a request performs the position it stands at (R31). -/
theorem seqStep_of_active (hk : s.ctl = .active req (m :: ms) got poll) : seqStep s = microStep req m ms got poll s := by
  simp [seqStep, hk]

/-- A position whose primitive finds a fault raises it (R10). -/
theorem goOn_error {r : Fault} {x : Except Fault State} {c : Ctl} (hf : s.fault = none) (hx : x = .error r) :
    s.goOn c x = { s with fault := some r } := by
  rw [hx]
  exact raise_of_no_fault hf r

/-- One whose primitive succeeds goes on (R31). -/
theorem goOn_ok {t : State} {x : Except Fault State} {c : Ctl} (hx : x = .ok t) : s.goOn c x = { t with ctl := c } := by
  rw [hx]; rfl

theorem select_of_not_output (h : s.csDir ≠ .output) : select s = .error .csNotConfigured := by simp [select, h]

theorem select_of_low (h : s.csDir = .output) (hl : s.csLevel = some false) : select s = .error .nestedSelect := by
  simp [select, h, hl]

theorem select_of_undefined (h : s.csDir = .output) (hl : s.csLevel = none) : select s = .error .undefinedValue := by
  simp [select, h, hl]

theorem unselect_of_not_low (h : s.csLevel ≠ some false) : unselect s = .error .unselectWhileDeselected := by
  simp [unselect, h]

theorem unselect_of_undefined (h : s.csLevel = some false) (hc : s.savedCfg = none) :
    unselect s = .error .undefinedValue := by simp [unselect, h, hc]

theorem tx_of_not_low (b : Byte) (h : s.csLevel ≠ some false) : tx b s = .error .xferWhileDeselected := by
  simp [tx, xfer, h, Except.map]

/-- A buffer with a ⊥ entry is not wholly defined (R11). -/
theorem definedBytes_of_mem_none {l : List (Option Byte)} (h : none ∈ l) : definedBytes l = none := by
  induction l with
  | nil => cases h
  | cons o l ih =>
    cases o with
    | none => rfl
    | some b => rw [definedBytes, ih (by simpa using h)]; rfl

/-- A response made of such a buffer would carry the ⊥ (R11, R92). -/
theorem responseOf_uid_of_undefined {uid : Vector (Option Byte) 8} (h : ∃ i : Fin 8, uid[i] = none) :
    responseOf .uid got uid.toList = none := by
  obtain ⟨i, hi⟩ := h
  have hmem : none ∈ uid.toList := by
    rw [← hi]
    simp
  rw [responseOf, definedBytes_of_mem_none hmem]
  rfl

/-- A return that would carry a ⊥ raises UndefinedValue (R11, R203). -/
theorem seqStep_ret_undefined {k : Ret} (hf : s.fault = none) (hk : s.ctl = .active req (.ret k :: ms) got poll)
    (hr : responseOf k got s.uidBuf.toList = none) : seqStep s = { s with fault := some .undefinedValue } := by
  rw [seqStep_of_active hk]
  simp only [microStep, hr]
  exact raise_of_no_fault hf _

/-- With an external device and a script, an exchange hears the script's next byte and leaves the device alone (D15). -/
theorem xferred_external {r : Byte} {rest : List Byte} (hm : s.dev.model = .external) (hs : s.miso = r :: rest)
    (b : Byte) : s.xferred b = { s with trace := s.trace ++ [.xfer b r], miso := rest } :=
  (sent_external hm [b] [r] rest rfl hs).2

end

/-- Settles O10: each outcome of SELECT by its check; its writes are those of `selected`. -/
theorem selectChecksThenWrites : Obligations.SelectChecksThenWrites := by
  unfold Obligations.SelectChecksThenWrites
  intro s req ms got poll hf hk
  rw [seqStep_of_active hk]
  exact ⟨fun hd => goOn_error hf (select_of_not_output hd), fun hd hl => goOn_error hf (select_of_low hd hl),
    fun hd hl => goOn_error hf (select_of_undefined hd hl), fun hd hl => goOn_ok (select_ok hd hl)⟩

/-- Settles O11: each outcome of UNSELECT by its check; its writes are those of `unselected`. -/
theorem unselectChecksThenWrites : Obligations.UnselectChecksThenWrites := by
  unfold Obligations.UnselectChecksThenWrites
  intro s req ms got poll hf hk
  rw [seqStep_of_active hk]
  exact ⟨fun hl => goOn_error hf (unselect_of_not_low hl), fun hl hc => goOn_error hf (unselect_of_undefined hl hc),
    fun c hl hc => ⟨_, _, goOn_ok (unselect_ok hl hc)⟩⟩

/-- Settles O12: TX by its check and the exchange it appends; a ⊥ by the primitive that would send or return it. -/
theorem xferChecksThenAppends : Obligations.XferChecksThenAppends := by
  unfold Obligations.XferChecksThenAppends
  intro s req m ms got poll hf hk
  have hundef {o : Option Byte} (ho : o = none) (c : Ctl) :
      s.goOn c (txDefined o s) = { s with fault := some .undefinedValue } := goOn_error hf (by rw [ho]; rfl)
  refine ⟨?_, fun hm ha => ?_, ?_, ?_⟩
  · rintro b rfl
    rw [seqStep_of_active hk]
    refine ⟨fun hl => goOn_error hf (tx_of_not_low b hl), fun hl => ?_⟩
    have hgo : microStep req (.tx b) ms got poll s = { s.xferred b with ctl := .active req ms got poll } :=
      goOn_ok (tx_ok b hl)
    rw [hgo]
    exact ⟨⟨_, _, _, rfl⟩, fun r rest hext hs => by rw [xferred_external hext hs]⟩
  · rw [seqStep_of_active hk]
    have hmap (f : Addr → Byte) : s.wbAddr.map f = none := by rw [ha]; rfl
    simp only [List.mem_cons, List.not_mem_nil, or_false] at hm
    obtain rfl | rfl | rfl := hm <;> exact hundef (hmap _) _
  · rintro i rfl ho
    rw [seqStep_of_active hk]
    exact hundef (by simp [State.bufferByte, ho]) _
  · rintro rfl hu
    exact seqStep_ret_undefined hf hk (responseOf_uid_of_undefined hu)

/-! ## Hand-built transactions on a misused line (R100, R203, D33) -/

/-- Every wire command begins with its SELECT (R80). -/
theorem progOf_of_wire (p : Params) {i : Instr} (hl : hostLayer i = false) : ∃ ms, progOf p i = .sel :: ms := by
  cases i <;> cases hl <;> exact ⟨_, rfl⟩

/-- A wire command whose SELECT finds a fault stops in it (R203). -/
theorem exec_wire_select_error {s : State} {i : Instr} {r : Fault} (hl : hostLayer i = false) (hw : i.wf s.par = true)
    (hf : s.fault = none) (hi : s.ctl = .idle) (hsel : ∀ c, select { s with ctl := c } = .error r) :
    ∃ c, exec i s = .next { s with ctl := c, fault := some r } := by
  obtain ⟨ms, hprog⟩ := progOf_of_wire s.par hl
  have hstep : seqStep { s with ctl := .active i (.sel :: ms) [] none } =
      { s with ctl := .active i (.sel :: ms) [] none, fault := some r } :=
    goOn_error (s := { s with ctl := .active i (.sel :: ms) [] none }) hf (hsel _)
  have hrun := wireTransaction_next (i := i) (prog := progOf s.par i) hf hi
  rw [hprog, (Steps.refl _).drain_end (by rw [hstep]; rfl) (by unfold fuelOf; omega), hstep] at hrun
  refine ⟨.active i (.sel :: ms) [] none, ?_⟩
  rw [exec_eq, hl, hw, hprog]
  exact hrun

/-- Only the program burst has operands that its wire format does not allow (R72, D33). -/
theorem exec_wire_ill_formed {s : State} {i : Instr} (hl : hostLayer i = false) (hw : i.wf s.par = false) :
    exec i s = .refused .burstSizeUndefined := by
  rw [exec_eq, hl, hw]; rfl

/-- Settles O34: SELECT is the first position of every wire command, and its checks come before its writes. -/
theorem misusedLineFaults : Obligations.MisusedLineFaults := by
  unfold Obligations.MisusedLineFaults
  intro s i hl hf hi
  exact ⟨fun hw hd => exec_wire_select_error hl hw hf hi fun _ => select_of_not_output hd,
    fun hw hd hlow => exec_wire_select_error hl hw hf hi fun _ => select_of_low hd hlow,
    exec_wire_ill_formed hl⟩

/-! ## Host operations in an operational state (R105, R106, R110, R204) -/

/-- A host operation that R204 admits wherever the phase and the bus do: not OPSEL 0xF, and the buffer of its length. -/
def admissible (i : Instr) : Bool := hostLayer i && opselAdmits i && lengthAdmits i

theorem admissible_writeBytes (a : Addr) (data : List Byte) :
    admissible (.writeBytes a data.length data) = true := beq_self_eq_true data.length

section
variable {s : State} {i : Instr}

/-- An operational block runs it (R204). -/
theorem exec_operational (ho : s.operational) (ha : admissible i = true) :
    exec i s = .next (drain (fuelOf i) { s with ctl := .active i (progOf s.par i) [] none }) := by
  obtain ⟨⟨hf, hi, -, -⟩, hup, hph⟩ := ho
  simp only [admissible, Bool.and_eq_true] at ha
  obtain ⟨⟨hl, hop⟩, hlen⟩ := ha
  rw [exec_eq, if_pos hl]
  exact hostRequest_next hf hi (admits_op hup hph hop hlen)

/-- A direct status read and its return (R105). -/
theorem exec_poll {c : Ret} {r : Response} (ho : s.operational) (ha : admissible i = true)
    (hprog : progOf s.par i = [.sel, .tx 0x05#8, .rx, .unsel, .ret c])
    (hr : responseOf c [s.pollByte] s.uidBuf.toList = some r) : exec i s = .next (s.polled.respond r) := by
  have ⟨⟨hf, _, hdir, hlevel⟩, _, _⟩ := ho
  have hrun := drain_read (p := none) hf hdir hlevel i [0x05#8] 1 c r hr (by simp +arith [fuelOf])
  rw [exec_operational ho ha, hprog]
  exact congrArg _ hrun

/-- A mutating issue of known bytes whose ready-waits end at their first poll, and its return (R110). -/
theorem exec_issue_mutating {op : Byte} {bs : List Byte} (ho : s.operational) (hp : s.mutatingReady)
    (ha : admissible i = true)
    (hprog : progOf s.par i = issue s.par op true ++ (bs.map Micro.tx ++ [Micro.unsel, .ret .none]))
    (hlen : bs.length ≤ 4) : exec i s = .next ((s.mutatingIssued.transacted (op :: bs)).respond .none) := by
  have ⟨⟨hf, _, hdir, hlevel⟩, _, _⟩ := ho
  rw [exec_operational ho ha, hprog,
    drain_issue_mutating hf hdir hlevel hp i op bs .none .none rfl (by unfold fuelOf; omega)]

/-- The program of writeByte: a mutating issue of 0x02, then the address and the byte (R150). -/
theorem progOf_writeByte (p : Params) (a : Addr) (v : Byte) :
    progOf p (.writeByte a v) =
      issue p 0x02#8 true ++ ((addrBytes a ++ [v]).map Micro.tx ++ [Micro.unsel, .ret .none]) := by
  simp [progOf, progWriteByte, txAddr, addrBytes]

end

/-- Settles O15: both run one direct status read, and differ in the response they make of its byte. -/
theorem statusOperationsReadOnce : Obligations.StatusOperationsReadOnce := by
  unfold Obligations.StatusOperationsReadOnce
  exact fun s ho => ⟨exec_poll ho rfl rfl rfl, exec_poll ho rfl rfl rfl⟩

/-- Settles O20: a mutating issue of 0x02, the address and the byte, and its return. -/
theorem writeByteSendsOneBurst : Obligations.WriteByteSendsOneBurst := by
  unfold Obligations.WriteByteSendsOneBurst
  intro s a v ho hp
  exact exec_issue_mutating ho hp rfl (progOf_writeByte _ a v) le_rfl

/-! ## Requests suspended at a poll that reads busy (R107, R110, R112) -/

section
variable {s : State} {i : Instr} {ms : List Micro}

/-- The bound on one step has room for what comes before a first suspension (log 22). -/
theorem le_fuelOf (i : Instr) : 64 ≤ fuelOf i := by simp [fuelOf]

/-- A request that begins with a ready-wait is suspended at its first poll, `ms` left, when that reads busy. -/
theorem exec_suspended (ho : s.operational) (hb : busyOf s.pollByte = true) (ha : admissible i = true)
    (hprog : progOf s.par i = .wait :: ms) :
    exec i s = .next { s.polled with ctl := .active i (.waitAgain :: ms) [] (some s.pollByte) } := by
  have ⟨⟨hf, _, hdir, hlevel⟩, _, _⟩ := ho
  have hfuel := le_fuelOf i
  rw [exec_operational ho ha, hprog, (Steps.refl _).suspended hf hdir hlevel hb (by omega)]

/-- A host operation whose moves lead to an idle, unfaulted state completes there. -/
theorem completes_operational {t : State} (ho : s.operational) (ha : admissible i = true)
    (h : Runs { s with ctl := .active i (progOf s.par i) [] none } t) (hi : t.ctl = .idle) (hf : t.fault = none) :
    Completes i s t := completes_of_runs (exec_operational ho ha) h hi hf

/-- The request of a non-mutating issue with receives completes with its response once its ready-wait ends (R110). -/
theorem completes_issue_read {k : Nat} {op : Byte} {bs : List Byte} {n : Nat} {c : Ret} {r : Response}
    (ho : s.operational) (hw : s.waits k) (ha : admissible i = true)
    (hprog : progOf s.par i = issue s.par op false ++ (bs.map Micro.tx ++ (rxMany n ++ [Micro.unsel, .ret c])))
    (hr : responseOf c (((s.waited k).heardIn (op :: bs ++ List.replicate n s.par.fillByte)).drop (bs.length + 1))
      s.uidBuf.toList = some r) :
    Completes i s (((s.waited k).transacted (op :: bs ++ List.replicate n s.par.fillByte)).respond r) := by
  have ⟨⟨hf, _, hdir, hlevel⟩, _, _⟩ := ho
  have hrun := runs_issue_read (req := i) (p := none) hf hdir hlevel hw op bs n c r hr
  rw [← hprog] at hrun
  exact completes_operational ho ha hrun rfl (by simp [(touches_waited s k).fault, hf])

/-- That of a UNIQUE-ID issue completes with the eight bytes, which fill the buffer (R132). -/
theorem completes_issue_uid {k : Nat} {op : Byte} {bs fs : List Byte} {u : Vector Byte 8} (ho : s.operational)
    (hw : s.waits k) (ha : admissible i = true)
    (hprog : progOf s.par i = issue s.par op false ++ (bs.map Micro.tx ++ (rxUidAll ++ [Micro.unsel, .ret .uid])))
    (hfs : fs = List.replicate 8 s.par.fillByte)
    (hu : ((s.waited k).heardIn (op :: bs ++ fs)).drop (bs.length + 1) = u.toList) :
    Completes i s ({ (s.waited k).transacted (op :: bs ++ fs) with uidBuf := u.map some }.respond (.uid u.toList)) := by
  have ⟨⟨hf, _, hdir, hlevel⟩, _, _⟩ := ho
  have hrun := runs_issue_uid (req := i) (g := []) (p := none) hf hdir hlevel hw op bs hfs hu
  rw [← hprog] at hrun
  exact completes_operational ho ha hrun rfl (by simp [(touches_waited s k).fault, hf])

/-- A list heard of one byte more than `n` ends in that byte. -/
theorem drop_eq_of_getLast? {l : List Byte} {n : Nat} {v : Byte} (hl : l.length = n + 1) (hv : l.getLast? = some v) :
    l.drop n = [v] := by
  obtain ⟨x, hx⟩ := List.length_eq_one_iff.1 (show (l.drop n).length = 1 by simp [hl])
  have hlast := List.getLast?_drop (l := l) (i := n)
  rw [hx, if_neg (by omega), hv] at hlast
  rw [hx, ← Option.some.inj hlast]
  rfl

end

/-- Settles O28: each request, `initializeOp` among them, stands before a ready-wait that reads busy; behind the wait it
runs to its return. -/
theorem busyPollSuspendsTheRequest : Obligations.BusyPollSuspendsTheRequest := by
  unfold Obligations.BusyPollSuspendsTheRequest
  refine fun s a len => ⟨fun ho hb => ?_, fun hi hb => ?_, fun ho k hw => ?_⟩
  · simp only [List.forall_mem_cons, List.not_mem_nil, false_implies, implies_true, and_true]
    exact ⟨exec_suspended ho hb rfl rfl, exec_suspended ho hb rfl rfl, exec_suspended ho hb rfl rfl,
      exec_suspended ho hb rfl rfl, exec_suspended ho hb rfl rfl⟩
  · rw [exec_initialize hi, (steps_entered hi.1).suspended hi.1 rfl rfl hb (by decide)]
  · intro w unique slow fast
    refine ⟨fun u hu => ?_, fun v hv => ?_, ?_, ?_, ?_⟩
    · exact completes_issue_uid (bs := List.replicate 4 s.par.fillByte) ho hw rfl rfl rfl hu
    · have hdrop : (w.heardIn slow).drop 4 = [v] := drop_eq_of_getLast? (by simp [slow, State.heardIn, addrBytes]) hv
      exact completes_issue_read (bs := addrBytes a) (n := 1) (c := .byte) ho hw rfl rfl
        (congrArg (responseOf .byte · s.uidBuf.toList) hdrop)
    · exact completes_issue_read (bs := addrBytes a ++ [s.par.fillByte]) (n := len) (c := .bytes) ho hw rfl rfl rfl
    · exact completes_issue_read (bs := []) (n := 0) (c := .none) ho hw rfl rfl rfl
    · exact completes_issue_read (bs := []) (n := 0) (c := .none) ho hw rfl rfl rfl

section
variable {s : State}

/-- The requests that are one mutating issue of known bytes, each with its bytes (R150, R170-R172). -/
def mutatingRequests (a : Addr) (v : Byte) : List (Instr × List Byte) :=
  [(.writeByte a v, 0x02#8 :: addrBytes a ++ [v]), (.eraseBlock4K a, 0x20#8 :: addrBytes a),
    (.eraseBlock32K a, 0x52#8 :: addrBytes a), (.chipErase, [0x60#8])]

/-- Each is admissible, and its program issues its bytes and returns None. -/
theorem mutatingRequests_prog {a : Addr} {v : Byte} {c : Instr × List Byte} (hc : c ∈ mutatingRequests a v) (p : Params) :
    admissible c.1 = true ∧ ∃ op bs, c.2 = op :: bs ∧
      progOf p c.1 = issue p op true ++ (bs.map Micro.tx ++ [Micro.unsel, .ret .none]) := by
  simp only [mutatingRequests, List.mem_cons, List.not_mem_nil, or_false] at hc
  obtain rfl | rfl | rfl | rfl := hc
  · exact ⟨rfl, _, _, rfl, progOf_writeByte p a v⟩
  · exact ⟨rfl, _, _, rfl, by simp [progOf, progEraseBlock4K, txAddr, addrBytes]⟩
  · exact ⟨rfl, _, _, rfl, by simp [progOf, progEraseBlock32K, txAddr, addrBytes]⟩
  · exact ⟨rfl, _, [], rfl, by simp [progOf, progChipErase]⟩

/-- A request of one mutating issue completes with its transaction once its ready-waits end (R110). -/
theorem completes_mutatingRequest {a : Addr} {v : Byte} {c : Instr × List Byte} (hc : c ∈ mutatingRequests a v)
    {k : Nat × Nat} (ho : s.operational) (hw : s.mutatingWaits k) :
    Completes c.1 s (((s.mutatingAfter k).transacted c.2).respond .none) := by
  have ⟨⟨hf, _, hdir, hlevel⟩, _, _⟩ := ho
  obtain ⟨ha, op, bs, hbytes, hprog⟩ := mutatingRequests_prog hc s.par
  have hrun := runs_issue_mutating (req := c.1) (g := []) (p := none) hf hdir hlevel hw op bs .none .none rfl
  rw [← hprog, ← hbytes] at hrun
  exact completes_operational ho ha hrun rfl (by simp [(touches_mutatingAfter s k).fault, hf])

/-- What is left of the first burst of writeBytes behind its ready-wait, `n` bytes long, and of the loop (R152). -/
def firstBurstRest (n : Nat) : List Micro :=
  .sel :: .tx 0x02#8 :: .txWbHigh :: .txWbMid :: .txWbLow ::
    ((List.range n).map Micro.txBuf ++ [Micro.unsel, .wbNext n, .burst, .wbClear, .ret .none])

/-- The state of writeBytes in its loop: the splitter registers hold the operands (R152). -/
def State.splitterLoaded (s : State) (a : Addr) (len : Nat) : State :=
  s.withWb (some a) (some 0) (some len) (some (firstLimit a))

/-- writeBytes of a non-empty buffer reaches the write-enable of its first burst (R152). -/
theorem steps_firstBurst {a : Addr} {data : List Byte} (hf : s.fault = none) (hd : data ≠ []) :
    Steps 2 { s with ctl := .active (.writeBytes a data.length data) (progWriteBytes a data.length) [] none }
      { s.splitterLoaded a data.length with
        ctl := .active (.writeBytes a data.length data)
          (writeEnableTxn s.par ++ Micro.wait :: firstBurstRest (min data.length (firstLimit a))) [] none } := by
  have hbody : burstBody s.par (min data.length (firstLimit a)) ++ [.burst, .wbClear, .ret .none] =
      writeEnableTxn s.par ++ Micro.wait :: firstBurstRest (min data.length (firstLimit a)) := by
    rw [burstBody, firstBurstRest, List.append_assoc, List.append_assoc, List.append_assoc, issue_mutating]
    rfl
  have hinit : Steps 1 { s with ctl := .active (.writeBytes a data.length data) (progWriteBytes a data.length) [] none }
      { s.splitterLoaded a data.length with
        ctl := .active (.writeBytes a data.length data) [.burst, .wbClear, .ret .none] [] none } :=
    Steps.one (t := s.splitterLoaded a data.length) rfl hf rfl
  have hburst := seqStep_burst (s := s.splitterLoaded a data.length) (req := .writeBytes a data.length data)
    (ms := [.wbClear, .ret .none]) (g := []) (p := none) (limit := firstLimit a) rfl rfl
    (List.length_pos_of_ne_nil hd) rfl
  have hpar : (s.splitterLoaded a data.length).par = s.par := rfl
  rw [hpar, hbody] at hburst
  refine hinit.trans (Steps.one (t := s.splitterLoaded a data.length) hburst hf ?_)
  cases h : s.par.wePrepoll <;> simp [writeEnableTxn, h, suspends]

/-- A request of one mutating issue is suspended behind its write-enable or, with WE_PREPOLL, before it (R108, R110). -/
theorem exec_suspended_mutatingRequest {a : Addr} {v : Byte} {c : Instr × List Byte} (hc : c ∈ mutatingRequests a v)
    (ho : s.operational) :
    (s.prepollReady → busyOf s.writeEnabled.pollByte = true →
      exec c.1 s = .next { s.writeEnabled.polled with
        ctl := .active c.1 (.waitAgain :: .sel :: (c.2.map .tx ++ [.unsel, .ret .none])) []
          (some s.writeEnabled.pollByte) }) ∧
    (s.par.wePrepoll = true → busyOf s.pollByte = true →
      exec c.1 s = .next { s.polled with
        ctl := .active c.1 (.waitAgain :: .sel :: .tx 0x06#8 :: .unsel :: .wait :: .sel ::
          (c.2.map .tx ++ [.unsel, .ret .none])) [] (some s.pollByte) }) := by
  have ⟨⟨hf, _, hdir, hlevel⟩, _, _⟩ := ho
  have hfuel := le_fuelOf c.1
  obtain ⟨ha, op, bs, hbytes, hprog⟩ := mutatingRequests_prog hc s.par
  rw [issue_mutating] at hprog
  rw [exec_operational ho ha, hprog, hbytes]
  have hsusp := (Steps.refl _).suspended_mutating (req := c.1) (g := []) (q := none) (n := fuelOf c.1)
    (ms := .sel :: .tx op :: (bs.map .tx ++ [.unsel, .ret .none])) hf hdir hlevel (by omega)
  exact ⟨fun hp hb => congrArg _ (hsusp.1 hp hb), fun hp hb => congrArg _ (hsusp.2 hp hb)⟩

/-- So is writeBytes of a non-empty buffer at its first burst, its splitter registers loaded (R152). -/
theorem exec_suspended_writeBytes {a : Addr} {data : List Byte} (ho : s.operational) (hd : data ≠ []) :
    (s.prepollReady → busyOf s.writeEnabled.pollByte = true →
      exec (.writeBytes a data.length data) s = .next { s.writeEnabled.polled.splitterLoaded a data.length with
        ctl := .active (.writeBytes a data.length data)
          (.waitAgain :: firstBurstRest (min data.length (firstLimit a))) [] (some s.writeEnabled.pollByte) }) ∧
    (s.par.wePrepoll = true → busyOf s.pollByte = true →
      exec (.writeBytes a data.length data) s = .next { s.polled.splitterLoaded a data.length with
        ctl := .active (.writeBytes a data.length data)
          (.waitAgain :: .sel :: .tx 0x06#8 :: .unsel :: .wait :: firstBurstRest (min data.length (firstLimit a))) []
          (some s.pollByte) }) := by
  have ⟨⟨hf, _, hdir, hlevel⟩, _, _⟩ := ho
  have hfuel := le_fuelOf (.writeBytes a data.length data)
  have hsusp := (steps_firstBurst (a := a) hf hd).suspended_mutating (s := s.splitterLoaded a data.length)
    (n := fuelOf (.writeBytes a data.length data)) hf hdir hlevel (by omega)
  simp only [State.prepollReady, State.pollsReady, State.splitterLoaded, writeEnabled_withWb, polled_withWb,
    pollByte_withWb] at hsusp
  rw [exec_operational ho (admissible_writeBytes a data)]
  exact ⟨fun hp hb => congrArg _ (hsusp.1 hp hb), fun hp hb => congrArg _ (hsusp.2 hp hb)⟩

/-- writeBytes completes, its splitter registers ⊥, once the ready-waits of its bursts end (R152, R154). -/
theorem completes_writeBytes {a : Addr} {data : List Byte} {ks : List (Nat × Nat)} (ho : s.operational)
    (hw : s.burstsWait data (split a data.length) ks) :
    Completes (.writeBytes a data.length data) s
      (((s.burstedAfter data (split a data.length) ks).withWb none none none none).respond .none) := by
  have ⟨⟨hf, _, hdir, hlevel⟩, _, _⟩ := ho
  have hfault : (s.burstedAfter data (split a data.length) ks).fault = none :=
    (touches_burstedAfter data s (split a data.length) ks).fault.trans hf
  exact completes_operational ho (admissible_writeBytes a data) (runs_writeBytes hf hdir hlevel a data hw) rfl hfault

end

/-- The unprotect of `initializeOp` is a mutating issue of 0x01 and the byte 0x00 (R186). -/
theorem unprotectBody_eq (p : Params) :
    unprotectBody p =
      writeEnableTxn p ++ Micro.wait :: [.sel, .tx 0x01#8, .tx 0x00#8, .unsel, .ret (.bool true)] := issue_mutating ..

/-- Without an expected identifier, `initializeOp` goes from its wakeup to its unprotect (R186). -/
theorem steps_initialize_unprotect {s : State} (hf : s.fault = none) (he : s.expectedId = 0)
    (hp : (initializeEntered s).pollsReady) :
    Steps 14 { s with ctl := .active .initializeOp (progInitialize s.par) [] none }
      { initializeAwake s with
        ctl := .active .initializeOp (unprotectBody s.par) [] (some (initializeEntered s).pollByte) } := by
  obtain ⟨hfa, -, -, -, hexp⟩ := awake_keeps hf
  have hprobe := seqStep_probe_skip (s := initializeAwake s) (req := .initializeOp) (ms := unprotectBody s.par) (g := [])
    (q := some (initializeEntered s).pollByte) (hexp.trans he)
  exact (steps_awake hf hp).trans (Steps.one (t := initializeAwake s) hprobe hfa (suspends_unprotect s.par))

/-- Without an expected identifier, `initializeOp` is suspended at its unprotect, on either side of its write-enable
(R186). -/
theorem exec_suspended_unprotect {s : State} (hi : s.admitsInitialize) (he : s.expectedId = 0)
    (hp : (initializeEntered s).pollsReady) :
    ((initializeAwake s).prepollReady → busyOf (initializeAwake s).writeEnabled.pollByte = true →
      exec .initializeOp s = .next { (initializeAwake s).writeEnabled.polled with
        ctl := .active .initializeOp (.waitAgain :: [.sel, .tx 0x01#8, .tx 0x00#8, .unsel, .ret (.bool true)]) []
          (some (initializeAwake s).writeEnabled.pollByte) }) ∧
    (s.par.wePrepoll = true → busyOf (initializeAwake s).pollByte = true →
      exec .initializeOp s = .next { (initializeAwake s).polled with
        ctl := .active .initializeOp (.waitAgain :: .sel :: .tx 0x06#8 :: .unsel :: .wait ::
          [.sel, .tx 0x01#8, .tx 0x00#8, .unsel, .ret (.bool true)]) [] (some (initializeAwake s).pollByte) }) := by
  obtain ⟨hf, hdir, hlevel, hpar, -⟩ := awake_keeps hi.1
  have hreach := steps_initialize_unprotect hi.1 he hp
  rw [unprotectBody_eq, ← congrArg writeEnableTxn hpar] at hreach
  have hsusp := hreach.suspended_mutating (n := fuelOf .initializeOp) hf hdir hlevel (by decide)
  rw [hpar] at hsusp
  rw [exec_initialize hi]
  exact ⟨fun hp hb => congrArg _ (hsusp.1 hp hb), fun hp hb => congrArg _ (hsusp.2 hp hb)⟩

/-- Settles O29: each request stands before the write-enable of a mutating issue, and is suspended on either side of it;
behind its ready-waits it runs to its return. -/
theorem busyPollSuspendsTheMutatingRequest : Obligations.BusyPollSuspendsTheMutatingRequest := by
  unfold Obligations.BusyPollSuspendsTheMutatingRequest
  intro s a v data cs rest wb n burst started
  refine ⟨fun ho => ⟨fun hp hb => ⟨fun c hc => ?_, fun hd => ?_⟩, fun hp hb => ⟨fun c hc => ?_, fun hd => ?_⟩, ?_, ?_⟩,
    fun hi he hp => ?_⟩
  · exact (exec_suspended_mutatingRequest hc ho).1 hp hb
  · exact (exec_suspended_writeBytes ho hd).1 hp hb
  · exact (exec_suspended_mutatingRequest hc ho).2 hp hb
  · exact (exec_suspended_writeBytes ho hd).2 hp hb
  · exact fun k hw c hc => completes_mutatingRequest hc ho hw
  · exact fun ks hw => completes_writeBytes ho hw
  · exact exec_suspended_unprotect hi he hp

/-! ## A suspended request polls again (R69, R107, R201) -/

section
variable {s : State} {req : Instr} {ms : List Micro} {got : List Byte} {poll : Option Byte}

/-- From its suspension point a request polls, up to the loop's test (R107). -/
theorem steps_pollAgain (hf : s.fault = none) (hk : s.ctl = .active req (.waitAgain :: ms) got poll)
    (hdir : s.csDir = .output) (hlevel : s.csLevel = some true) :
    Steps 5 s { s.polled with ctl := .active req (.pollTest :: ms) got (some s.pollByte) } := by
  have hstep : seqStep s = { s with ctl := .active req (pollBody ++ ms) got poll } := seqStep_of_active hk
  have hpoll := steps_poll (s := s) (req := req) (ms := ms) (g := got) (p := poll) hf hdir hlevel
  exact (Steps.one hstep hf rfl).trans hpoll

/-- A poll that reads busy suspends it again, as the whole drain (R107, R112). -/
theorem drain_pollAgain {n : Nat} (hf : s.fault = none) (hk : s.ctl = .active req (.waitAgain :: ms) got poll)
    (hdir : s.csDir = .output) (hlevel : s.csLevel = some true) (hb : busyOf s.pollByte = true) (hn : 6 ≤ n) :
    drain n s = { s.polled with ctl := .active req (.waitAgain :: ms) got (some s.pollByte) } := by
  have htest := seqStep_pollTest (s := s.polled) (req := req) (ms := ms) (g := got) (b := s.pollByte)
  rw [hb, if_pos rfl] at htest
  rw [(steps_pollAgain hf hk hdir hlevel).drain_end (by rw [htest]; exact settled_of_waitAgain rfl) (by omega), htest]

end

/-- Settles O30: the device's turn comes first; behind it the poll either suspends the request again or ends the wait. -/
theorem suspendedRequestPollsAgain : Obligations.SuspendedRequestPollsAgain := by
  unfold Obligations.SuspendedRequestPollsAgain
  intro s req ms got poll hf hk hdir hlevel
  have hsettled := settled_of_waitAgain hk
  refine ⟨step_completes hf hsettled, fun hc hb => ?_, fun hb => ?_⟩
  · have hfuel := le_fuelOf req
    rw [step_others hf hsettled hc, othersStep_active (s := s.drawn) hk,
      drain_pollAgain (s := s.drawn) hf hk hdir hlevel hb (by omega)]
  · have htest := seqStep_pollTest (s := s.polled) (req := req) (ms := ms) (g := got) (b := s.pollByte)
    rw [hb] at htest
    rw [Function.iterate_succ_apply', (steps_pollAgain hf hk hdir hlevel).iterate]
    exact htest

end Sys2Proof.Machine

/-! PROOFS of the statements of 41_identification.md: the two bytes of the identifier word, and the direct read that
delivers it (R130, R131). -/

namespace Sys2Proof.Machine

/-- The identifier word has the first byte received in its bits 15:8 (R131). -/
theorem packId_high (m d : Byte) : (packId m d).extractLsb' 8 8 = m := BitVec.extractLsb'_append_eq_left

/-- It has the second in its bits 7:0 (R131). -/
theorem packId_low (m d : Byte) : (packId m d).extractLsb' 0 8 = d := BitVec.extractLsb'_append_eq_right

/-- A host operation that sends the bytes `bs`, receives `n` and returns, without a ready-wait: one transaction, and the
response made of the bytes received (R105, R130). -/
theorem exec_direct_read {s : State} {i : Instr} {bs : List Byte} {n : Nat} {c : Ret} {r : Response} (ho : s.operational)
    (ha : admissible i = true) (hprog : progOf s.par i = .sel :: (bs.map .tx ++ (rxMany n ++ [.unsel, .ret c])))
    (hresp : responseOf c ((s.heardIn (bs ++ List.replicate n s.par.fillByte)).drop bs.length) s.uidBuf.toList = some r)
    (hk : bs.length + n < 62) :
    exec i s = .next ((s.transacted (bs ++ List.replicate n s.par.fillByte)).respond r) := by
  have ⟨⟨hf, _, hdir, hlevel⟩, _, _⟩ := ho
  have hfuel := le_fuelOf i
  rw [exec_operational ho ha, hprog, drain_read hf hdir hlevel i bs n c r hresp (by omega)]

/-- Settles O16: the word is `packId m d`; the request reads it by one direct transaction of one byte sent and two
received. -/
theorem readDeviceIdPacksTheIdentifier : Obligations.ReadDeviceIdPacksTheIdentifier := by
  unfold Obligations.ReadDeviceIdPacksTheIdentifier
  intro s x m d ho hheard
  have hresp : responseOf .word ((s.heardIn [0x9F#8, s.par.fillByte, s.par.fillByte]).drop 1) s.uidBuf.toList =
      some (.word (packId m d)) := by rw [hheard]; rfl
  exact ⟨packId m d, packId_toNat m d, packId_high m d, packId_low m d,
    exec_direct_read (bs := [0x9F#8]) (n := 2) ho rfl rfl hresp (by decide)⟩

end Sys2Proof.Machine

/-! PROOFS of the statements of 42_read.md: readByte and readBytes as one issue with receives (R140, R141), and that
readBytes returns what writeBytes wrote (R142). -/

namespace Sys2Proof.Machine

/-! ## The reads (R110, R140, R141) -/

/-- A host operation of one non-mutating issue with receives, its poll reading ready: the poll, one transaction, and the
response made of the bytes received (R110). -/
theorem exec_issue_read {s : State} {i : Instr} {op : Byte} {bs : List Byte} {n : Nat} {c : Ret} {r : Response}
    (ho : s.operational) (hp : s.pollsReady) (ha : admissible i = true)
    (hprog : progOf s.par i = issue s.par op false ++ (bs.map Micro.tx ++ (rxMany n ++ [Micro.unsel, .ret c])))
    (hr : responseOf c ((s.polled.heardIn (op :: bs ++ List.replicate n s.par.fillByte)).drop (bs.length + 1))
      s.uidBuf.toList = some r)
    (hk : bs.length + n + 9 < fuelOf i) :
    exec i s = .next ((s.polled.transacted (op :: bs ++ List.replicate n s.par.fillByte)).respond r) := by
  have ⟨⟨hf, _, hdir, hlevel⟩, _, _⟩ := ho
  rw [exec_operational ho ha, hprog, drain_issue_read hf hdir hlevel hp i op bs n c r hr hk]

/-- Settles O18: a ready-wait, then 0x03, the address and one receive, whose byte is the last one heard. -/
theorem readByteReturnsTheLastByte : Obligations.ReadByteReturnsTheLastByte := by
  unfold Obligations.ReadByteReturnsTheLastByte
  intro s a v ho hp hv
  have hdrop : (s.polled.heardIn (0x03#8 :: addrBytes a ++ [s.par.fillByte])).drop 4 = [v] :=
    drop_eq_of_getLast? (by simp [State.heardIn, addrBytes]) hv
  exact exec_issue_read (bs := addrBytes a) (n := 1) (c := .byte) ho hp rfl rfl
    (congrArg (responseOf .byte · s.uidBuf.toList) hdrop) (by simp [addrBytes, fuelOf, byteCount])

/-- Settles O19: the dummy byte is the last known byte, and the `len` receives follow it; the bound on one step has room
for them (log 22). -/
theorem readBytesReturnsTheReceivedBytes : Obligations.ReadBytesReturnsTheReceivedBytes := by
  unfold Obligations.ReadBytesReturnsTheReceivedBytes
  intro s a len ho hp
  exact exec_issue_read (bs := addrBytes a ++ [s.par.fillByte]) (n := len) (c := .bytes) ho hp rfl rfl rfl
    (by simp [addrBytes, fuelOf, byteCount]; omega)

/-! ## Bursts that end at their first polls, and those that take any number (R152) -/

/-- Ready-waits that end at their first poll are ready-waits that read busy no time (R107, R110). -/
theorem bursted_eq_burstedAfter (data : List Byte) : ∀ (bs : List Burst) (s : State),
    s.bursted data bs = s.burstedAfter data bs (List.replicate bs.length (0, 0))
  | [], _ => rfl
  | _ :: bs, _ => bursted_eq_burstedAfter data bs _

/-- Every burst leaves the line high, where it found it (R101). -/
theorem burstedAfter_csLevel (data : List Byte) : ∀ {s : State} (bs : List Burst) (ks : List (Nat × Nat)),
    s.csLevel = some true → (s.burstedAfter data bs ks).csLevel = some true
  | _, [], [], h => h
  | _, [], _ :: _, h => h
  | _, _ :: _, [], h => h
  | _, _ :: bs, _ :: ks, _ => burstedAfter_csLevel data bs ks (transacted_csLevel _)

section
variable {s : State} {data : List Byte} {bs : List Burst} {ks : List (Nat × Nat)}

/-- The state in which writeBytes returns: behind its bursts, the splitter registers ⊥, the response None (R152). -/
def State.writeReturned (s : State) (data : List Byte) (bs : List Burst) (ks : List (Nat × Nat)) : State :=
  ((s.burstedAfter data bs ks).withWb none none none none).respond .none

@[simp] theorem writeReturned_hrsp : (s.writeReturned data bs ks).hrsp = s.hrsp ++ [.none] :=
  congrArg (· ++ [Response.none]) (touches_burstedAfter data s bs ks).hrsp

/-- The block can act again. -/
theorem writeReturned_operational (ho : s.operational) : (s.writeReturned data bs ks).operational := by
  have ⟨⟨hf, _, hdir, hlevel⟩, hup, hph⟩ := ho
  have t := touches_burstedAfter data s bs ks
  exact ⟨⟨t.fault.trans hf, rfl, t.csDir.trans hdir, burstedAfter_csLevel data bs ks hlevel⟩, t.busUp.trans hup,
    t.phase.trans hph⟩

/-- writeBytes whose ready-waits end at their first poll returns in one step (R152, R154). -/
theorem exec_writeBytes {a : Addr} (ho : s.operational) (hr : s.burstsReady data (split a data.length)) :
    exec (.writeBytes a data.length data) s =
      .next (s.writeReturned data (split a data.length) (List.replicate (split a data.length).length (0, 0))) := by
  have ⟨⟨hf, _, hdir, hlevel⟩, _, _⟩ := ho
  rw [exec_operational ho (admissible_writeBytes a data), State.writeReturned, ← bursted_eq_burstedAfter]
  exact congrArg _ (drain_writeBytes hf hdir hlevel a data hr)

/-- The device's turns leave the block able to act. -/
theorem turneds_operational (ho : s.operational) (n : Nat) : (State.turned^[n] s).operational :=
  Function.Iterate.rec State.operational (f := State.turned) ho (fun _ h => h) n

/-- They answer nothing on HRSP. -/
theorem turneds_hrsp (s : State) (n : Nat) : (State.turned^[n] s).hrsp = s.hrsp :=
  Function.Iterate.rec (fun u => State.hrsp u = s.hrsp) (f := State.turned) rfl (fun _ h => h) n

end

/-! ## The cells written are the cells read (R71, R72, R142) -/

/-- A range inside the chip that holds the data, read cell by cell. -/
theorem Written.cells_eq {m0 m : List Host.Cell} {base size : Nat} {data : List Byte}
    (h : Written m0 base data data.length m) (hin : base + data.length ≤ size) :
    (List.range data.length).map (fun i => Memory.read m ((base + i) % size)) = data := by
  refine List.ext_getElem (by simp) fun i _ hi => ?_
  rw [List.getElem_map, List.getElem_range, Nat.mod_eq_of_lt (by omega)]
  exact h.done i hi hi

section
variable {p : Params} {d0 : Device} {a : Addr} {off : Nat} {data : List Byte} {s : State}

/-- A ready device begins with nothing written. -/
theorem Bursting.start (hd : s.deviceReady) (hwf : s.wf) (base : Nat) (data : List Byte) :
    Bursting s.par s.dev base data 0 s := by
  obtain ⟨hm, hbusy, hpend, hdpd, htxn⟩ := hd
  obtain ⟨-, hmem, -, -⟩ := hwf
  have hcomplete : s.dev.complete s.par = s.dev := by simp [Device.complete, hpend]
  have hnone : Written s.dev.mem base data 0 s.dev.mem :=
    ⟨hmem, fun i _ hi => absurd hi (Nat.not_lt_zero i), fun _ _ => rfl⟩
  exact ⟨rfl, hm, hdpd, htxn, by simp [hbusy, hpend], by rw [hcomplete]; exact hnone⟩

/-- The device's turns keep what is written, pending or complete. -/
theorem Bursting.turneds {base : Nat} (h : Bursting p d0 base data off s) (k : Nat) :
    Bursting p d0 base data off (State.turned^[k] s) :=
  Function.Iterate.rec (Bursting p d0 base data off) h (fun _ => Bursting.turned) k

/-- A ready device that holds the data answers it to ARRAY-READ (R71). -/
theorem Bursting.heardIn_arrayRead (h : Bursting p d0 a.toNat data data.length s) (hb : s.dev.busy = false)
    (hin : a.toNat + data.length ≤ p.chipBytes) :
    (s.heardIn (0x0B#8 :: addrBytes a ++ List.replicate (data.length + 1) p.fillByte)).drop 5 = data := by
  obtain ⟨hfast, -⟩ := arrayReadsReturnTheCells s a data.length (h.ready hb)
  rw [h.par] at hfast
  exact hfast.trans ((h.written hb).cells_eq hin)

/-- readBytes of the range written, on a ready device: it returns the data in one step (R142). -/
theorem Bursting.exec_readBytes (h : Bursting p d0 a.toNat data data.length s) (hb : s.dev.busy = false)
    (hin : a.toNat + data.length ≤ p.chipBytes) (ho : s.operational) :
    ∃ u, exec (.readBytes a data.length) s = .next u ∧ u.hrsp = s.hrsp ++ [.bytes data] := by
  obtain ⟨hready, hdev, -⟩ := polled_ready (h.ready hb)
  have hdata := h.polled.heardIn_arrayRead (by rw [hdev]; exact hb) hin
  have hexec := readBytesReturnsTheReceivedBytes s a data.length ho hready
  rw [h.par, hdata] at hexec
  exact ⟨_, hexec, by simp [State.polled]⟩

/-- The same however often its ready-wait reads busy, a pending operation completing meanwhile (R107, R142). -/
theorem Bursting.completes_readBytes {k : Nat} (h : Bursting p d0 a.toNat data data.length s) (hw : s.waits k)
    (hin : a.toNat + data.length ≤ p.chipBytes) (ho : s.operational) :
    ∃ u, Completes (.readBytes a data.length) s u ∧ u.hrsp = s.hrsp ++ [.bytes data] := by
  obtain ⟨hwaited, hready, -⟩ := h.waited hw
  have hdata := hwaited.heardIn_arrayRead hready hin
  rw [← h.par] at hdata
  have hresp := congrArg (fun bs => responseOf .bytes bs s.uidBuf.toList) hdata
  exact ⟨_, completes_issue_read (bs := addrBytes a ++ [s.par.fillByte]) (n := data.length) (c := .bytes) ho hw rfl
    rfl hresp, by simp [(touches_waited s k).hrsp]⟩

end

/-- Settles O46: each burst completes at once, so the polls read ready and the range is written when writeBytes returns;
readBytes then reads it. -/
theorem readBackAfterWrite : Obligations.ReadBackAfterWrite := by
  unfold Obligations.ReadBackAfterWrite
  intro s a data rest ho hd hwf hin herased hc
  obtain ⟨hready, hwritten, hbusy⟩ := bursts_complete hwf.1 hin herased (SplitInv.start a data.length) le_rfl
    (Bursting.start hd hwf a.toNat data) hd.2.1 hc
  rw [bursted_eq_burstedAfter] at hwritten hbusy
  have hback : Bursting s.par s.dev a.toNat data data.length (s.writeReturned data (split a data.length) _) :=
    hwritten.of_complete rfl (.inl rfl)
  obtain ⟨u, hread, hrsp⟩ := hback.exec_readBytes hbusy hin (writeReturned_operational ho)
  exact ⟨_, u, exec_writeBytes ho hready, hread, by simp [hrsp]⟩

/-- Settles O47: with WE_PREPOLL every write-enable meets a ready device, so the range is written but for what is still
pending when writeBytes returns; that completes in the device's turns or before the ready-wait of readBytes ends. -/
theorem readBackWithPrepoll : Obligations.ReadBackWithPrepoll := by
  unfold Obligations.ReadBackWithPrepoll
  intro s a data ks ho hd hwf hpre hin herased hw
  have hwritten := bursts_prepolled hwf.1 hpre hin herased (SplitInv.start a data.length) le_rfl
    (Bursting.start hd hwf a.toNat data) hw
  have hback : Bursting s.par s.dev a.toNat data data.length (s.writeReturned data (split a data.length) ks) :=
    hwritten.of_complete rfl (.inl rfl)
  refine ⟨s.writeReturned data (split a data.length) ks, completes_writeBytes ho hw, fun n k hk => ?_⟩
  obtain ⟨u, hread, hrsp⟩ :=
    (hback.turneds n).completes_readBytes hk hin (turneds_operational (writeReturned_operational ho) n)
  exact ⟨u, hread, by simp [hrsp, turneds_hrsp]⟩

end Sys2Proof.Machine

/-! PROOFS of the statements of 43_program.md: the bursts of SPLIT (R151-R155), that writeBytes sends them (R152), and
what writeByte leaves of the array of a ready device (R52, R69, R150). -/

namespace Sys2Proof.Machine

/-! ## The bursts of SPLIT (R151-R155) -/

/-- Settles O7: the splitter's loop stays in the page of its registers, and every later burst starts one. -/
theorem burstsStayInTheirPage : Obligations.BurstsStayInTheirPage := by
  unfold Obligations.BurstsStayInTheirPage
  intro a len
  obtain ⟨hbounds, hstart⟩ := splitLoop_bounds (SplitInv.start a len) le_rfl
  refine ⟨fun b hb => ?_, hstart⟩
  obtain ⟨hmin, hroom, -, -⟩ := hbounds b hb
  exact ⟨hmin, by omega, hroom⟩

/-- Settles O8: the laws of the splitter's loop, begun at offset 0. -/
theorem burstsPartitionTheBuffer : Obligations.BurstsPartitionTheBuffer := by
  unfold Obligations.BurstsPartitionTheBuffer
  intro a data bs
  obtain ⟨hlimit, -⟩ := firstLimit_bounds a
  obtain ⟨hbounds, -⟩ := splitLoop_bounds (SplitInv.start a data.length) le_rfl
  refine ⟨fun k hk => ?_, splitLoop_sum a 0 _ _ hlimit le_rfl, fun b hb => ?_, ?_⟩
  · exact (splitLoop_offsets a 0 _ _ hlimit le_rfl k hk).trans (Nat.zero_add _)
  · obtain ⟨-, -, haddr, -⟩ := hbounds b hb
    exact haddr
  · exact splitLoop_data data a 0 _ _ hlimit le_rfl (Nat.zero_add _)

/-- The number of bursts: the pages that the range touches. -/
theorem split_length (a : Addr) (len : Nat) :
    (split a len).length = if len = 0 then 0 else (a.toNat % 256 + len + 255) / 256 := by
  obtain ⟨hcount, -⟩ := splitLoop_count (SplitInv.start a len) le_rfl
  rwa [show 256 - firstLimit a = a.toNat % 256 by have := firstLimit_room a; omega] at hcount

/-- No partition of the range into pieces that each stay in one page has fewer: `ns.length` such pieces end within as many
pages, counted from the page of `a`. -/
theorem split_length_le {a : Addr} {ns : List Nat}
    (h : ∀ k (h : k < ns.length), (a.toNat + (ns.take k).sum) % 256 + ns[k] ≤ 256) :
    (split a ns.sum).length ≤ ns.length := by
  rw [split_length]
  split
  · exact Nat.zero_le _
  · rename_i hsum
    have hne : ns ≠ [] := by
      rintro rfl
      exact hsum rfl
    have hreach := pages_reach h ns.length le_rfl (List.length_pos_iff.2 hne)
    rw [List.take_length] at hreach
    omega

/-- Settles O9: the count and the page ends by the laws of the loop, minimality by how far page-bounded pieces reach. -/
theorem burstCountIsMinimal : Obligations.BurstCountIsMinimal := by
  unfold Obligations.BurstCountIsMinimal
  intro a len bs
  obtain ⟨-, hends⟩ := splitLoop_count (SplitInv.start a len) le_rfl
  refine ⟨split_length a len, hends, splitLoop_last (SplitInv.start a len) le_rfl, ?_⟩
  rintro ns rfl hpages
  exact split_length_le hpages

/-! ## writeBytes (R152, R154) -/

/-- Settles O21: the request returns behind its bursts, each ready-wait having read busy no time. -/
theorem writeBytesSendsExactlySplit : Obligations.WriteBytesSendsExactlySplit := by
  unfold Obligations.WriteBytesSendsExactlySplit
  intro s a data ho hr
  rw [exec_writeBytes ho hr, State.writeReturned, ← bursted_eq_burstedAfter]
  rfl

/-! ## writeByte on a ready device (R52, R69, R150) -/

/-- The cell of an address has its place in the page, the chip being made of whole pages (R50, D17). -/
theorem cellOf_mod_page {p : Params} (hp : p.wf) (a : Addr) : cellOf p a 0 % 256 = a.toNat % 256 := by
  obtain ⟨hchip, -, -, -⟩ := hp
  have hpages : 256 ∣ p.chipBytes := Nat.pow_dvd_pow 2 (show 8 ≤ p.chipBits by omega)
  exact Nat.mod_mod_of_dvd _ hpages

/-- A completed program of one byte programs the addressed cell (R52, R72). -/
theorem apply_program_single {p : Params} (hp : p.wf) (a : Addr) (v : Byte) (m : List Host.Cell) :
    (DevOp.program a [v]).apply p m = Memory.program m (cellOf p a 0) v := by
  have hcell : unitBase 256 (cellOf p a 0) + (a.toNat % 256 + 0) % 256 = cellOf p a 0 := by
    have := cellOf_mod_page hp a
    unfold unitBase
    omega
  simp only [DevOp.apply, programPage, Config.pageBytes, hcell]

/-- A mutating issue to a ready device, with its command: the device has taken up the operation (R69, R110). -/
theorem tookUp_issued {s : State} {op : Byte} {o : DevOp} (h : s.deviceReady) (hk : knownOpcode op = true)
    (hm : mutating op = true) (bs : List Byte)
    (ho : (Txn.fresh.after s.mutatingIssued.dev (op :: bs)).operation op = some o) :
    tookUp s.par s.dev (s.mutatingIssued.transacted (op :: bs)).dev o := by
  obtain ⟨hop, hwel, hfree⟩ := Txn.fresh_after s.mutatingIssued.dev op bs
  obtain ⟨tr, e⟩ := issued_ready h bs rfl hop hfree hwel hk hm ho
  rw [tookUp, (Prod.mk.inj e).1]
  split
  · exact .inr rfl
  · exact .inl rfl

/-- A device that was at rest and has taken up a program of one byte: only the addressed cell may change, to
`old AND v` once the operation is complete (R52, R69). -/
theorem tookUp_program_single {p : Params} {d d' : Device} {a : Addr} {v : Byte} (hp : p.wf) (hm : Memory.wf d.mem)
    (hpend : d.pending = none) (h : tookUp p d d' (.program a [v])) :
    (∀ x, x ≠ cellOf p a 0 → Memory.read d'.mem x = Memory.read d.mem x) ∧
      ((d'.pending = none ∧ Memory.read d'.mem (cellOf p a 0) = Memory.read d.mem (cellOf p a 0) &&& v) ∨
        (d'.pending = some (.program a [v]) ∧ Memory.read d'.mem (cellOf p a 0) = Memory.read d.mem (cellOf p a 0))) := by
  rcases h with rfl | rfl
  · exact ⟨fun _ _ => rfl, .inr ⟨rfl, rfl⟩⟩
  · have hread (x : Nat) := Memory.read_program hm (cellOf p a 0) x v
    rw [apply_program_single hp]
    exact ⟨fun x hx => (hread x).trans (if_neg hx), .inl ⟨hpend, (hread _).trans (if_pos rfl)⟩⟩

/-- A mutating issue touches what its transactions touch: it is one whose ready-waits read busy no time (R110). -/
theorem touches_mutatingIssued (s : State) : Touches s s.mutatingIssued := touches_mutatingAfter s (0, 0)

/-- Settles O44: the request sends its one burst, which a ready device takes up as the program of one byte. -/
theorem writeByteOnReadyDevice : Obligations.WriteByteOnReadyDevice := by
  unfold Obligations.WriteByteOnReadyDevice
  intro s a v ho hd hwf
  obtain ⟨hp, hmem, -, -⟩ := hwf
  obtain ⟨hready, -, -⟩ := mutatingIssued_ready hd
  have hexec := writeByteSendsOneBurst s a v ho hready
  have htook : tookUp s.par s.dev (s.mutatingIssued.transacted (0x02#8 :: addrBytes a ++ [v])).dev (.program a [v]) :=
    tookUp_issued hd rfl rfl (addrBytes a ++ [v]) (by rw [Txn.after_addr _ rfl]; rfl)
  have htouch := (touches_mutatingIssued s).trans (touches_transacted _ (0x02#8 :: addrBytes a ++ [v]))
  generalize s.mutatingIssued.transacted (0x02#8 :: addrBytes a ++ [v]) = u at hexec htook htouch
  obtain ⟨-, -, hpend, -, -⟩ := hd
  obtain ⟨hother, haddressed⟩ := tookUp_program_single hp hmem hpend htook
  have hcell : (u.respond .none).cell a = Memory.read u.dev.mem (cellOf s.par a 0) := by rw [← htouch.par]; rfl
  rw [← hcell] at haddressed
  exact ⟨u.respond .none, hexec, rfl, congrArg (· ++ [Response.none]) htouch.hrsp, hother, haddressed⟩

end Sys2Proof.Machine

/-! PROOFS of the statements of 44_erase.md: that the three erases are one mutating issue each (R110, R170-R172), and what
they leave of the array of a ready device (R51, R52, R73). -/

namespace Sys2Proof.Machine

/-! ## The erases on the wire (R110, R170-R172) -/

/-- A request of one mutating issue sends five bytes at most (R82). -/
theorem mutatingRequests_length {a : Addr} {v : Byte} {c : Instr × List Byte} (hc : c ∈ mutatingRequests a v) :
    c.2.length ≤ 5 := by
  simp only [mutatingRequests, List.mem_cons, List.not_mem_nil, or_false] at hc
  obtain rfl | rfl | rfl | rfl := hc <;> simp [addrBytes]

/-- A request of one mutating issue whose ready-waits end at their first poll sends its bytes and returns (R110). -/
theorem exec_mutatingRequest {s : State} {a : Addr} {v : Byte} {c : Instr × List Byte} (hc : c ∈ mutatingRequests a v)
    (ho : s.operational) (hp : s.mutatingReady) :
    exec c.1 s = .next ((s.mutatingIssued.transacted c.2).respond .none) := by
  have hlen := mutatingRequests_length hc
  obtain ⟨ha, op, bs, hbytes, hprog⟩ := mutatingRequests_prog hc s.par
  rw [hbytes] at hlen ⊢
  exact exec_issue_mutating ho hp ha hprog (Nat.le_of_succ_le_succ hlen)

/-- Settles O22: each erase is one mutating issue of its bytes. -/
theorem erasesSendTheirOpcode : Obligations.ErasesSendTheirOpcode := by
  unfold Obligations.ErasesSendTheirOpcode
  intro s a ho hp
  have hsent : ∀ c ∈ mutatingRequests a 0, exec c.1 s = .next ((s.mutatingIssued.transacted c.2).respond .none) :=
    fun _ hc => exec_mutatingRequest hc ho hp
  simp only [mutatingRequests, List.forall_mem_cons] at hsent
  obtain ⟨-, hsector, hblock, hchip, -⟩ := hsent
  exact ⟨hsector, hblock, hchip⟩

/-! ## The erases on a ready device (R51, R52, R69, R73) -/

/-- On a ready device a request of one mutating issue returns None, the device having taken up the operation that the
bytes make (R69, R110). -/
theorem exec_mutatingRequest_tookUp {s : State} {a : Addr} {v : Byte} {i : Instr} {o : DevOp} (op : Byte)
    (bs : List Byte) (hc : (i, op :: bs) ∈ mutatingRequests a v) (hs : s.operational) (hd : s.deviceReady)
    (hk : knownOpcode op = true) (hm : mutating op = true)
    (ho : (Txn.fresh.after s.mutatingIssued.dev (op :: bs)).operation op = some o) :
    ∃ t, exec i s = .next t ∧ t.ctl = .idle ∧ t.hrsp = s.hrsp ++ [.none] ∧ tookUp s.par s.dev t.dev o := by
  obtain ⟨hready, -, -⟩ := mutatingIssued_ready hd
  have htouch := (touches_mutatingIssued s).trans (touches_transacted _ (op :: bs))
  exact ⟨_, exec_mutatingRequest hc hs hready, rfl, congrArg (· ++ [Response.none]) htouch.hrsp,
    tookUp_issued hd hk hm bs ho⟩

/-- A device that was at rest and has taken up an erase of `size` cells from `base` on: no cell outside them changes, and
they all read 0xFF once the operation is complete (R52, R69, R73). -/
theorem tookUp_erase {p : Params} {d d' : Device} {o : DevOp} {base size : Nat} (hm : Memory.wf d.mem)
    (hpend : d.pending = none) (happly : o.apply p d.mem = Memory.erase d.mem base size) (h : tookUp p d d' o) :
    (∀ x, ¬(base ≤ x ∧ x < base + size) → Memory.read d'.mem x = Memory.read d.mem x) ∧
      ((d'.pending = none ∧ ∀ x, base ≤ x → x < base + size → Memory.read d'.mem x = 0xFF#8) ∨
        (d'.pending = some o ∧ d'.mem = d.mem)) := by
  rcases h with rfl | rfl
  · exact ⟨fun _ _ => rfl, .inr ⟨rfl, rfl⟩⟩
  · have hread := Memory.read_erase hm base size
    rw [happly]
    exact ⟨fun x hx => (hread x).trans (if_neg hx),
      .inl ⟨hpend, fun x hlow hhigh => (hread x).trans (if_pos ⟨hlow, hhigh⟩)⟩⟩

/-- Settles O45: each erase sends the bytes of its operation, which a ready device takes up, and that operation erases
the aligned unit. -/
theorem erasesOnReadyDevice : Obligations.ErasesOnReadyDevice := by
  unfold Obligations.ErasesOnReadyDevice
  intro s a hs hd hwf sector block c hc
  obtain ⟨-, hmem, -, -⟩ := hwf
  have ⟨_, _, hpend, _, _⟩ := hd
  have hunit : c.2.1.apply s.par s.dev.mem = Memory.erase s.dev.mem c.2.2.1 c.2.2.2 ∧
      ∃ t, exec c.1 s = .next t ∧ t.ctl = .idle ∧ t.hrsp = s.hrsp ++ [.none] ∧ tookUp s.par s.dev t.dev c.2.1 := by
    simp only [List.mem_cons, List.not_mem_nil, or_false] at hc
    obtain rfl | rfl | rfl := hc
    · exact ⟨rfl, exec_mutatingRequest_tookUp (a := a) (v := 0) 0x20#8 (addrBytes a) (by simp [mutatingRequests]) hs hd
        rfl rfl (by rw [Txn.after_addr_only _ rfl]; rfl)⟩
    · exact ⟨rfl, exec_mutatingRequest_tookUp (a := a) (v := 0) 0x52#8 (addrBytes a) (by simp [mutatingRequests]) hs hd
        rfl rfl (by rw [Txn.after_addr_only _ rfl]; rfl)⟩
    · exact ⟨rfl, exec_mutatingRequest_tookUp (a := a) (v := 0) 0x60#8 [] (by simp [mutatingRequests]) hs hd rfl rfl rfl⟩
  obtain ⟨happly, t, hexec, hidle, hrsp, htook⟩ := hunit
  exact ⟨t, hexec, hidle, hrsp, tookUp_erase hmem hpend happly htook⟩

end Sys2Proof.Machine

/-! PROOFS of the statements of 45_power_and_lifecycle.md: sleep and wakeup (R180, R181), end and BusBegin (R184, R185),
and `initializeOp` through its stages, at its first polls and over any finite number of busy ones (R186, R187). -/

namespace Sys2Proof.Machine

/-! ## Power-down and release (R180, R181) -/

/-- Settles O23: each is one non-mutating issue of its opcode, which sends and receives nothing more. -/
theorem sleepAndWakeupSendTheirOpcode : Obligations.SleepAndWakeupSendTheirOpcode := by
  unfold Obligations.SleepAndWakeupSendTheirOpcode
  exact fun s ho hp => ⟨exec_issue_read (bs := []) (n := 0) (c := .none) ho hp rfl rfl rfl (by decide),
    exec_issue_read (bs := []) (n := 0) (c := .none) ho hp rfl rfl rfl (by decide)⟩

/-! ## The bus released and begun again (R184, R185) -/

/-- Settles O24: the program of end is BUS_END and the return. -/
theorem endReleasesTheBus : Obligations.EndReleasesTheBus := by
  unfold Obligations.EndReleasesTheBus
  intro s hf hi hup hph
  have hrun := hostRequest_next (prog := progEnd) hf hi (admits_op (i := .endOp) hup hph rfl rfl)
  have hend : Steps 1 { s with ctl := .active .endOp progEnd [] none }
      { s.busEnded with ctl := .active .endOp [.ret .none] [] none } := Steps.one (t := s.busEnded) rfl hf rfl
  rw [hend.returns rfl (by decide)] at hrun
  exact hrun

/-- BusBegin writes `bus_up` and the phase, and takes only Ended to another phase (R185). -/
theorem busBegun_eq (s : State) :
    s.busBegun = { s with
      busUp := true,
      phase := if s.phase = .ended then (if s.csDir = .output then .initialized else .constructed) else s.phase } := by
  cases h : s.phase <;> simp [State.busBegun, h]

/-- Settles O52: behind the device's turn the step is the host's move, which is BusBegin. -/
theorem busBeginReopensTheBus : Obligations.BusBeginReopensTheBus := by
  unfold Obligations.BusBeginReopensTheBus
  intro s rest hf hi hq
  refine ⟨step_completes hf (settled_of_idle hi), fun hc => ?_⟩
  rw [step_move hf hi hq hc, hostMove, busBegun_eq]
  rfl

/-! ## `initializeOp` behind its wakeup (R186, R187) -/

/-- `w` is a state between transactions that `initializeOp`, run from `s`, has behind its wakeup. -/
structure InitializeStage (s w : State) : Prop where
  fault      : w.fault = none
  csDir      : w.csDir = .output
  csLevel    : w.csLevel = some true
  par        : w.par = s.par
  expectedId : w.expectedId = s.expectedId

section
variable {s w : State} {g bs : List Byte} {x m d : Byte} {q : Option Byte} {n : Nat}

/-- The state right behind the wakeup is one, however often its ready-wait has read busy. -/
theorem InitializeStage.awakeAfter (hf : s.fault = none) (j : Nat) : InitializeStage s (initializeAwakeAfter s j) :=
  have htouch := touches_awakeAfter s j
  ⟨htouch.fault.trans hf, htouch.csDir, transacted_csLevel _, htouch.par, htouch.expectedId⟩

/-- So is that at the first poll, which has read busy no time. -/
theorem InitializeStage.awake (hf : s.fault = none) : InitializeStage s (initializeAwake s) := .awakeAfter hf 0

/-- A transaction leads from one to another. -/
theorem InitializeStage.transacted (h : InitializeStage s w) (bs : List Byte) : InitializeStage s (w.transacted bs) :=
  ⟨(transacted_fault bs).trans h.fault, (transacted_csDir bs).trans h.csDir, transacted_csLevel bs,
    (transacted_par bs).trans h.par, (transacted_expectedId bs).trans h.expectedId⟩

/-- The test of the identifier compares the word heard with the expected one as numbers (R130, R186). -/
theorem seqStep_idTest_expected {req : Instr} {ms : List Micro} {e : Word16} (h : w.expectedId = e) :
    seqStep { w with ctl := .active req (.idTest :: ms) [m, d] q } =
      { w with
        ctl := .active req (if 256 * m.toNat + d.toNat = e.toNat then ms else [.ret (.bool false)]) [m, d] q } := by
  subst h
  rw [seqStep_idTest]
  simp only [packId_eq_iff]

/-- With an identifier expected, the probe is one JEDEC-ID transaction, and goes on to the unprotect where the word
heard is the expected one, else to the return of false (R186). -/
theorem steps_identify (h : InitializeStage s w) (he : s.expectedId ≠ 0)
    (hbs : bs = [0x9F#8, s.par.fillByte, s.par.fillByte]) (hh : w.heardIn bs = [x, m, d]) :
    Steps 7 { w with ctl := .active .initializeOp (.probe :: unprotectBody s.par) [] q }
      { w.transacted bs with
        ctl := .active .initializeOp
          (if 256 * m.toNat + d.toNat = s.expectedId.toNat then unprotectBody s.par else [.ret (.bool false)])
          [m, d] q } := by
  have hprobe := steps_probe (req := .initializeOp) (ms := unprotectBody s.par) (g := []) (q := q) h.fault h.csDir
    h.csLevel (h.expectedId ▸ he) (h.par ▸ hbs) hh
  have hstage := h.transacted bs
  refine hprobe.trans (Steps.one (t := w.transacted bs) (seqStep_idTest_expected hstage.expectedId) hstage.fault ?_)
  split
  · exact suspends_unprotect s.par
  · rfl

/-- An `initializeOp` that runs to a return, within the bound on one step, answers it at once (log 22). -/
theorem exec_initialize_returns {b : Bool} (hi : s.admitsInitialize)
    (h : Steps n { s with ctl := .active .initializeOp (progInitialize s.par) [] none }
      { w with ctl := .active .initializeOp [.ret (.bool b)] g q })
    (hn : n < 64) : exec .initializeOp s = .next (w.respond (.bool b)) := by
  rw [exec_initialize hi, h.returns (n := fuelOf .initializeOp) rfl hn]

/-- One that runs to its unprotect answers true behind it, its ready-waits ending at their first poll (R186). -/
theorem exec_initialize_unprotects (hi : s.admitsInitialize) (hw : InitializeStage s w)
    (h : Steps n { s with ctl := .active .initializeOp (progInitialize s.par) [] none }
      { w with ctl := .active .initializeOp (unprotectBody s.par) g q })
    (hn : n ≤ 20) (hr : w.mutatingReady) :
    exec .initializeOp s = .next ((w.mutatingIssued.transacted [0x01#8, 0x00#8]).respond (.bool true)) := by
  obtain ⟨k, q', hk, hunprotect⟩ := steps_unprotect hw.par.symm hw.fault hw.csDir hw.csLevel hr
  exact exec_initialize_returns hi (h.trans hunprotect) (by omega)

/-- One whose moves lead to a return completes with it. -/
theorem completes_initialize_returns {b : Bool} (hi : s.admitsInitialize) (hf : w.fault = none)
    (h : Runs { s with ctl := .active .initializeOp (progInitialize s.par) [] none }
      { w with ctl := .active .initializeOp [.ret (.bool b)] g q }) :
    Completes .initializeOp s (w.respond (.bool b)) :=
  completes_of_runs (exec_initialize hi) (h.returns rfl) rfl hf

/-- One whose moves lead to its unprotect completes with true behind it, however long its ready-waits take (R186). -/
theorem completes_initialize_unprotects {k : Nat × Nat} (hi : s.admitsInitialize) (hw : InitializeStage s w)
    (h : Runs { s with ctl := .active .initializeOp (progInitialize s.par) [] none }
      { w with ctl := .active .initializeOp (unprotectBody s.par) g q })
    (hk : w.mutatingWaits k) :
    Completes .initializeOp s (((w.mutatingAfter k).transacted [0x01#8, 0x00#8]).respond (.bool true)) := by
  have hrun := h.trans (runs_unprotect hw.par.symm hw.fault hw.csDir hw.csLevel hk)
  have htouch := (touches_mutatingAfter w k).trans (touches_transacted _ [0x01#8, 0x00#8])
  exact completes_of_runs (exec_initialize hi) hrun rfl (htouch.fault.trans hw.fault)

end

/-- Settles O25: without an expected identifier the wakeup is followed by the unprotect. -/
theorem initializeWithoutProbe : Obligations.InitializeWithoutProbe := by
  unfold Obligations.InitializeWithoutProbe
  intro s hi he
  have ⟨hf, _, _, _⟩ := hi
  refine ⟨fun hp hr => ?_, fun j k hj hk => ?_⟩
  · exact exec_initialize_unprotects hi (.awake hf) (steps_initialize_unprotect hf he hp) (by decide) hr
  · have hstage := InitializeStage.awakeAfter hf j
    obtain ⟨q, hawake⟩ := runs_awake hf hj
    have hskip := Runs.one (seqStep_probe_skip (req := .initializeOp) (ms := unprotectBody s.par) (g := []) (q := q)
      (hstage.expectedId.trans he))
    exact completes_initialize_unprotects hi hstage (hawake.trans hskip) hk

/-- Settles O26: the probe is followed by the return of false or by the unprotect, as the identifier heard decides. -/
theorem initializeWithProbe : Obligations.InitializeWithProbe := by
  unfold Obligations.InitializeWithProbe
  intro s x m d hi he jedec
  have ⟨hf, _, _, _⟩ := hi
  refine ⟨?_, ?_⟩
  · intro hp hh probed
    have hstage := InitializeStage.awake hf
    have hrun := (steps_awake hf hp).trans (steps_identify hstage he rfl hh)
    refine ⟨fun hne => ?_, fun heq hr => ?_⟩
    · rw [if_neg hne] at hrun
      exact exec_initialize_returns hi hrun (by decide)
    · rw [if_pos heq] at hrun
      exact exec_initialize_unprotects hi (hstage.transacted jedec) hrun (by decide) hr
  · intro j hj hh probed
    have hstage := InitializeStage.awakeAfter hf j
    obtain ⟨q, hawake⟩ := runs_awake hf hj
    have hrun := hawake.trans (steps_identify (q := q) hstage he rfl hh).runs
    refine ⟨fun hne => ?_, fun heq k hk => ?_⟩
    · rw [if_neg hne] at hrun
      exact completes_initialize_returns hi (hstage.transacted jedec).fault hrun
    · rw [if_pos heq] at hrun
      exact completes_initialize_unprotects hi (hstage.transacted jedec) hrun hk

end Sys2Proof.Machine

/-! PROOFS of the statements of 60_exceptions.md: what a faulted state answers (R203), which requests are refused and what
refusal does (R204, R205), and that a sound block's own step raises no fault (R104, R203). -/

namespace Sys2Proof.Machine

/-! ## What every meaning begins with (R203, R204, R209) -/

section
variable {s : State} {i : Instr} {k : Host.Outcome State Fault Refusal}

theorem whenIdle_of_fault {r : Fault} (hf : s.fault = some r) : whenIdle s k = .fault r := by simp [whenIdle, hf]

theorem whenIdle_of_active {req : Instr} {todo : List Micro} {got : List Byte} {poll : Option Byte}
    (hf : s.fault = none) (hc : s.ctl = .active req todo got poll) : whenIdle s k = .refused .requestWhileActive := by
  simp [whenIdle, hf, hc]

theorem whenIdle_of_idle (hf : s.fault = none) (hi : s.ctl = .idle) : whenIdle s k = k := by simp [whenIdle, hf, hi]

/-- A host operation runs its program where R204 admits it, and is refused elsewhere. -/
theorem exec_host_eq (hl : hostLayer i = true) :
    exec i s =
      whenIdle s (.next (if admits s i then drain (fuelOf i) (s.begin i (progOf s.par i)) else s.refuse)) := by
  rw [exec_eq, if_pos hl, hostRequest]

/-- A well-formed wire command runs its program (log 3). -/
theorem exec_wire_eq (hl : hostLayer i = false) (hw : i.wf s.par = true) :
    exec i s = whenIdle s (.next (drain (fuelOf i) (s.begin i (progOf s.par i)))) := by
  rw [exec_eq, hl, hw, if_neg Bool.false_ne_true, if_pos rfl, wireTransaction]

/-! ## Faulted states (R203) -/

/-- An instruction of either layer answers the fault of a faulted state. -/
theorem exec_of_fault {r : Fault} (hf : s.fault = some r) (hw : i.wf s.par = true) : exec i s = .fault r := by
  cases hl : hostLayer i with
  | true => rw [exec_host_eq hl, whenIdle_of_fault hf]
  | false => rw [exec_wire_eq hl hw, whenIdle_of_fault hf]

theorem step_of_fault {r : Fault} (hf : s.fault = some r) : step s = .fault r := by simp [step, hf]

end

/-- Settles O31: a step asks for the fault first, and so does the meaning of every instruction. -/
theorem faultedStateTakesNoStep : Obligations.FaultedStateTakesNoStep := by
  unfold Obligations.FaultedStateTakesNoStep
  exact fun s r i hf => ⟨exec_of_fault hf, step_of_fault hf⟩

/-! ## Admission and refusal (R204, R205) -/

section
variable {s : State} {i : Instr}

/-- Constructed admits only `initializeOp` (R204 (c)). -/
theorem phaseAdmits_constructed (hi : i ≠ .initializeOp) : phaseAdmits .constructed i = false := by
  rw [phaseAdmits]
  exact hi

/-- A host operation is not admitted where any of the conditions (b) to (e) fails. -/
theorem admits_eq_false
    (h : s.busUp = false ∨ phaseAdmits s.phase i = false ∨ opselAdmits i = false ∨ lengthAdmits i = false) :
    admits s i = false := by
  rcases h with h | h | h | h <;> simp [admits, h]

/-- A host operation that is not admitted in an idle block only sets `refused` (R204). -/
theorem exec_of_not_admits (hl : hostLayer i = true) (hf : s.fault = none) (hi : s.ctl = .idle)
    (ha : admits s i = false) : exec i s = .next s.refuse := by
  rw [exec_host_eq hl, whenIdle_of_idle hf hi, ha, if_neg Bool.false_ne_true]

end

/-- Settles O27: each reason listed is one of the conditions (b) to (e) of admission failing; (a) is asked before them. -/
theorem refusedRequestsOnlySetRefused : Obligations.RefusedRequestsOnlySetRefused := by
  unfold Obligations.RefusedRequestsOnlySetRefused
  intro s i hl hf
  refine ⟨fun req todo got poll hc => ?_, fun hi hwhy => exec_of_not_admits hl hf hi (admits_eq_false ?_)⟩
  · rw [exec_host_eq hl, whenIdle_of_active hf hc]
  · rcases hwhy with hbus | ⟨hph, hinit⟩ | hph | rfl | ⟨a, len, data, rfl, hlen⟩
    · exact .inl hbus
    · exact .inr (.inl (by rw [hph, phaseAdmits_constructed hinit]))
    · exact .inr (.inl (by rw [hph]; rfl))
    · exact .inr (.inr (.inl rfl))
    · exact .inr (.inr (.inr (beq_false_of_ne hlen)))

/-! ## The steps of a sound block (R104, R203) -/

section
variable {s : State}

/-- An idle, unfaulted block answers every host operation with a next state: its run, or the refused request (R204). -/
theorem exec_host_next {i : Instr} (hl : hostLayer i = true) (hf : s.fault = none) (hi : s.ctl = .idle) :
    ∃ t, exec i s = .next t :=
  ⟨_, (exec_host_eq hl).trans (whenIdle_of_idle hf hi)⟩

/-- A request record is refused by name where it does not decode (log 29), and else answered with a next state. -/
theorem runEncoded_request_cases (r : Request) (hf : s.fault = none) (hi : s.ctl = .idle) :
    (∃ t, runEncoded (.request r) s = .next t) ∨
      ∃ e, decode s.par (.request r) = .error e ∧ runEncoded (.request r) s = .refused .noSuchRequest := by
  rcases hd : decode s.par (.request r) with e | i
  · exact .inr ⟨e, rfl, by simp [runEncoded, hd]⟩
  · rw [runEncoded_of_decode_ok hd]
    exact .inl (exec_host_next (decodeRequest_host hd) hf hi)

/-- Another handle's request is answered with a next state, unless there is no other handle (R213, log 24). -/
theorem otherRequest_cases (effect : State → State) (s : State) :
    (∃ t, otherRequest effect s = .next t) ∨
      (s.par.nHandles ≤ 1 ∧ otherRequest effect s = .refused .noOtherHandle) := by
  rcases Nat.lt_or_ge 1 s.par.nHandles with h | h
  · exact .inl ⟨_, otherRequest_of_handles effect h⟩
  · exact .inr ⟨h, otherRequest_of_single effect h⟩

/-- All that an idle, unfaulted block answers to a move of the host that is no hand-built transaction. -/
theorem hostMove_cases {m : HostMove} (hf : s.fault = none) (hi : s.ctl = .idle) (hm : ∀ mosi, m ≠ .issue (.wire mosi)) :
    (∃ t, hostMove m s = .next t) ∨
      (∃ r e, m = .issue (.request r) ∧ decode s.par (.request r) = .error e ∧
        hostMove m s = .refused .noSuchRequest) ∨
      ((m = .otherEnd ∨ ∃ u, m = .otherUniqueId u) ∧ s.par.nHandles ≤ 1 ∧ hostMove m s = .refused .noOtherHandle) := by
  cases m with
  | issue e =>
    cases e with
    | request r =>
      obtain ht | ⟨e, hd, hr⟩ := runEncoded_request_cases r hf hi
      · exact .inl ht
      · exact .inr (.inl ⟨r, e, rfl, hd, hr⟩)
    | wire mosi => exact absurd rfl (hm mosi)
  | busBegin => exact .inl ⟨_, rfl⟩
  | setIe on => exact .inl ⟨_, rfl⟩
  | setBusCfg c => exact .inl ⟨_, rfl⟩
  | otherUniqueId u =>
    rw [hostMove, otherUniqueId]
    exact (otherRequest_cases _ s).imp_right fun h => .inr ⟨.inr ⟨u, rfl⟩, h⟩
  | otherEnd =>
    rw [hostMove, otherEnd]
    exact (otherRequest_cases _ s).imp_right fun h => .inr ⟨.inl rfl, h⟩

/-- A step of an unfaulted state is a next state whatever it is, or the host's move of an idle block, behind a turn of the
device that is not its own step (R6, R69). -/
theorem step_next_or_move (hf : s.fault = none) :
    (∃ t, step s = .next t) ∨
      (s.ctl = .idle ∧ ∃ m rest, s.hreq = m :: rest ∧ step s = hostMove m { s.drawn with hreq := rest }) := by
  cases hs : s.settled with
  | false =>
    cases hc : s.ctl with
    | idle => rw [settled_of_idle hc] at hs; cases hs
    | active req todo got poll => exact .inl ⟨_, (step_unsettled hf hs).trans (othersStep_active hc)⟩
  | true =>
    cases hd : s.completes with
    | true => exact .inl ⟨_, step_completes hf hs hd⟩
    | false =>
      cases hc : s.ctl with
      | active req todo got poll => exact .inl ⟨_, (step_others hf hs hd).trans (othersStep_active (s := s.drawn) hc)⟩
      | idle =>
        cases hq : s.hreq with
        | nil => exact .inl ⟨_, step_idle hf hc hq hd⟩
        | cons m rest => exact .inr ⟨rfl, m, rest, rfl, step_move hf hc hq hd⟩

end

/-- Settles O58: a next state is sound, so it has no fault, and no other answer but the two refusals is left to the host's
move. -/
theorem soundBlockNeverFaults : Obligations.SoundBlockNeverFaults := by
  unfold Obligations.SoundBlockNeverFaults
  intro s h hown
  have hf : s.fault = none := h.1
  have hnext : ∀ t, step s = .next t → t.fault = none := fun t ht => (step_sound h hown ht).1
  obtain ⟨t, ht⟩ | ⟨hi, m, rest, hq, hstep⟩ := step_next_or_move hf
  · exact .inl ⟨t, ht, hnext t ht⟩
  · have hm : ∀ mosi, m ≠ .issue (.wire mosi) := by
      rintro mosi rfl
      exact hown mosi rest hq
    rw [hstep] at hnext ⊢
    obtain ⟨t, ht⟩ | ⟨r, e, rfl, hd, hr⟩ | ⟨hother, hn, hr⟩ :=
      hostMove_cases (s := { s.drawn with hreq := rest }) hf hi hm
    · exact .inl ⟨t, ht, hnext t ht⟩
    · exact .inr (.inl ⟨r, rest, e, hq, hd, hr⟩)
    · exact .inr (.inr ⟨m, rest, hq, hother, hn, hr⟩)

end Sys2Proof.Machine
